-- ==== Sys2Proof/Word.lean ====
section
/-! DEFINITION. The widths of 00_scope.md R11, and nothing else.

All fields are unsigned (R13): the core has no signed arithmetic. Sequence numbers, delay counts
and FIFO indices are unbounded naturals (R13, R40, R46). -/

namespace Sys2Proof

/-- A data byte, a port register, 8 bits (R11, 10_state.md R42). -/
abbrev Byte := BitVec 8

/-- A command word, an operand word, a baud rate or a result, 32 bits (R11). -/
abbrev Word := BitVec 32

/-- A link id, the 4-bit `LNK` field (R11, 30_encoding.md R101). -/
abbrev LinkId := BitVec 4

/-- A pin id, 8 bits (R11). -/
abbrev PinId := BitVec 8

/-- A count of tuned units or of bytes, 16 bits (R11). -/
abbrev Count := BitVec 16

end Sys2Proof
end

