-- ==== Sys2Proof/Syntax.lean ====
section
/-! DEFINITION. The ten commands of SWUART-CMD v1 (30_encoding.md R106), one constructor per row
of spec/opcode_table.json, and the record that carries one (R100). -/

namespace Sys2Proof

/-- A command with its operands assembled (30_encoding.md R101, R111). -/
inductive Instr where
  /-- CREATE: configure link `l` with receive pin `rx` and transmit pin `tx` (R154). -/
  | create (l : LinkId) (rx tx : PinId)
  /-- BEGIN: set link `l`'s timing from a baud rate (R155). -/
  | begin (l : LinkId) (baud : Word)
  /-- WRITE: transmit one byte on link `l` (R235). -/
  | write (l : LinkId) (dat : Byte)
  /-- WRITEN: transmit `bytes`, `CNT` of them, oldest first, on link `l` (R236). -/
  | writen (l : LinkId) (bytes : List Byte)
  /-- READ: take the oldest byte of link `l`'s FIFO (R201). -/
  | read (l : LinkId)
  /-- AVAIL: the number of bytes in link `l`'s FIFO (R202). -/
  | avail (l : LinkId)
  /-- FLUSH: discard link `l`'s FIFO (R203). -/
  | flush (l : LinkId)
  /-- ACTIVATE: make link `l` the active link (R171). -/
  | activate (l : LinkId)
  /-- OVFL: read link `l`'s overflow flag (R173). -/
  | ovfl (l : LinkId)
  /-- DELAY: block the host for `cnt` tuned units (R137). -/
  | delay (cnt : Count)
deriving DecidableEq, Repr

/-- A command record `{word, ops}`: one command word and its operand words (R100). -/
structure CmdRecord where
  word : Word
  ops : List Word
deriving DecidableEq, Repr

end Sys2Proof
end

