-- ==== Sys2Proof/WellFormed.lean ====
section
/-! DEFINITION. The check that an instruction's operands fit its encoding. The field widths are in
the types of `Instr`; only the length of a WRITEN byte list is not. -/

namespace Sys2Proof

/-- The instruction can be encoded: a WRITEN list has at most 65535 bytes (30_encoding.md R101,
R116: `CNT` is 16 bits). -/
def Instr.wellFormed : Instr → Bool
  | .create _ _ _ => true
  | .begin _ _ => true
  | .write _ _ => true
  | .writen _ bytes => decide (bytes.length ≤ 65535)
  | .read _ => true
  | .avail _ => true
  | .flush _ => true
  | .activate _ => true
  | .ovfl _ => true
  | .delay _ => true

end Sys2Proof
end

