-- ==== Sys2Proof/Decode.lean ====
section
/-! DEFINITION. Decoding of a command record, total, each rejection by name (30_encoding.md R110);
and after it the encoder, written from the same formats (R102). -/

namespace Sys2Proof

/-- The ten assigned operation codes (R106). -/
inductive Opcode where
  | create | begin | write | writen | read | avail | flush | activate | ovfl | delay
deriving DecidableEq, Repr

/-- The six formats (R102). -/
inductive Format where
  | P | W | B | N | L | T
deriving DecidableEq, Repr

/-- Why a record is ILLEGAL (R110), in the order the checks are made. -/
inductive DecodeError where
  /-- Opcode 0x0 or 0xB to 0xF (R107). -/
  | reservedOpcode
  /-- A 1 in a bit the format marks 0 (R108). -/
  | reservedBits
  /-- The wrong number of operand words (R105). -/
  | operandCount
deriving DecidableEq, Repr

/-- The opcode map, `OPC` to operation (R106); none for the reserved codes (R107). -/
def Opcode.ofBits (opc : BitVec 4) : Option Opcode :=
  match opc.toNat with
  | 0x1 => some .create
  | 0x2 => some .begin
  | 0x3 => some .write
  | 0x4 => some .writen
  | 0x5 => some .read
  | 0x6 => some .avail
  | 0x7 => some .flush
  | 0x8 => some .activate
  | 0x9 => some .ovfl
  | 0xA => some .delay
  | _ => none

/-- The opcode map, operation to `OPC` (R106). -/
def Opcode.code : Opcode → BitVec 4
  | .create => 0x1
  | .begin => 0x2
  | .write => 0x3
  | .writen => 0x4
  | .read => 0x5
  | .avail => 0x6
  | .flush => 0x7
  | .activate => 0x8
  | .ovfl => 0x9
  | .delay => 0xA

/-- `FORMAT(opc)` (R106). -/
def Opcode.format : Opcode → Format
  | .create => .P
  | .begin => .W
  | .write => .B
  | .writen => .N
  | .read => .L
  | .avail => .L
  | .flush => .L
  | .activate => .L
  | .ovfl => .L
  | .delay => .T

/-- `RESMASK(fmt)` (R110). -/
def Format.resMask : Format → Word
  | .P => 0x000000FF
  | .W => 0x00FFFFFF
  | .B => 0x00FFFF00
  | .N => 0x00FF0000
  | .L => 0x00FFFFFF
  | .T => 0x0FFF0000

/-- `NOPS(opc, CNT)`: the operand words a command carries (R105). -/
def Opcode.nops (o : Opcode) (cnt : Count) : Nat :=
  match o with
  | .begin => 1
  | .writen => (cnt.toNat + 3) / 4
  | _ => 0

/-! ### The fields of the command word (R101) -/

def opcField (w : Word) : BitVec 4 := w.extractLsb' 28 4
def lnkField (w : Word) : LinkId := w.extractLsb' 24 4
def rxpField (w : Word) : PinId := w.extractLsb' 16 8
def txpField (w : Word) : PinId := w.extractLsb' 8 8
def datField (w : Word) : Byte := w.extractLsb' 0 8
def cntField (w : Word) : Count := w.extractLsb' 0 16

/-- The four bytes of a payload word, least significant first (R104, 20_memory.md R83). -/
def wordBytes (w : Word) : List Byte :=
  [w.extractLsb' 0 8, w.extractLsb' 8 8, w.extractLsb' 16 8, w.extractLsb' 24 8]

/-- The WRITEN payload: byte `j` is byte `j mod 4` of operand word `j div 4`; the slack of the last
word is ignored (R104). -/
def payload (ops : List Word) (cnt : Nat) : List Byte :=
  (ops.flatMap wordBytes).take cnt

/-- The instruction of an operation whose record passed the checks, each field taken as an
unsigned integer (R110, R111). -/
def Opcode.instr (o : Opcode) (r : CmdRecord) : Instr :=
  match o with
  | .create => .create (lnkField r.word) (rxpField r.word) (txpField r.word)
  | .begin => .begin (lnkField r.word) (r.ops.headD 0)
  | .write => .write (lnkField r.word) (datField r.word)
  | .writen => .writen (lnkField r.word) (payload r.ops (cntField r.word).toNat)
  | .read => .read (lnkField r.word)
  | .avail => .avail (lnkField r.word)
  | .flush => .flush (lnkField r.word)
  | .activate => .activate (lnkField r.word)
  | .ovfl => .ovfl (lnkField r.word)
  | .delay => .delay (cntField r.word)

/-- `Decode({word, ops})` (R110). The link checks are made at execution, not here (R111). -/
def decode (r : CmdRecord) : Except DecodeError Instr :=
  match Opcode.ofBits (opcField r.word) with
  | none => .error .reservedOpcode
  | some o =>
    if r.word &&& o.format.resMask ≠ 0 then .error .reservedBits
    else if r.ops.length ≠ o.nops (cntField r.word) then .error .operandCount
    else .ok (o.instr r)

/-! ### The encoder -/

/-- Pack bytes four to a word, the first in the least significant byte; the slack is 0 (R104). -/
def packBytes : List Byte → List Word
  | [] => []
  | [a] => [0#8 ++ 0#8 ++ 0#8 ++ a]
  | [a, b] => [0#8 ++ 0#8 ++ b ++ a]
  | [a, b, c] => [0#8 ++ c ++ b ++ a]
  | a :: b :: c :: d :: rest => (d ++ c ++ b ++ a) :: packBytes rest

/-- A command word of format L or W: `OOOO LLLL` and 24 zero bits (R102). -/
def linkWord (o : Opcode) (l : LinkId) : Word := o.code ++ l ++ 0#24

/-- The record of an instruction, from the formats of R102 (as written out in R115). -/
def encode : Instr → CmdRecord
  | .create l rx tx => ⟨Opcode.create.code ++ l ++ rx ++ tx ++ 0#8, []⟩
  | .begin l baud => ⟨linkWord .begin l, [baud]⟩
  | .write l dat => ⟨Opcode.write.code ++ l ++ 0#16 ++ dat, []⟩
  | .writen l bytes =>
    ⟨Opcode.writen.code ++ l ++ 0#8 ++ BitVec.ofNat 16 bytes.length, packBytes bytes⟩
  | .read l => ⟨linkWord .read l, []⟩
  | .avail l => ⟨linkWord .avail l, []⟩
  | .flush l => ⟨linkWord .flush l, []⟩
  | .activate l => ⟨linkWord .activate l, []⟩
  | .ovfl l => ⟨linkWord .ovfl l, []⟩
  | .delay cnt => ⟨Opcode.delay.code ++ 0#12 ++ cnt, []⟩

/-- The instruction length in words: the command word and its operand words (R114). -/
def CmdRecord.length (r : CmdRecord) : Nat := 1 + r.ops.length

/-! ### Words numbered as spec/opcode_table.json numbers them -/

/-- The record whose bits are the low `nbits` of `w`, bit 0 the least significant bit of the
command word, the operand words above it, as many as the command word asks for (R105); every bit
above `nbits` is 0. -/
def recordOfBits (nbits w : Nat) : CmdRecord :=
  let v := w % 2 ^ nbits
  let word : Word := BitVec.ofNat 32 v
  let n := match Opcode.ofBits (opcField word) with
    | some o => o.nops (cntField word)
    | none => 0
  ⟨word, (List.range n).map fun i => BitVec.ofNat 32 (v >>> (32 * (i + 1)))⟩

/-- What the decoder reads from an instruction whose bits are `w`; none where it refuses. -/
def decodeTableWord (nbits w : Nat) : Option Instr :=
  match decode (recordOfBits nbits w) with
  | .ok i => some i
  | .error _ => none

end Sys2Proof
end

