-- ==== Sys2Proof/Config.lean ====
section
/-! DEFINITION. The implementation parameters of 00_scope.md R10, as plain data, their
well-formedness (R12), the spec's own test configuration T1, and the free values.

Every parameter is open in the spec, so nothing here assumes a value: a state carries its
configuration (notes/assumptions/1.md) and a claim about every state is a claim about every
configuration. -/

namespace Sys2Proof

/-- One entry of `PINMAP`: pin `pin` is bit `bit` of port `port` (41_pins_links.md R150). -/
structure PinEntry where
  pin : PinId
  port : Nat
  bit : Fin 8
deriving DecidableEq, Repr

/-- One timing row `{baud, rxCenter, rxIntra, rxStop, txDelay}` (40_timing_delay.md R130). -/
structure TimingRow where
  baud : Word
  rxCenter : Count
  rxIntra : Count
  rxStop : Count
  txDelay : Count
deriving DecidableEq, Repr

/-- One segment of the plain-data form of `DELAY_TICKS`: from count `start` on, the delay is
`base` ticks plus `slope` ticks for each further unit (notes/assumptions/2.md). -/
structure DelaySeg where
  start : Nat
  base : Nat
  slope : Nat
deriving DecidableEq, Repr

/-- The parameters of R10, in its order. -/
structure Config where
  nLinks : Nat
  rxBufSize : Nat
  nPorts : Nat
  pinMap : List PinEntry
  /-- The pins for which `PIN_HAS_PCINT` is true. -/
  pcintPins : List PinId
  clockVariant : Fin 2
  timing0 : List TimingRow
  timing1 : List TimingRow
  /-- `DELAY_TICKS`, read by `Config.delayTicks`. -/
  delaySegs : List DelaySeg
  latEntry : Nat
  ovhRxStart : Nat
  ovhRxBit : Nat
  ovhRxStop : Nat
  ovhTxStart : Nat
  ovhTxBit : Nat
  noopWriteResult : Fin 2
deriving DecidableEq, Repr

/-- All four constants of a row are non-zero (R12). -/
abbrev TimingRow.Supported (r : TimingRow) : Prop :=
  r.rxCenter ≠ 0 ∧ r.rxIntra ≠ 0 ∧ r.rxStop ≠ 0 ∧ r.txDelay ≠ 0

/-- A timing table is well formed: no two rows of one baud, no zero constant (R12). -/
abbrev TableWF (rows : List TimingRow) : Prop :=
  (rows.map (·.baud)).Nodup ∧ ∀ r ∈ rows, r.Supported

/-- Segment `a` followed by segment `b` is monotone: `b` starts later, within the 16-bit counts,
and no lower than where `a` ends. -/
abbrev DelaySeg.Before (a b : DelaySeg) : Prop :=
  a.start < b.start ∧ b.start < 65536 ∧ a.base + a.slope * (b.start - 1 - a.start) ≤ b.base

/-- Each segment of a list is before the next. -/
def segsMonotone : List DelaySeg → Bool
  | a :: b :: rest => decide (a.Before b) && segsMonotone (b :: rest)
  | _ => true

/-- The segments cover the counts from 0 and are monotone (R12: `DELAY_TICKS` monotone). -/
abbrev DelayWF (segs : List DelaySeg) : Prop :=
  segs.head?.map (·.start) = some 0 ∧ segsMonotone segs = true

/-- A well-formed configuration (R12). `PINMAP` is a partial map (one entry a pin), its ports
exist, and it is injective (no two pins share a port bit). -/
abbrev Config.WF (c : Config) : Prop :=
  (1 ≤ c.nLinks ∧ c.nLinks ≤ 16) ∧
  2 ≤ c.rxBufSize ∧
  (1 ≤ c.nPorts ∧ c.nPorts ≤ 256) ∧
  (c.pinMap.map (·.pin)).Nodup ∧
  (c.pinMap.map (fun e => (e.port, e.bit))).Nodup ∧
  (∀ e ∈ c.pinMap, e.port < c.nPorts) ∧
  TableWF c.timing0 ∧ TableWF c.timing1 ∧
  DelayWF c.delaySegs

/-- `ENV(t, k)` where the state's `env` list gives no level: a free input of the step, a draw
under no law (10_state.md R43). Free value, notes/assumptions/4.md. -/
opaque Config.freeEnv : Nat → Nat → Byte

/-- The result word of AVAIL for a count that does not fit 32 bits, where the spec states no
result (43_receive.md R202 against 00_scope.md R11). Free value, notes/assumptions/11.md. -/
opaque Config.freeCount : Nat → Word

/-- Configuration T1, the spec's own test configuration and not the hardware's
(95_test_vectors.md section 0). DESIGN CHOICE: `State.reset` carries it, notes/assumptions/1.md. -/
def Config.t1 : Config where
  nLinks := 2
  rxBufSize := 4
  nPorts := 1
  pinMap := [⟨0, 0, 0⟩, ⟨1, 0, 1⟩, ⟨2, 0, 2⟩, ⟨3, 0, 3⟩, ⟨4, 0, 4⟩, ⟨5, 0, 5⟩, ⟨6, 0, 6⟩, ⟨7, 0, 7⟩]
  pcintPins := [0, 1, 2, 3, 4, 5, 6, 7]
  clockVariant := 0
  timing0 := [⟨9600, 5, 10, 10, 10⟩, ⟨4800, 10, 20, 20, 20⟩]
  timing1 := [⟨9600, 2, 5, 5, 5⟩]
  delaySegs := [⟨0, 0, 1⟩]
  latEntry := 0
  ovhRxStart := 0
  ovhRxBit := 0
  ovhRxStop := 0
  ovhTxStart := 0
  ovhTxBit := 0
  noopWriteResult := 0

end Sys2Proof
end

