-- ==== Sys2Proof/Machine/State.lean ====
section
/-! DEFINITION. The architectural state of 10_state.md and 20_memory.md as plain data, the reasons
a step can stop, and the state after reset (70_reset_and_hazards.md R301).

Names are the spec's, in Lean's spelling: `LINK[L].RXC` is `(links[L]).rxc`, `PORT_OUT[k]` is
`(ports[k]).out`, `TX_SIE` is `txSie`. INVENTORY.md lists every one with its rule. -/

namespace Sys2Proof.Machine

/-- The register set `LINK[L]` (R31). -/
structure LinkRegs where
  exists_ : Bool
  init : Bool
  rxpin : PinId
  txpin : PinId
  rxc : Count
  rxi : Count
  rxs : Count
  txd : Count
  ovf : Bool
deriving DecidableEq, Repr

/-- The five registers of one port (R42). -/
structure PortRegs where
  out : Byte
  dir : Byte
  inp : Byte
  prev : Byte
  pcmsk : Byte
deriving DecidableEq, Repr

/-- `RX_ST` (R44). -/
inductive RxSt where
  | idle | entry | center | bit | stop
deriving DecidableEq, Repr

/-- `TX_ST` (R48). -/
inductive TxSt where
  | idle | pre | start | bit | stop
deriving DecidableEq, Repr

/-- `HOST_ST` (R49). -/
inductive HostSt where
  | free | delay | write
deriving DecidableEq, Repr

/-- The status of a response (30_encoding.md R112). -/
inductive Status where
  | ok | illegal | noLink | linkExists | badPin
deriving DecidableEq, Repr

/-- A response: a status and a 32-bit result (R112). -/
structure Response where
  status : Status
  result : Word
deriving DecidableEq, Repr

/-- A command the host will offer, from tick `notBefore` on, until it is accepted (R63). The
model's own, notes/assumptions/3.md. -/
structure HostCmd where
  notBefore : Nat
  record : CmdRecord
deriving DecidableEq, Repr

/-- The receive RAM: the slots that differ from the fill byte, by rising index (20_memory.md
R80). -/
abbrev Memory := List Host.Cell

/-- The machine's state. -/
structure State where
  /-- The configuration, fixed for a run (00_scope.md R10; R300 leaves it unchanged). -/
  cfg : Config
  /-- The tick counter, model time (R51). -/
  t : Nat
  /-- `LINK[L]`, indexed by the 4-bit link id; those at `N_LINKS` and above do not exist (R31). -/
  links : Vector LinkRegs 16
  /-- `ACTIVE`, none for `NONE` (R37). -/
  active : Option LinkId
  /-- `IE` (R38). -/
  ie : Bool
  /-- `PEND` (R39). -/
  pend : Bool
  /-- `HEAD` (R40). -/
  head : Nat
  /-- `TAIL` (R40). -/
  tail : Nat
  /-- `RXBUF` (R41, 20_memory.md R80). -/
  rxbuf : Memory
  /-- The port registers, by port (R42). -/
  ports : List PortRegs
  /-- `RX_ST` (R44). -/
  rxSt : RxSt
  /-- `RX_I` (R44). -/
  rxI : Fin 8
  /-- `RX_D` (R44). -/
  rxD : Byte
  /-- `RX_L` (R44). -/
  rxL : LinkId
  /-- `DLY` (R46). -/
  dly : Nat
  /-- `HDLY` (R47). -/
  hdly : Nat
  /-- `TX_ST` (R48). -/
  txSt : TxSt
  /-- `TX_I` (R48). -/
  txI : Fin 8
  /-- `TX_D` (R48). -/
  txD : Byte
  /-- `TX_L` (R48). -/
  txL : LinkId
  /-- `TX_SIE` (R48). -/
  txSie : Bool
  /-- `HOST_ST` (R49). -/
  hostSt : HostSt
  /-- `WN_L` (R49). -/
  wnL : LinkId
  /-- `WN_Q`, oldest first (R49). -/
  wnQ : List Byte
  /-- `WN_SUM` (R49). -/
  wnSum : Word
  /-- The response delivered in the tick just run, none if none was (R50). The model's own,
  notes/assumptions/5.md. -/
  resp : Option Response
  /-- The commands the host will offer, oldest first. The model's own, notes/assumptions/3.md. -/
  cmds : List HostCmd
  /-- What the line environment presents in the coming ticks, one row of port bytes a tick; beyond
  it `Config.freeEnv`. The model's own, notes/assumptions/4.md. -/
  env : List (List Byte)
deriving DecidableEq, Repr

/-- Why the model stops. The core has no run-time fault (60_exceptions.md R264): each of these
stands for an access or a step that does not exist, and only states outside the invariant of
Safety.lean reach one. Each is safe: the model stops where the spec gives nothing to do
(notes/assumptions/8.md). -/
inductive Fault where
  /-- An access to a slot of the receive RAM at or above `RX_BUF_SIZE` (20_memory.md R80: no
  out-of-range access exists). Raised by READ and the receive commit. Safe. -/
  | rxbufIndex (i : Nat)
  /-- An access to a pin that `PINMAP` does not map (41_pins_links.md R150: the pin does not
  exist). Raised by both engines' pin accesses and BEGIN's arming. Safe. -/
  | unmappedPin (p : PinId)
  /-- An access to a port register group the state does not hold (20_memory.md R81). Raised by the
  pin multiplexer. Safe. -/
  | noSuchPort (k : Nat)
  /-- A delay counter is decremented from 0 (40_timing_delay.md R134: a wait of 0 ticks is never
  counted). Raised by the engine advance and the host's DELAY step. Safe. -/
  | counterUnderflow
  /-- A frame is due and `WN_Q` is empty (44_transmit.md R236: its first byte does not exist).
  Raised by the host step. Safe. -/
  | writeQueueEmpty
deriving DecidableEq, Repr

/-- What the model gives no run. -/
inductive Refusal where
  /-- The instruction has no meaning yet; raised by `exec`'s arms only. Safe. -/
  | notModelled (mnemonic : String)
  /-- The configuration is ill formed and has no runs (00_scope.md R12, 60_exceptions.md R264).
  Raised by `step`. Safe. -/
  | illFormedConfig
deriving DecidableEq, Repr

/-- A link register set after reset (R31). `RXPIN` and `TXPIN` are unspecified there: 0x00 is the
model's, DESIGN CHOICE, notes/assumptions/6.md. -/
def LinkRegs.reset : LinkRegs where
  exists_ := false
  init := false
  rxpin := 0
  txpin := 0
  rxc := 0
  rxi := 0
  rxs := 0
  txd := 0
  ovf := false

/-- A port's registers after reset (R42). `PORT_IN` and `PORT_PREV` are unspecified there: 0x00 is
the model's, DESIGN CHOICE, notes/assumptions/6.md. -/
def PortRegs.reset : PortRegs where
  out := 0
  dir := 0
  inp := 0
  prev := 0
  pcmsk := 0

/-- The state after reset under configuration `c` (R300, R301), with no input given. The values of
`RX_D`, `RX_L`, `TX_D`, `TX_L`, `TX_SIE` and `WN_L` are unspecified: zero is the model's, DESIGN
CHOICE, notes/assumptions/6.md; so are the contents of `RXBUF`, notes/assumptions/7.md. -/
def State.resetTo (c : Config) : State where
  cfg := c
  t := 0
  links := Vector.replicate 16 LinkRegs.reset
  active := none
  ie := true
  pend := false
  head := 0
  tail := 0
  rxbuf := []
  ports := List.replicate c.nPorts PortRegs.reset
  rxSt := .idle
  rxI := 0
  rxD := 0
  rxL := 0
  dly := 0
  hdly := 0
  txSt := .idle
  txI := 0
  txD := 0
  txL := 0
  txSie := false
  hostSt := .free
  wnL := 0
  wnQ := []
  wnSum := 0
  resp := none
  cmds := []
  env := []

/-- The machine right after reset, under configuration T1 (DESIGN CHOICE, notes/assumptions/1.md). -/
def State.reset : State := State.resetTo Config.t1

end Sys2Proof.Machine
end

