-- ==== Sys2Proof/Machine/Ops.lean ====
section
/-! DEFINITION. The named operations over registers, the receive RAM and the delay counter, the
response, and taking the pin-change interrupt and returning from it.

Every operation that can meet an access that does not exist answers in `Except Fault`. -/

namespace Sys2Proof.Machine

/-! ### Bits of a port register (41_pins_links.md R150 to R152) -/

/-- `MASK(p) = 1 << b` (R150). -/
def maskOf (b : Fin 8) : Byte := 1#8 <<< b.val

/-- Bit `b` of a port register: `(v AND MASK) != 0` (R151). -/
def bitAt (v : Byte) (b : Fin 8) : Bool := v &&& maskOf b != 0

/-- A port register with bit `b` set to `x`, the other seven unchanged (R152). -/
def withBit (v : Byte) (b : Fin 8) (x : Bool) : Byte :=
  (v &&& ~~~ maskOf b) ||| (if x then maskOf b else 0)

/-- A level or a flag as a result word, `zext_32` (00_scope.md R13). -/
def boolWord (b : Bool) : Word := if b then 1 else 0

/-! ### The receive RAM (20_memory.md R80) -/

/-- What a slot that no entry lists reads as. DESIGN CHOICE, notes/assumptions/7.md. -/
def Memory.fill : Byte := 0

/-- The byte in slot `a`. -/
def Memory.read : Memory → Nat → Byte
  | [], _ => Memory.fill
  | (b, v) :: rest, a => if b = a then v else Memory.read rest a

/-- Slot `a` set to `v`, in canonical form. -/
def Memory.write : Memory → Nat → Byte → Memory
  | [], a, v => if v = Memory.fill then [] else [(a, v)]
  | (b, w) :: rest, a, v =>
    if a < b then
      if v = Memory.fill then (b, w) :: rest else (a, v) :: (b, w) :: rest
    else if a = b then
      if v = Memory.fill then rest else (a, v) :: rest
    else (b, w) :: Memory.write rest a v

/-- Every index of the list is above `lo`, the indices rise, and no entry holds the fill byte. -/
def Memory.wfAbove : Nat → Memory → Bool
  | _, [] => true
  | lo, (b, v) :: rest => decide (lo ≤ b) && decide (v ≠ Memory.fill) && Memory.wfAbove (b + 1) rest

/-- The canonical form: indices strictly rising, no entry equal to the fill byte. -/
def Memory.wf (m : Memory) : Bool := Memory.wfAbove 0 m

/-- `MemRead(i, 1)`, for `0 <= i < RX_BUF_SIZE` (R80). -/
def State.memRead (s : State) (i : Nat) : Except Fault Byte :=
  if i < s.cfg.rxBufSize then .ok (s.rxbuf.read i) else .error (.rxbufIndex i)

/-- `MemWrite(i, 1, v)`, for `0 <= i < RX_BUF_SIZE` (R80). -/
def State.memWrite (s : State) (i : Nat) (v : Byte) : Except Fault State :=
  if i < s.cfg.rxBufSize then .ok { s with rxbuf := s.rxbuf.write i v }
  else .error (.rxbufIndex i)

/-- `(i + 1) mod RX_BUF_SIZE`, the slot after `i` (43_receive.md R195, R201). -/
def State.nextSlot (s : State) (i : Nat) : Nat := (i + 1) % s.cfg.rxBufSize

/-! ### The link register file (10_state.md R31) -/

/-- `LINK[l]`. -/
def State.link (s : State) (l : LinkId) : LinkRegs := s.links[l.toNat]'(l.isLt)

/-- `LINK[l] <- r`. -/
def State.setLink (s : State) (l : LinkId) (r : LinkRegs) : State :=
  { s with links := s.links.set l.toNat r (l.isLt) }

/-! ### Responses (60_exceptions.md R260) -/

/-- `respond(status, result)`: the host receives the response in this tick and `HOST_ST` is `FREE`
afterwards (R260). -/
def State.respond (s : State) (status : Status) (result : Word) : State :=
  { s with resp := some ⟨status, result⟩, hostSt := .free }

/-- `raise Status(code)`: `respond(code, 0)` with no other effect (00_scope.md R15). -/
def State.raise (s : State) (status : Status) : State := s.respond status 0

/-- The 4-bit status code (30_encoding.md R112). -/
def Status.code : Status → BitVec 4
  | .ok => 0
  | .illegal => 1
  | .noLink => 2
  | .linkExists => 3
  | .badPin => 4

/-- The outcome of an operation that answers a state or a fault. -/
def finish : Except Fault State → Host.Outcome State Fault Refusal
  | .ok s => .next s
  | .error f => .fault f

/-! ### The precision delay timer's primitive (40_timing_delay.md R134) -/

/-- `Wait(S, k)` of the receive engine: enter state `S`; its expiry action `expire` happens in this
tick when `k = 0`, else when `DLY` has counted `k` ticks. -/
def State.rxWait (st : RxSt) (k : Nat) (expire : State → Except Fault State) (s : State) :
    Except Fault State :=
  if k = 0 then expire { s with rxSt := st } else .ok { s with rxSt := st, dly := k }

/-- `Wait(S, k)` of the transmit engine. -/
def State.txWait (st : TxSt) (k : Nat) (expire : State → Except Fault State) (s : State) :
    Except Fault State :=
  if k = 0 then expire { s with txSt := st } else .ok { s with txSt := st, dly := k }

/-! ### The pin-change interrupt: entry and return (60_exceptions.md R266, R267) -/

/-- Dispatch (R266): `PEND` is cleared; with no active link nothing else happens; otherwise `IE` is
cleared, `RX_L` takes the active link, and the handler (the line check) runs after the entry
latency. Nothing of the host is saved or changed. -/
def State.takeInterrupt (handler : State → Except Fault State) (s : State) : Except Fault State :=
  match s.active with
  | none => .ok { s with pend := false }
  | some l => State.rxWait .entry s.cfg.latEntry handler { s with pend := false, ie := false, rxL := l }

/-- Return from interrupt (R267): `RX_ST <- IDLE`, `IE <- 1`. -/
def State.returnFromInterrupt (s : State) : State := { s with rxSt := .idle, ie := true }

/-! ### Reset (70_reset_and_hazards.md R300) -/

/-- The reset event: every element R301 gives a value takes it, the configuration stays, and the
elements R301 leaves unspecified keep what they held (any value is allowed there). The inputs
still to come (`cmds`, `env`) are not the core's and stay. -/
def State.applyReset (s : State) : State :=
  { s with
    t := 0
    links := s.links.map fun r => { LinkRegs.reset with rxpin := r.rxpin, txpin := r.txpin }
    active := none
    ie := true
    pend := false
    head := 0
    tail := 0
    ports := s.ports.map fun p => { p with out := 0, dir := 0, pcmsk := 0 }
    rxSt := .idle
    rxI := 0
    dly := 0
    hdly := 0
    txSt := .idle
    txI := 0
    hostSt := .free
    wnQ := []
    wnSum := 0
    resp := none }

end Sys2Proof.Machine
end

