-- ==== Sys2Proof/Machine/Timing.lean ====
section
/-! DEFINITION. The timing ROM and its lookup, and the conversion from tuned units to ticks
(40_timing_delay.md R130 to R133). -/

namespace Sys2Proof.Machine

/-- `TIMING_TABLE[CLOCK_VARIANT]` (R130). -/
def timingRom (c : Config) : List TimingRow := if c.clockVariant = 0 then c.timing0 else c.timing1

/-- What `Lookup` returns (R131). -/
structure Timing where
  rxCenter : Count
  rxIntra : Count
  rxStop : Count
  txDelay : Count
  matched : Bool
deriving DecidableEq, Repr

/-- The exact-match search of R131: the constants of the row whose baud is the one given, or all
zero. -/
def lookupIn : List TimingRow → Word → Timing
  | [], _ => ⟨0, 0, 0, 0, false⟩
  | row :: rest, baud =>
    if row.baud = baud then ⟨row.rxCenter, row.rxIntra, row.rxStop, row.txDelay, true⟩
    else lookupIn rest baud

/-- `Lookup(baud)` (R131). -/
def lookup (c : Config) (baud : Word) : Timing := lookupIn (timingRom c) baud

/-- The value of a segment list at count `n`: that of the last segment that starts at or before
`n`. -/
def segsAt : List DelaySeg → Nat → Nat
  | [], _ => 0
  | [a], n => a.base + a.slope * (n - a.start)
  | a :: b :: rest, n =>
    if n < b.start then a.base + a.slope * (n - a.start) else segsAt (b :: rest) n

/-- `D(n) = DELAY_TICKS(n)` (R133). -/
def delayTicks (c : Config) (n : Count) : Nat := segsAt c.delaySegs n.toNat

/-- The transmit bit period `P = D(LINK[L].TXD) + OVH_TX_BIT` (44_transmit.md R230). -/
def State.txPeriod (s : State) (l : LinkId) : Nat :=
  delayTicks s.cfg (s.link l).txd + s.cfg.ovhTxBit

/-- The centering wait, `OVH_RX_START + D(LINK[L].RXC)` (43_receive.md R191). A zero `RXC` waits
`D(0)` too, where R204 speaks of the overhead only: DESIGN CHOICE, notes/assumptions/16.md. -/
def State.rxCenterTicks (s : State) (l : LinkId) : Nat :=
  s.cfg.ovhRxStart + delayTicks s.cfg (s.link l).rxc

/-- The intrabit wait, `D(LINK[L].RXI) + OVH_RX_BIT` (R192, R193). A zero `RXI` as for
`rxCenterTicks`: DESIGN CHOICE, notes/assumptions/16.md. -/
def State.rxBitTicks (s : State) (l : LinkId) : Nat :=
  delayTicks s.cfg (s.link l).rxi + s.cfg.ovhRxBit

/-- The stop-bit wait, `D(LINK[L].RXS) + OVH_RX_STOP` (R193). A zero `RXS` as for `rxCenterTicks`:
DESIGN CHOICE, notes/assumptions/16.md. -/
def State.rxStopTicks (s : State) (l : LinkId) : Nat :=
  delayTicks s.cfg (s.link l).rxs + s.cfg.ovhRxStop

end Sys2Proof.Machine
end

