-- ==== Sys2Proof/Machine/Pins.lean ====
section
/-! DEFINITION. The pin multiplexer (41_pins_links.md R150 to R153), the level the core drives
(10_state.md R65), and the line update of phase 1 (R61). -/

namespace Sys2Proof.Machine

/-- The `PINMAP` entry of a pin; none where the pin does not exist (R150). -/
def pinEntry (c : Config) (p : PinId) : Option PinEntry := c.pinMap.find? fun e => e.pin == p

/-- `PIN_HAS_PCINT(p)` (00_scope.md R10). -/
def hasPcint (c : Config) (p : PinId) : Bool := c.pcintPins.contains p

/-- `PinRead(p)`: the level of pin `p` computed in phase 1 of the current tick (R151). -/
def State.pinRead (s : State) (p : PinId) : Except Fault Bool :=
  match pinEntry s.cfg p with
  | none => .error (.unmappedPin p)
  | some e =>
    match s.ports[e.port]? with
    | none => .error (.noSuchPort e.port)
    | some r => .ok (bitAt r.inp e.bit)

/-- Change the registers of the port that holds pin `p`, told the pin's bit. -/
def State.onPort (s : State) (p : PinId) (f : Fin 8 → PortRegs → PortRegs) : Except Fault State :=
  match pinEntry s.cfg p with
  | none => .error (.unmappedPin p)
  | some e =>
    if e.port < s.ports.length then .ok { s with ports := s.ports.modify e.port (f e.bit) }
    else .error (.noSuchPort e.port)

/-- `PORT_OUT[k][b] <- v`. -/
def PortRegs.setOut (v : Bool) (b : Fin 8) (r : PortRegs) : PortRegs :=
  { r with out := withBit r.out b v }

/-- `PORT_DIR[k][b] <- v`. -/
def PortRegs.setDir (v : Bool) (b : Fin 8) (r : PortRegs) : PortRegs :=
  { r with dir := withBit r.dir b v }

/-- `PCMSK[k][b] <- 1`. -/
def PortRegs.arm (b : Fin 8) (r : PortRegs) : PortRegs :=
  { r with pcmsk := withBit r.pcmsk b true }

/-- `PinWrite(p, v)` (R152). -/
def State.pinWrite (s : State) (p : PinId) (v : Bool) : Except Fault State :=
  s.onPort p (PortRegs.setOut v)

/-- CREATE's set-up of a transmit pin: an output that idles high (R154). -/
def State.setTxPin (s : State) (p : PinId) : Except Fault State :=
  s.onPort p fun b r => (r.setDir true b).setOut true b

/-- CREATE's set-up of a receive pin: an input (R154). -/
def State.setRxPin (s : State) (p : PinId) : Except Fault State :=
  s.onPort p (PortRegs.setDir false)

/-- BEGIN's arming of a receive pin, `PCMSK[k][b] <- 1` (R155, R156). -/
def State.armPin (s : State) (p : PinId) : Except Fault State :=
  s.onPort p PortRegs.arm

/-- The level the core drives on pin `p` as the state stands at the end of a tick; none where it
does not drive the pin (10_state.md R65). -/
def State.drivenLevel (s : State) (p : PinId) : Option Bool :=
  match pinEntry s.cfg p with
  | none => none
  | some e =>
    match s.ports[e.port]? with
    | none => none
    | some r => if bitAt r.dir e.bit then some (bitAt r.out e.bit) else none

/-! ### Phase 1 (10_state.md R61) -/

/-- `ENV(t, k)`: the row given for the tick, where it has a byte for port `k`; else the free
input (10_state.md R43, notes/assumptions/4.md). -/
def envLevel (t : Nat) (row : List Byte) (k : Nat) : Byte :=
  match row[k]? with
  | some v => v
  | none => Config.freeEnv t k

/-- The port input value of R153: driven bits read back the driven level, the others the
environment's. -/
def PortRegs.sampled (r : PortRegs) (env : Byte) : Byte := (r.dir &&& r.out) ||| (~~~ r.dir &&& env)

/-- `PORT_PREV <- PORT_IN`, then `PORT_IN` is recomputed (R61, R153). -/
def PortRegs.sample (r : PortRegs) (env : Byte) : PortRegs :=
  { r with prev := r.inp, inp := r.sampled env }

/-- Every port sampled, with the levels `lev` gives for its index, from index `k` on. -/
def samplePorts (lev : Nat → Byte) : Nat → List PortRegs → List PortRegs
  | _, [] => []
  | k, r :: rest => r.sample (lev k) :: samplePorts lev (k + 1) rest

end Sys2Proof.Machine
end

