-- ==== Sys2Proof/Machine/Flags.lean ====
section
/-! DEFINITION. The core's flags and nothing else (10_state.md R53): `LINK[L].OVF`, `PEND`, `IE`. -/

namespace Sys2Proof.Machine

/-- `LINK[l].OVF <- v` (10_state.md R36; set by R195, cleared by R170). -/
def State.setOvf (s : State) (l : LinkId) (v : Bool) : State :=
  s.setLink l { s.link l with ovf := v }

/-- A level change on an armed bit: `((PORT_IN XOR PORT_PREV) AND PCMSK) != 0` (60_exceptions.md
R265). -/
def PortRegs.changed (r : PortRegs) : Bool := (r.inp ^^^ r.prev) &&& r.pcmsk != 0

/-- Pin-change detection, from tick 1 on: any changed port sets `PEND` (R265). -/
def State.detectEdges (s : State) : State :=
  { s with pend := s.pend || (decide (0 < s.t) && s.ports.any PortRegs.changed) }

/-- The transmit engine's save and mask: `TX_SIE <- IE; IE <- 0` (44_transmit.md R231). -/
def State.maskInterrupts (s : State) : State := { s with txSie := s.ie, ie := false }

/-- The transmit engine's restore: `IE <- TX_SIE` (R234). -/
def State.restoreInterrupts (s : State) : State := { s with ie := s.txSie }

end Sys2Proof.Machine
end

