-- ==== Sys2Proof/Machine/Operands.lean ====
section
/-! DEFINITION. The checks a command makes on its operands before its first write
(60_exceptions.md R260, R261), and the result words of operand-shaped values. -/

namespace Sys2Proof.Machine

/-- `L < N_LINKS` (R261). -/
def State.linkInRange (s : State) (l : LinkId) : Bool := decide (l.toNat < s.cfg.nLinks)

/-- `L < N_LINKS` and `LINK[L].EXISTS = 1`: the check 2 of every link command but CREATE (R261). -/
def State.hasLink (s : State) (l : LinkId) : Bool := s.linkInRange l && (s.link l).exists_

/-- `PINMAP(p)` is defined (41_pins_links.md R150). -/
def pinMapped (c : Config) (p : PinId) : Bool := (pinEntry c p).isSome

/-- The pins CREATE accepts: both mapped, and different (R154, check 4 of R261). -/
def pinsUsable (c : Config) (rx tx : PinId) : Bool :=
  pinMapped c rx && pinMapped c tx && rx != tx

/-- A link command's frame: NO_LINK unless the link exists (R261, check 2). -/
def State.withLink (s : State) (l : LinkId) (k : State → Host.Outcome State Fault Refusal) :
    Host.Outcome State Fault Refusal :=
  if s.hasLink l then k s else .next (s.raise .noLink)

/-- READ's result with no byte to return (43_receive.md R201). -/
def noByte : Word := 0xFFFFFFFF

/-- A count as AVAIL's result word (R202); a count that does not fit has the free value of
notes/assumptions/11.md. -/
def countWord (n : Nat) : Word := if n < 2 ^ 32 then BitVec.ofNat 32 n else Config.freeCount n

/-- `NOOP_WRITE_RESULT` as a natural number (00_scope.md R10). -/
def noopResult (c : Config) : Nat := c.noopWriteResult.val

end Sys2Proof.Machine
end

