-- ==== Sys2Proof/Machine/Delay.lean ====
section
/-! DEFINITION. The DELAY command and its count in the host's context (40_timing_delay.md R137,
R138; 10_state.md R63). -/

namespace Sys2Proof.Machine

/-- DELAY (R137). -/
def execDelay (cnt : Count) (s : State) : Host.Outcome State Fault Refusal :=
  let k := delayTicks s.cfg cnt
  if k = 0 then .next (s.respond .ok 0)
  else .next { s with hdly := k, hostSt := .delay }

/-- The host step of a DELAY that is counting (10_state.md R63). -/
def State.countDelay (s : State) : Except Fault State :=
  match s.hdly with
  | 0 => .error .counterUnderflow
  | k + 1 =>
    if k = 0 then .ok ({ s with hdly := k }.respond .ok 0) else .ok { s with hdly := k }

end Sys2Proof.Machine
end

