-- ==== Sys2Proof/Machine/Registry.lean ====
section
/-! DEFINITION. The active-link registry (42_registry.md): `Activate`, ACTIVATE and OVFL. -/

namespace Sys2Proof.Machine

/-- The state a switching activation leaves: `HEAD`, `TAIL` and the link's `OVF` are 0 and the link
is active (R170). -/
def State.install (s : State) (l : LinkId) : State :=
  { s.setOvf l false with head := 0, tail := 0, active := some l }

/-- `Activate(L)`: the state and "just switched" (R170). `IE` is not changed. -/
def State.activate (s : State) (l : LinkId) : State × Bool :=
  if s.active = some l then (s, false) else (s.install l, true)

/-- ACTIVATE (R171). -/
def execActivate (l : LinkId) (s : State) : Host.Outcome State Fault Refusal :=
  s.withLink l fun s =>
    let (s', switched) := s.activate l
    .next (s'.respond .ok (boolWord switched))

/-- OVFL (R173). -/
def execOvfl (l : LinkId) (s : State) : Host.Outcome State Fault Refusal :=
  s.withLink l fun s => .next (s.respond .ok (boolWord (s.link l).ovf))

end Sys2Proof.Machine
end

