-- ==== Sys2Proof/Machine/Links.lean ====
section
/-! DEFINITION. Link configuration: CREATE and BEGIN (41_pins_links.md R154 to R157). -/

namespace Sys2Proof.Machine

/-- The writes of CREATE once its checks passed (R154). -/
def State.createLink (s : State) (l : LinkId) (rx tx : PinId) : Except Fault State := do
  let s := s.setLink l { s.link l with rxpin := rx, txpin := tx }
  let s ← s.setTxPin tx
  let s ← s.setRxPin rx
  .ok ((s.setLink l { s.link l with exists_ := true }).respond .ok 0)

/-- CREATE (R154): the checks in the order of 60_exceptions.md R261, then the writes. -/
def execCreate (l : LinkId) (rx tx : PinId) (s : State) : Host.Outcome State Fault Refusal :=
  if s.linkInRange l = false then .next (s.raise .noLink)
  else if (s.link l).exists_ then .next (s.raise .linkExists)
  else if pinsUsable s.cfg rx tx = false then .next (s.raise .badPin)
  else finish (s.createLink l rx tx)

/-- BEGIN's constants and `INIT` (R155). -/
def State.setTiming (s : State) (l : LinkId) (tm : Timing) : State :=
  s.setLink l { s.link l with
    init := true, rxc := tm.rxCenter, rxi := tm.rxIntra, rxs := tm.rxStop, txd := tm.txDelay }

/-- The writes of a first BEGIN (R155): timing, arming on a match where the receive pin can raise
the interrupt (R156), activation (R157). -/
def State.beginLink (s : State) (l : LinkId) (baud : Word) : Except Fault State := do
  let tm := lookup s.cfg baud
  let rx := (s.link l).rxpin
  let s := s.setTiming l tm
  let s ← if tm.matched && hasPcint s.cfg rx then s.armPin rx else .ok s
  .ok ((s.activate l).1.respond .ok 0)

/-- BEGIN (R155); a repeated BEGIN is ignored (10_state.md R33). -/
def execBegin (l : LinkId) (baud : Word) (s : State) : Host.Outcome State Fault Refusal :=
  s.withLink l fun s =>
    if (s.link l).init then .next (s.respond .ok 0) else finish (s.beginLink l baud)

end Sys2Proof.Machine
end

