-- ==== Sys2Proof/Machine/Receive.lean ====
section
/-! DEFINITION. The receive engine and the receive FIFO (43_receive.md): the expiry actions R191 to
R195, the engine advance (40_timing_delay.md R135), and READ, AVAIL, FLUSH. -/

namespace Sys2Proof.Machine

/-- Commit (R195): store the byte and advance `TAIL`, or set the served link's `OVF` and drop it
(R196). -/
def State.rxCommit (s : State) : Except Fault State :=
  if s.nextSlot s.tail ≠ s.head then do
    let s' ← s.memWrite s.tail s.rxD
    .ok { s' with tail := s'.nextSlot s'.tail }
  else .ok (s.setOvf s.rxL true)

/-- Expiry of `STOP` (R194): commit, then return from interrupt. -/
def State.rxStopExpire (s : State) : Except Fault State := do
  let s ← s.rxCommit
  .ok s.returnFromInterrupt

/-- The sampled level placed at bit `RX_I` (R193). -/
def State.rxSample (s : State) (level : Bool) : State :=
  { s with rxD := s.rxD ||| ((if level then 1#8 else 0#8) <<< s.rxI.val) }

/-- Expiry of `BIT` with `n` bits left after this one, `n = 7 - RX_I` (R193). -/
def State.rxBitExpire (n : Nat) (s : State) : Except Fault State := do
  let level ← s.pinRead (s.link s.rxL).rxpin
  let s := s.rxSample level
  match n with
  | 0 => s.rxWait .stop (s.rxStopTicks s.rxL) State.rxStopExpire
  | n + 1 =>
    State.rxWait .bit (s.rxBitTicks s.rxL) (State.rxBitExpire n) { s with rxI := s.rxI + 1 }

/-- Expiry of `CENTER` (R192). -/
def State.rxCenterExpire (s : State) : Except Fault State :=
  State.rxWait .bit (s.rxBitTicks s.rxL) (State.rxBitExpire 7) { s with rxI := 0 }

/-- Expiry of `ENTRY`, the line check (R191): a line that is not low is a spurious edge. -/
def State.rxEntryExpire (s : State) : Except Fault State := do
  let level ← s.pinRead (s.link s.rxL).rxpin
  if level then .ok s.returnFromInterrupt
  else State.rxWait .center (s.rxCenterTicks s.rxL) State.rxCenterExpire { s with rxD := 0 }

/-- The expiry action of the receive engine's current state. -/
def State.rxExpire (s : State) : Except Fault State :=
  match s.rxSt with
  | .idle => .ok s
  | .entry => s.rxEntryExpire
  | .center => s.rxCenterExpire
  | .bit => s.rxBitExpire (7 - s.rxI.val)
  | .stop => s.rxStopExpire

/-- The receive-engine advance (40_timing_delay.md R135). -/
def State.rxAdvance (s : State) : Except Fault State :=
  match s.dly with
  | 0 => .error .counterUnderflow
  | k + 1 => if k = 0 then State.rxExpire { s with dly := k } else .ok { s with dly := k }

/-- Dispatch of the pin-change interrupt to the receive engine (60_exceptions.md R266). -/
def State.dispatch (s : State) : Except Fault State := s.takeInterrupt State.rxEntryExpire

/-! ### READ, AVAIL, FLUSH -/

/-- The byte at `HEAD` taken from a non-empty FIFO (R201). -/
def State.takeByte (s : State) : Except Fault State := do
  let v ← s.memRead s.head
  .ok ({ s with head := s.nextSlot s.head }.respond .ok (v.zeroExtend 32))

/-- READ (R201): none just after a switch or from an empty FIFO, else the oldest byte. -/
def execRead (l : LinkId) (s : State) : Host.Outcome State Fault Refusal :=
  s.withLink l fun s =>
    let (s', switched) := s.activate l
    if switched then .next (s'.respond .ok noByte)
    else if s'.head = s'.tail then .next (s'.respond .ok noByte)
    else finish s'.takeByte

/-- The number of bytes in the FIFO, `(TAIL + RX_BUF_SIZE - HEAD) mod RX_BUF_SIZE` (R202). -/
def State.fifoCount (s : State) : Nat := (s.tail + s.cfg.rxBufSize - s.head) % s.cfg.rxBufSize

/-- AVAIL (R202). -/
def execAvail (l : LinkId) (s : State) : Host.Outcome State Fault Refusal :=
  s.withLink l fun s =>
    let (s', switched) := s.activate l
    if switched then .next (s'.respond .ok 0)
    else .next (s'.respond .ok (countWord s'.fifoCount))

/-- FLUSH (R203): the FIFO of an already active link is discarded, a switch discards it itself. -/
def execFlush (l : LinkId) (s : State) : Host.Outcome State Fault Refusal :=
  s.withLink l fun s =>
    let (s', switched) := s.activate l
    if switched then .next (s'.respond .ok 0)
    else .next ({ s' with head := 0, tail := 0 }.respond .ok 0)

end Sys2Proof.Machine
end

