-- ==== Sys2Proof/Machine/Transmit.lean ====
section
/-! DEFINITION. The transmit engine (44_transmit.md R230 to R234), its advance (40_timing_delay.md
R135), WRITE and WRITEN. -/

namespace Sys2Proof.Machine

/-- Frame end, the expiry of `STOP` (R234): `IE` is restored and the frame counted; with no byte
left the command completes. -/
def State.txStopExpire (s : State) : Except Fault State :=
  let s := { s.restoreInterrupts with txSt := .idle, wnSum := s.wnSum + 1 }
  match s.wnQ with
  | [] => .ok (s.respond .ok s.wnSum)
  | _ :: _ => .ok s

/-- `PinWrite(LINK[TX_L].TXPIN, v)`, the engine's drive of its line. -/
def State.txDrive (s : State) (v : Bool) : Except Fault State := s.pinWrite (s.link s.txL).txpin v

/-- Expiry of `BIT` with `n` data bits left to start, `n = 7 - TX_I` (R233). -/
def State.txBitExpire (n : Nat) (s : State) : Except Fault State :=
  match n with
  | 0 => do
    let s ← s.txDrive true
    s.txWait .stop (s.txPeriod s.txL) State.txStopExpire
  | n + 1 => do
    let s := { s with txI := s.txI + 1 }
    let s ← s.txDrive (s.txD.getLsbD s.txI.val)
    s.txWait .bit (s.txPeriod s.txL) (State.txBitExpire n)

/-- Expiry of `START` (R233): data bit 0. -/
def State.txStartExpire (s : State) : Except Fault State := do
  let s := { s with txI := 0 }
  let s ← s.txDrive (s.txD.getLsbD 0)
  s.txWait .bit (s.txPeriod s.txL) (State.txBitExpire 7)

/-- Expiry of `PRE` (R232): the start bit, low. -/
def State.txPreExpire (s : State) : Except Fault State := do
  let s ← s.txDrive false
  s.txWait .start (s.txPeriod s.txL) State.txStartExpire

/-- The expiry action of the transmit engine's current state. -/
def State.txExpire (s : State) : Except Fault State :=
  match s.txSt with
  | .idle => .ok s
  | .pre => s.txPreExpire
  | .start => s.txStartExpire
  | .bit => s.txBitExpire (7 - s.txI.val)
  | .stop => s.txStopExpire

/-- The transmit-engine advance (40_timing_delay.md R135). -/
def State.txAdvance (s : State) : Except Fault State :=
  match s.dly with
  | 0 => .error .counterUnderflow
  | k + 1 => if k = 0 then State.txExpire { s with dly := k } else .ok { s with dly := k }

/-- The registers of a frame start: the link is activated, the byte and link are taken, interrupts
are masked (R231). -/
def State.loadFrame (s : State) (l : LinkId) (v : Byte) : State :=
  { (s.activate l).1.maskInterrupts with txL := l, txD := v }

/-- `StartFrame(L, v)` (R231). -/
def State.startFrame (s : State) (l : LinkId) (v : Byte) : Except Fault State :=
  (s.loadFrame l v).txWait .pre s.cfg.ovhTxStart State.txPreExpire

/-- `WN_L <- L; WN_Q <- q; WN_SUM <- 0; HOST_ST <- WRITE` (R235, R236). -/
def State.loadWrite (s : State) (l : LinkId) (q : List Byte) : State :=
  { s with wnL := l, wnQ := q, wnSum := 0, hostSt := .write }

/-- WRITE (R235): a no-op on a link with zero transmit delay, else a frame whose end responds. -/
def execWrite (l : LinkId) (dat : Byte) (s : State) : Host.Outcome State Fault Refusal :=
  s.withLink l fun s =>
    if (s.link l).txd = 0 then .next (s.respond .ok (BitVec.ofNat 32 (noopResult s.cfg)))
    else finish ((s.loadWrite l []).startFrame l dat)

/-- WRITEN (R236): nothing for an empty list, a no-op on a link with zero transmit delay, else one
frame a byte. -/
def execWriten (l : LinkId) (bytes : List Byte) (s : State) : Host.Outcome State Fault Refusal :=
  s.withLink l fun s =>
    match bytes with
    | [] => .next (s.respond .ok 0)
    | v :: rest =>
      if (s.link l).txd = 0 then
        .next (s.respond .ok (BitVec.ofNat 32 (bytes.length * noopResult s.cfg)))
      else finish ((s.loadWrite l rest).startFrame l v)

/-- The host step of a WRITEN with a frame due (R236). -/
def State.nextFrame (s : State) : Except Fault State :=
  match s.wnQ with
  | [] => .error .writeQueueEmpty
  | v :: rest => { s with wnQ := rest }.startFrame s.wnL v

end Sys2Proof.Machine
end

