-- ==== Sys2Proof/Machine/Dispatch.lean ====
section
/-! DEFINITION. One arm per command, each calling its meaning: "perform the rule of opc"
(30_encoding.md R110). -/

namespace Sys2Proof.Machine

def exec (i : Instr) (s : State) : Host.Outcome State Fault Refusal :=
  match i with
  | .create l rx tx => Sys2Proof.Machine.execCreate l rx tx s
  | .begin l baud => Sys2Proof.Machine.execBegin l baud s
  | .write l dat => Sys2Proof.Machine.execWrite l dat s
  | .writen l bytes => Sys2Proof.Machine.execWriten l bytes s
  | .read l => Sys2Proof.Machine.execRead l s
  | .avail l => Sys2Proof.Machine.execAvail l s
  | .flush l => Sys2Proof.Machine.execFlush l s
  | .activate l => Sys2Proof.Machine.execActivate l s
  | .ovfl l => Sys2Proof.Machine.execOvfl l s
  | .delay cnt => Sys2Proof.Machine.execDelay cnt s

end Sys2Proof.Machine
end

