-- ==== Sys2Proof/Machine/Tick.lean ====
section
/-! DEFINITION. The two phases of a tick (10_state.md R60 to R63) and the placing of a command
where the core accepts its next one. -/

namespace Sys2Proof.Machine

/-- Phase 1, the line update (R61): the tick's environment row is taken, every port is sampled, and
pin changes are detected from tick 1 on (60_exceptions.md R265). The response of the tick before is
gone (R50). -/
def State.phase1 (s : State) : State :=
  { s with
    resp := none
    ports := samplePorts (envLevel s.t (s.env.headD [])) 0 s.ports
    env := s.env.tail }.detectEdges

/-- Accept a command: decode it and perform its rule; a record that does not decode is answered
ILLEGAL (R63, 30_encoding.md R110). -/
def State.accept (s : State) (r : CmdRecord) : Host.Outcome State Fault Refusal :=
  match decode r with
  | .ok i => exec i s
  | .error _ => .next (s.raise .illegal)

/-- The host step (R63). A command waits, unchanged, until a host step reaches it with `HOST_ST =
FREE`. -/
def State.hostStep (s : State) : Host.Outcome State Fault Refusal :=
  match s.hostSt with
  | .delay => finish s.countDelay
  | .write => finish s.nextFrame
  | .free =>
    match s.cmds with
    | [] => .next s
    | c :: rest => if c.notBefore ≤ s.t then State.accept { s with cmds := rest } c.record else .next s

/-- Phase 2, one agent step (R62). -/
def State.phase2 (s : State) : Host.Outcome State Fault Refusal :=
  if s.rxSt ≠ .idle then finish s.rxAdvance
  else if s.txSt ≠ .idle then finish s.txAdvance
  else if s.pend && s.ie then finish s.dispatch
  else s.hostStep

/-- The end of a tick: `t <- t + 1` (R60). -/
def State.endTick (s : State) : State := { s with t := s.t + 1 }

/-- One tick of a well-formed configuration (R60). -/
def State.tick (s : State) : Host.Outcome State Fault Refusal :=
  match s.phase1.phase2 with
  | .next s' => .next s'.endTick
  | .fault f => .fault f
  | .refused r => .refused r

/-- A port whose sampled level will not change in the next tick if the environment holds it. -/
def PortRegs.settled (r : PortRegs) : PortRegs := { r with inp := r.sampled r.inp }

/-- The state with record `r` placed where the next tick accepts its command
(notes/assumptions/12.md): first in the host's queue and offered now, the host free, both engines
idle, no interrupt pending, and the lines held for that tick so that none becomes pending. -/
def State.placeCommand (s : State) (r : CmdRecord) : State :=
  { s with
    hostSt := .free
    rxSt := .idle
    txSt := .idle
    pend := false
    ports := s.ports.map PortRegs.settled
    env := (s.ports.map fun p => p.settled.inp) :: s.env
    cmds := ⟨s.t, r⟩ :: s.cmds }

end Sys2Proof.Machine
end

