-- ==== Sys2Proof/Machine/Step.lean ====
section
/-! DEFINITION. One step is one tick (10_state.md R60); an ill-formed configuration has no runs
(00_scope.md R12). -/

namespace Sys2Proof.Machine

def step (s : State) : Host.Outcome State Fault Refusal :=
  if s.cfg.WF then s.tick else .refused .illFormedConfig

/-- The command whose bits are `w` (spec/opcode_table.json's numbering), placed where the very next
step accepts it (notes/assumptions/12.md). -/
def State.withFetchWord (s : State) (nbits w : Nat) : State := s.placeCommand (recordOfBits nbits w)

end Sys2Proof.Machine
end

