-- ==== Sys2Proof/Machine/Assembler.lean ====
section
/-! DEFINITION. The assembler of 30_encoding.md R115, R116, R120, R121: one line of text to one
command. A pseudo-instruction is assembler text only (R122): the core sees the WRITEN it expands to.

Nothing in the machine depends on this file. Lexical detail the spec leaves open is DESIGN CHOICE,
notes/assumptions/13.md. -/

namespace Sys2Proof.Machine

/-- One line, operands as written (R115), with the three pseudo-instructions (R120, R121). -/
inductive AsmLine where
  | create (l rx tx : Nat)
  | begin (l baud : Nat)
  | write (l byte : Nat)
  | writen (l : Nat) (bytes : List Nat)
  | read (l : Nat)
  | avail (l : Nat)
  | flush (l : Nat)
  | activate (l : Nat)
  | ovfl (l : Nat)
  | delay (count : Nat)
  | print (l : Nat) (codes : List Nat)
  | noteOn (l ch pitch vel : Nat)
  | masterVol127 (l : Nat)
deriving DecidableEq, Repr

/-- Why the assembler rejects a line (R116). -/
inductive AsmError where
  /-- Not one of the forms of R115, R120, R121. -/
  | badForm
  /-- A link number above 15. -/
  | linkNumber
  /-- A pin number above 255. -/
  | pinNumber
  /-- A byte above 255. -/
  | byteValue
  /-- A count above 65535. -/
  | countValue
  /-- A WRITEN list longer than 65535. -/
  | listLength
  /-- A baud above `2^32 - 1`. -/
  | baudValue
  /-- A PRINT character outside 0x00..0x7F (R120). -/
  | characterCode
deriving DecidableEq, Repr

/-! ### Operand ranges (R116) -/

def asmLink (n : Nat) : Except AsmError LinkId :=
  if n ≤ 15 then .ok (BitVec.ofNat 4 n) else .error .linkNumber

def asmPin (n : Nat) : Except AsmError PinId :=
  if n ≤ 255 then .ok (BitVec.ofNat 8 n) else .error .pinNumber

def asmByte (n : Nat) : Except AsmError Byte :=
  if n ≤ 255 then .ok (BitVec.ofNat 8 n) else .error .byteValue

def asmCount (n : Nat) : Except AsmError Count :=
  if n ≤ 65535 then .ok (BitVec.ofNat 16 n) else .error .countValue

def asmBaud (n : Nat) : Except AsmError Word :=
  if n < 2 ^ 32 then .ok (BitVec.ofNat 32 n) else .error .baudValue

def asmChar (n : Nat) : Except AsmError Byte :=
  if n ≤ 0x7F then .ok (BitVec.ofNat 8 n) else .error .characterCode

/-- A byte list, each byte by `f`, at most 65535 long. -/
def asmList (f : Nat → Except AsmError Byte) (ns : List Nat) : Except AsmError (List Byte) :=
  if ns.length ≤ 65535 then ns.mapM f else .error .listLength

/-- The bytes of `NOTEON Ln, ch, pitch, vel` (R121). -/
def noteOnBytes (ch pitch vel : Nat) : List Nat := [0x90 ||| (ch &&& 0x0F), pitch &&& 0x7F, vel &&& 0x7F]

/-- The bytes of `MASTERVOL127 Ln` (R121). -/
def masterVol127Bytes : List Nat := [0xF0, 0x7F, 0x7F, 0x04, 0x01, 0x00, 0x7F, 0xF7]

/-- The command of a line; a pseudo-instruction expands to WRITEN. -/
def assemble : AsmLine → Except AsmError Instr
  | .create l rx tx => do .ok (.create (← asmLink l) (← asmPin rx) (← asmPin tx))
  | .begin l baud => do .ok (.begin (← asmLink l) (← asmBaud baud))
  | .write l byte => do .ok (.write (← asmLink l) (← asmByte byte))
  | .writen l bytes => do .ok (.writen (← asmLink l) (← asmList asmByte bytes))
  | .read l => do .ok (.read (← asmLink l))
  | .avail l => do .ok (.avail (← asmLink l))
  | .flush l => do .ok (.flush (← asmLink l))
  | .activate l => do .ok (.activate (← asmLink l))
  | .ovfl l => do .ok (.ovfl (← asmLink l))
  | .delay count => do .ok (.delay (← asmCount count))
  | .print l codes => do .ok (.writen (← asmLink l) (← asmList asmChar codes))
  | .noteOn l ch pitch vel => do
    .ok (.writen (← asmLink l) (← asmList asmByte (noteOnBytes ch pitch vel)))
  | .masterVol127 l => do .ok (.writen (← asmLink l) (← asmList asmByte masterVol127Bytes))

/-! ### Text -/

/-- A piece of a line: a run of other characters, a separator, or a quoted text. -/
inductive AsmTok where
  | word (cs : List Char)
  | comma
  | lbrack
  | rbrack
  | text (cs : List Char)
deriving DecidableEq, Repr

/-- A finished word, kept reversed while it is read, before the pieces that follow. -/
def asmFlush (w : List Char) (rest : List AsmTok) : List AsmTok :=
  match w with
  | [] => rest
  | _ :: _ => .word w.reverse :: rest

/-- The double quote. -/
def asmQuote : Char := Char.ofNat 34

/-- The pieces of a line: `quoted` holds the characters of an open quotation, `w` those of an open
word, both reversed. `;` starts a comment (R115), but inside a quotation it is text: DESIGN CHOICE,
notes/assumptions/13.md. None for a quotation left open. -/
def asmLex (quoted : Option (List Char)) (w : List Char) : List Char → Option (List AsmTok)
  | [] => if quoted.isSome then none else some (asmFlush w [])
  | c :: rest =>
    match quoted with
    | some q =>
      if c = asmQuote then (asmLex none [] rest).map (.text q.reverse :: ·)
      else asmLex (some (c :: q)) w rest
    | none =>
      if c = ';' then some (asmFlush w [])
      else if c = asmQuote then (asmLex (some []) [] rest).map (asmFlush w)
      else if c = ' ' ∨ c = '\t' then (asmLex none [] rest).map (asmFlush w)
      else if c = ',' then (asmLex none [] rest).map fun ts => asmFlush w (.comma :: ts)
      else if c = '[' then (asmLex none [] rest).map fun ts => asmFlush w (.lbrack :: ts)
      else if c = ']' then (asmLex none [] rest).map fun ts => asmFlush w (.rbrack :: ts)
      else asmLex none (c :: w) rest

/-- The value of a digit in base 10 or 16. -/
def asmDigit (base : Nat) (c : Char) : Option Nat :=
  let n := c.toNat
  if 48 ≤ n ∧ n ≤ 57 then some (n - 48)
  else if base = 16 ∧ 65 ≤ n ∧ n ≤ 70 then some (n - 55)
  else if base = 16 ∧ 97 ≤ n ∧ n ≤ 102 then some (n - 87)
  else none

/-- The value of a run of digits, most significant first, above `acc`. -/
def asmDigits (base acc : Nat) : List Char → Option Nat
  | [] => some acc
  | c :: rest => do asmDigits base (base * acc + (← asmDigit base c)) rest

/-- A number in decimal or `0x` hexadecimal (R115). -/
def asmNumber : List Char → Option Nat
  | [] => none
  | '0' :: 'x' :: c :: rest => asmDigits 16 0 (c :: rest)
  | c :: rest => asmDigits 10 0 (c :: rest)

/-- A link `L0` .. or a pin `P0` ..: its letter and a decimal number (R115). -/
def asmNamed (letter : Char) : List Char → Option Nat
  | c :: d :: rest => if c = letter then asmDigits 10 0 (d :: rest) else none
  | _ => none

/-- The elements of a byte list after its `[`, at least one. -/
def asmElems : List AsmTok → Option (List Nat)
  | [.word w, .rbrack] => do some [← asmNumber w]
  | .word w :: .comma :: rest => do
    let n ← asmNumber w
    let ns ← asmElems rest
    some (n :: ns)
  | _ => none

/-- A line of one mnemonic and one link. -/
def asmLinkLine (m : List Char) (l : Nat) : Option AsmLine :=
  if m = ['R', 'E', 'A', 'D'] then some (.read l)
  else if m = ['A', 'V', 'A', 'I', 'L'] then some (.avail l)
  else if m = ['F', 'L', 'U', 'S', 'H'] then some (.flush l)
  else if m = ['A', 'C', 'T', 'I', 'V', 'A', 'T', 'E'] then some (.activate l)
  else if m = ['O', 'V', 'F', 'L'] then some (.ovfl l)
  else if m = ['M', 'A', 'S', 'T', 'E', 'R', 'V', 'O', 'L', '1', '2', '7'] then some (.masterVol127 l)
  else none

/-- The line a list of pieces spells, by the forms of R115, R120 and R121. -/
def asmParse : List AsmTok → Option AsmLine
  | [.word m, .word a] =>
    if m = ['D', 'E', 'L', 'A', 'Y'] then do some (.delay (← asmNumber a))
    else do asmLinkLine m (← asmNamed 'L' a)
  | [.word m, .word a, .comma, .word b] =>
    if m = ['B', 'E', 'G', 'I', 'N'] then do some (.begin (← asmNamed 'L' a) (← asmNumber b))
    else if m = ['W', 'R', 'I', 'T', 'E'] then do some (.write (← asmNamed 'L' a) (← asmNumber b))
    else none
  | [.word m, .word a, .comma, .text t] =>
    if m = ['P', 'R', 'I', 'N', 'T'] then do some (.print (← asmNamed 'L' a) (t.map Char.toNat))
    else none
  | [.word m, .word a, .comma, .word b, .comma, .word c] =>
    if m = ['C', 'R', 'E', 'A', 'T', 'E'] then do
      some (.create (← asmNamed 'L' a) (← asmNamed 'P' b) (← asmNamed 'P' c))
    else none
  | [.word m, .word a, .comma, .word b, .comma, .word c, .comma, .word d] =>
    if m = ['N', 'O', 'T', 'E', 'O', 'N'] then do
      some (.noteOn (← asmNamed 'L' a) (← asmNumber b) (← asmNumber c) (← asmNumber d))
    else none
  | .word m :: .word a :: .comma :: .lbrack :: rest =>
    if m = ['W', 'R', 'I', 'T', 'E', 'N'] then do
      let l ← asmNamed 'L' a
      if rest = [.rbrack] then some (.writen l []) else some (.writen l (← asmElems rest))
    else none
  | _ => none

/-- One line of text to its command record; none for a line with nothing but a comment. -/
def assembleText (line : List Char) : Except AsmError (Option CmdRecord) :=
  match asmLex none [] line with
  | none => .error .badForm
  | some [] => .ok none
  | some toks =>
    match asmParse toks with
    | none => .error .badForm
    | some a =>
      match assemble a with
      | .error e => .error e
      | .ok i => .ok (some (encode i))

end Sys2Proof.Machine
end

