-- ==== Sys2Proof/Safety.lean ====
section
/-! DEFINITION. What a state of the running core looks like: the states right after reset
(70_reset_and_hazards.md R301), the invariant of 10_state.md R54 with the facts about unreachable
states that go with it, quiescence (R305), and the FIFO's contents (20_memory.md R94). -/

namespace Sys2Proof.Machine

/-- The four timing constants are zero (10_state.md R35). -/
def LinkRegs.Disabled (r : LinkRegs) : Prop := r.rxc = 0 ∧ r.rxi = 0 ∧ r.rxs = 0 ∧ r.txd = 0

/-- The four timing constants are those of a timing row (R35). -/
def LinkRegs.FromRow (r : LinkRegs) (row : TimingRow) : Prop :=
  r.rxc = row.rxCenter ∧ r.rxi = row.rxIntra ∧ r.rxs = row.rxStop ∧ r.txd = row.txDelay

/-- A register set that CREATE has configured: the link id is in range, the pins are two different
mapped pins (R154), and the constants are zero or one row's, zero before BEGIN (R35, R54(f)). -/
structure LinkRegs.Created (c : Config) (l : LinkId) (r : LinkRegs) : Prop where
  inRange : l.toNat < c.nLinks
  pins : pinsUsable c r.rxpin r.txpin = true
  constants : r.Disabled ∨ ∃ row ∈ timingRom c, r.FromRow row
  notBegun : r.init = false → r.Disabled

/-- A register set CREATE has not configured holds the reset value of every element the spec gives
one (R31, R154). -/
structure LinkRegs.Untouched (r : LinkRegs) : Prop where
  init : r.init = false
  disabled : r.Disabled
  ovf : r.ovf = false

/-- The invariant: (a) to (f) of R54, and what else rules out the states no run reaches. -/
structure State.Inv (s : State) : Prop where
  /-- The configuration is well formed (00_scope.md R12). -/
  cfgWF : s.cfg.WF
  /-- R54(a). -/
  headLt : s.head < s.cfg.rxBufSize
  /-- R54(a). -/
  tailLt : s.tail < s.cfg.rxBufSize
  /-- R54(b). -/
  activeExists : ∀ l, s.active = some l → s.hasLink l = true
  /-- R54(c). -/
  oneEngine : s.rxSt = .idle ∨ s.txSt = .idle
  /-- R54(d), and both engines give `IE` back (R267, R234). -/
  ieIff : s.ie = true ↔ s.rxSt = .idle ∧ s.txSt = .idle
  /-- R54(e); the frame is that of the command, and `IE` was 1 at its start (R231). -/
  txHost : s.txSt ≠ .idle → s.hostSt = .write ∧ s.txL = s.wnL ∧ s.txSie = true
  /-- R54(f), R31. -/
  created : ∀ l, (s.link l).exists_ = true → (s.link l).Created s.cfg l
  /-- R31, R154. -/
  untouched : ∀ l, (s.link l).exists_ = false → (s.link l).Untouched
  /-- One register group for each port (R42). -/
  portCount : s.ports.length = s.cfg.nPorts
  /-- The receive engine serves the active link (43_receive.md R200). -/
  rxServes : s.rxSt ≠ .idle → s.active = some s.rxL
  /-- A WRITE or WRITEN under way has activated its link, which can transmit (R231). -/
  writeActive : s.hostSt = .write → s.active = some s.wnL ∧ (s.link s.wnL).txd ≠ 0
  /-- A running engine has ticks left to count (40_timing_delay.md R134). -/
  engineCounts : s.rxSt ≠ .idle ∨ s.txSt ≠ .idle → 0 < s.dly
  /-- A DELAY under way has ticks left to count (R137). -/
  delayCounts : s.hostSt = .delay → 0 < s.hdly
  /-- Between two frames of a WRITEN a byte is due (44_transmit.md R234, R236). -/
  frameDue : s.hostSt = .write → s.txSt = .idle → s.wnQ ≠ []
  /-- `WN_SUM` and the frames still to end make at most the 16-bit count (R236). -/
  writeCount : s.hostSt = .write →
    s.wnSum.toNat + s.wnQ.length + (if s.txSt = .idle then 0 else 1) ≤ 65535
  /-- The receive RAM is in canonical form. -/
  ramWF : s.rxbuf.wf = true
  /-- The receive RAM has `RX_BUF_SIZE` slots (20_memory.md R80). -/
  ramSlots : ∀ c ∈ s.rxbuf, c.1 < s.cfg.rxBufSize
  /-- Before the first activation nothing is received, armed or pending (42_registry.md R172,
  41_pins_links.md R155, R157). -/
  beforeActive : s.active = none →
    s.head = 0 ∧ s.tail = 0 ∧ s.pend = false ∧ ∀ p ∈ s.ports, p.pcmsk = 0

/-- A state right after reset (R301): every element the table gives a value has it, the elements it
leaves unspecified are free, each register group the configuration asks for is there, and the RAM
is any contents of its slots. -/
structure State.IsReset (s : State) : Prop where
  t : s.t = 0
  links : ∀ l, (s.link l).exists_ = false ∧ (s.link l).Untouched
  active : s.active = none
  ie : s.ie = true
  pend : s.pend = false
  head : s.head = 0
  tail : s.tail = 0
  portCount : s.ports.length = s.cfg.nPorts
  ports : ∀ p ∈ s.ports, p.out = 0 ∧ p.dir = 0 ∧ p.pcmsk = 0
  rxSt : s.rxSt = .idle
  txSt : s.txSt = .idle
  rxI : s.rxI = 0
  txI : s.txI = 0
  dly : s.dly = 0
  hdly : s.hdly = 0
  hostSt : s.hostSt = .free
  wnQ : s.wnQ = []
  wnSum : s.wnSum = 0
  ramWF : s.rxbuf.wf = true
  ramSlots : ∀ c ∈ s.rxbuf, c.1 < s.cfg.rxBufSize

/-- The host offers a command in the tick at hand (10_state.md R63). -/
def State.hostOffers (s : State) : Bool :=
  match s.cmds with
  | [] => false
  | c :: _ => decide (c.notBefore ≤ s.t)

/-- The next host step accepts a command: both engines idle, no interrupt to dispatch, the host free
(R62, R63). -/
def State.Ready (s : State) : Prop :=
  s.rxSt = .idle ∧ s.txSt = .idle ∧ (s.pend = false ∨ s.ie = false) ∧ s.hostSt = .free

/-- A quiescent state (R305). It does not say that the line environment is silent, that no frame is
on a receive line, or that the host has finished. -/
def State.Quiescent (s : State) : Prop :=
  s.rxSt = .idle ∧ s.txSt = .idle ∧ s.hostSt = .free ∧ s.pend = false ∧ s.hostOffers = false

/-- The FIFO's contents, oldest first (20_memory.md R94). -/
def State.fifo (s : State) : List Byte :=
  (List.range s.fifoCount).map fun i => s.rxbuf.read ((s.head + i) % s.cfg.rxBufSize)

/-- A run of `k` ticks ends in a state: no tick of it faulted or was refused. -/
def State.RunsTo (s : State) (k : Nat) (s' : State) : Prop := Sys2Proof.core.run k s = .next s'

end Sys2Proof.Machine
end

