-- ==== Sys2Proof/Certificates/Slice0/Obligations.lean ====
section
/-! DEFINITION. The statements for the provers, in the order of OBLIGATIONS.json. Each docstring
names the rule it formalises or the rules it follows from.

A statement about every state holds for every configuration, since a state carries its own. -/

namespace Sys2Proof.Claims

open Sys2Proof Sys2Proof.Machine

/-- `L < N_LINKS` and `LINK[L].EXISTS = 1` (60_exceptions.md R261). -/
def LinkExists (s : State) (l : LinkId) : Prop :=
  l.toNat < s.cfg.nLinks ∧ (s.link l).exists_ = true

/-- The state with a response delivered and the host free (60_exceptions.md R260). -/
def answered (s : State) (st : Status) (r : Word) : State :=
  { s with resp := some ⟨st, r⟩, hostSt := .free }

/-- `t` is `s` with nothing changed but the registers a switching activation of `l` writes and the
response `r` (42_registry.md R170). -/
def SwitchedTo (s t : State) (l : LinkId) (r : Word) : Prop :=
  t = { s with links := t.links, active := some l, head := 0, tail := 0,
               resp := some ⟨.ok, r⟩, hostSt := .free } ∧
  ∀ k, t.link k = if k = l then { s.link l with ovf := false } else s.link k

/-- The rows of spec/opcode_table.json: match, mask, and operand words for a count. -/
def tableRows : List (Word × Word × (Nat → Nat)) :=
  [(0x10000000, 0xF00000FF, fun _ => 0),
   (0x20000000, 0xF0FFFFFF, fun _ => 1),
   (0x30000000, 0xF0FFFF00, fun _ => 0),
   (0x40000000, 0xF0FF0000, fun cnt => (cnt + 3) / 4),
   (0x50000000, 0xF0FFFFFF, fun _ => 0),
   (0x60000000, 0xF0FFFFFF, fun _ => 0),
   (0x70000000, 0xF0FFFFFF, fun _ => 0),
   (0x80000000, 0xF0FFFFFF, fun _ => 0),
   (0x90000000, 0xF0FFFFFF, fun _ => 0),
   (0xA0000000, 0xFFFF0000, fun _ => 0)]

/-- The record fits a row of the table: opcode and reserved bits by match and mask, and the number
of operand words (30_encoding.md R105, R107, R108). -/
def FitsTable (r : CmdRecord) : Prop :=
  ∃ row ∈ tableRows, r.word &&& row.2.1 = row.1 ∧ r.ops.length = row.2.2 (r.word.toNat % 65536)

/-- The outcome of a tick whose phase 2 had this outcome: the tick counter moves on (10_state.md
R60). -/
def ticked : Host.Outcome State Fault Refusal → Host.Outcome State Fault Refusal
  | .next t => .next { t with t := t.t + 1 }
  | .fault f => .fault f
  | .refused r => .refused r

/-- The registers a frame start of byte `v` on link `l` writes, with bytes `q` still to come
(44_transmit.md R231, R235, R236). -/
def frameRegs (s : State) (l : LinkId) (v : Byte) (q : List Byte) : State :=
  { (s.activate l).1 with
    wnL := l, wnQ := q, wnSum := 0, hostSt := .write,
    txL := l, txD := v, txSie := s.ie, ie := false }

/-- The level of the pin at `e` in the `j`-th tick from `s` on, the next tick being the 0-th, while
nothing changes its port's direction and output latch (41_pins_links.md R153). -/
def lineLevel (s : State) (e : PinEntry) (j : Nat) : Bool :=
  match s.ports[e.port]? with
  | none => false
  | some r =>
    if bitAt r.dir e.bit then bitAt r.out e.bit
    else bitAt (envLevel (s.t + j) (s.env.getD j []) e.port) e.bit

/-- The level R237 gives the transmit pin `j` ticks after the tick of the frame start: `before`
until the start edge, then the start bit, the data bits LSB first, the stop bit. -/
def waveform (before : Bool) (v : Byte) (ovh P j : Nat) : Bool :=
  if j < ovh then before
  else if j < ovh + P then false
  else if j < ovh + 9 * P then v.getLsbD ((j - ovh) / P - 1)
  else true

/-- The host's registers and its queue are the same (R266: nothing of the host is saved or
changed). -/
def HostKept (s t : State) : Prop :=
  t.hostSt = s.hostSt ∧ t.hdly = s.hdly ∧ t.wnL = s.wnL ∧ t.wnQ = s.wnQ ∧ t.wnSum = s.wnSum ∧
  t.cmds = s.cmds

/-- Everything the host owns is the same: its registers, its queue and the response. -/
def SameHost (s t : State) : Prop := HostKept s t ∧ t.resp = s.resp

/-- The transmit engine's frame end on the state `s` left by its last drive (R234). -/
def frameEnded (s : State) (sie : Bool) : State :=
  let u := { s with txSt := .idle, ie := sie, wnSum := s.wnSum + 1 }
  if s.wnQ = [] then answered u .ok u.wnSum else u

/-- The frames of a WRITE or WRITEN under way that have ended or are still to end: what it will
answer (R234, R236). -/
def framesOf (s : State) : Word :=
  s.wnSum + BitVec.ofNat 32 s.wnQ.length + if s.txSt = .idle then 0 else 1

end Sys2Proof.Claims

open Sys2Proof Sys2Proof.Machine Sys2Proof.Claims

/-! ### Encoding (30_encoding.md) -/

/-- Decoding the record of a well-formed instruction gives the instruction back, with every operand
at every value the encoding admits (30_encoding.md R102, R104, R110). -/
def Obligations.DecodeInvertsEncode : Prop :=
  ∀ i : Instr, i.wellFormed = true → decode (encode i) = .ok i

/-- Encoding what a record decodes to gives its command word back, and its operand words but for
the slack of the last payload word: a WRITEN's come back with the same payload bytes, any other
command's as they were (R102, R104, R105). -/
def Obligations.EncodeInvertsDecode : Prop :=
  ∀ (r : CmdRecord) (i : Instr), decode r = .ok i →
    i.wellFormed = true ∧ (encode i).word = r.word ∧ (encode i).ops.length = r.ops.length ∧
    (∀ l bs, i = .writen l bs →
      payload r.ops bs.length = bs ∧ payload (encode i).ops bs.length = payload r.ops bs.length) ∧
    ((∀ l bs, i ≠ .writen l bs) → (encode i).ops = r.ops)

/-- The records that decode are those that fit a row of the opcode table (R105, R106, R110). -/
def Obligations.RecordsOfTheTableDecode : Prop :=
  ∀ r : CmdRecord, (∃ i, decode r = .ok i) ↔ FitsTable r

/-- A record with a reserved opcode, a reserved bit set or the wrong number of operand words is
answered `(ILLEGAL, 0)` and has no other effect (R105, R107, R108). -/
def Obligations.IllegalRecordsAreAnsweredIllegal : Prop :=
  ∀ (s : State) (r : CmdRecord), s.hostSt = .free → ¬ FitsTable r →
    s.accept r = .next { s with resp := some ⟨.illegal, 0⟩ }

/-- Every field of a decoded command is the unsigned integer in its bits of the word, whatever the
link id (R101, R103, R111). -/
def Obligations.FieldsAreUnsignedBitsOfTheWord : Prop :=
  ∀ (r : CmdRecord) (i : Instr), decode r = .ok i →
    let w := r.word.toNat
    (∀ l rx tx, i = .create l rx tx →
      l.toNat = w / 2 ^ 24 % 16 ∧ rx.toNat = w / 2 ^ 16 % 256 ∧ tx.toNat = w / 2 ^ 8 % 256) ∧
    (∀ l baud, i = .begin l baud → l.toNat = w / 2 ^ 24 % 16 ∧ r.ops = [baud]) ∧
    (∀ l dat, i = .write l dat → l.toNat = w / 2 ^ 24 % 16 ∧ dat.toNat = w % 256) ∧
    (∀ l bs, i = .writen l bs → l.toNat = w / 2 ^ 24 % 16 ∧ bs.length = w % 65536) ∧
    (∀ l, i = .read l ∨ i = .avail l ∨ i = .flush l ∨ i = .activate l ∨ i = .ovfl l →
      l.toNat = w / 2 ^ 24 % 16) ∧
    (∀ cnt, i = .delay cnt → cnt.toNat = w % 65536)

/-- Byte `j` of a WRITEN payload is byte `j mod 4`, little-endian, of operand word `j div 4`; the
bytes of the last word beyond the count are ignored (R104). -/
def Obligations.PayloadIsLittleEndianInWords : Prop :=
  ∀ (r : CmdRecord) (l : LinkId) (bs : List Byte), decode r = .ok (.writen l bs) →
    bs.length = r.word.toNat % 65536 ∧
    ∀ j, j < bs.length → ∃ b w, bs[j]? = some b ∧ r.ops[j / 4]? = some w ∧
      b.toNat = w.toNat / 2 ^ (8 * (j % 4)) % 256

/-- Words written out from the spec's formats and vectors decode to the commands they stand for
(30_encoding.md R115, 95_test_vectors.md). -/
def Obligations.SampleWordsDecode : Prop :=
  decode ⟨0x10000100, []⟩ = .ok (.create 0 0 1) ∧
  decode ⟨0x21000000, [0x000012C0]⟩ = .ok (.begin 1 4800) ∧
  decode ⟨0x30000041, []⟩ = .ok (.write 0 0x41) ∧
  decode ⟨0x40000003, [0x00643C91]⟩ = .ok (.writen 0 [0x91, 0x3C, 0x64]) ∧
  decode ⟨0x50000000, []⟩ = .ok (.read 0) ∧
  decode ⟨0x60000000, []⟩ = .ok (.avail 0) ∧
  decode ⟨0x70000000, []⟩ = .ok (.flush 0) ∧
  decode ⟨0x81000000, []⟩ = .ok (.activate 1) ∧
  decode ⟨0x90000000, []⟩ = .ok (.ovfl 0) ∧
  decode ⟨0xA0000014, []⟩ = .ok (.delay 20)

/-! ### The tick (10_state.md R60 to R64) -/

/-- When a command is offered and the core is ready after phase 1, the step performs the decoded
instruction on the state phase 1 left, the command taken from the queue; a record that does not
decode is answered `(ILLEGAL, 0)` (R60, R62, R63). -/
def Obligations.StepRunsDecodedInstruction : Prop :=
  ∀ (s : State) (c : HostCmd) (rest : List HostCmd),
    s.cfg.WF → s.phase1.Ready → s.cmds = c :: rest → c.notBefore ≤ s.t →
    (∀ i, decode c.record = .ok i → step s = ticked (exec i { s.phase1 with cmds := rest })) ∧
    (∀ e, decode c.record = .error e →
      step s = .next (answered { s.phase1 with cmds := rest } .illegal 0).endTick)

/-- A word placed by `withFetchWord` is the command the very next step runs, in any state of a
well-formed configuration (the model's interface, notes/assumptions/12.md). -/
def Obligations.PlacedWordRunsNext : Prop :=
  ∀ (s : State) (nbits w : Nat) (i : Instr), s.cfg.WF → decodeTableWord nbits w = some i →
    (s.withFetchWord nbits w).phase1.Ready ∧
    step (s.withFetchWord nbits w) =
      ticked (exec i { (s.withFetchWord nbits w).phase1 with cmds := s.cmds })

/-- Phase 2 performs exactly the first of: receive-engine advance, transmit-engine advance,
dispatch, host step (R62). -/
def Obligations.PhaseTwoPrecedence : Prop :=
  ∀ s : State, s.cfg.WF →
    let p := s.phase1
    (p.rxSt ≠ .idle → step s = ticked (finish p.rxAdvance)) ∧
    (p.rxSt = .idle → p.txSt ≠ .idle → step s = ticked (finish p.txAdvance)) ∧
    (p.rxSt = .idle → p.txSt = .idle → p.pend = true → p.ie = true →
      step s = ticked (finish p.dispatch)) ∧
    (p.rxSt = .idle → p.txSt = .idle → (p.pend = false ∨ p.ie = false) →
      step s = ticked p.hostStep)

/-- At most one command is taken in a tick, the oldest, and only when the core is ready and the
command is offered; otherwise every command stays in the queue unchanged. A ready core whose host
offers no command does nothing in phase 2 (R63, R64). The tick from which a command is offered is the
model's (notes/assumptions/3.md). -/
def Obligations.OfferedCommandWaitsUntilAccepted : Prop :=
  (∀ s t : State, step s = .next t →
    t.cmds = s.cmds ∨
    ∃ c, s.cmds = c :: t.cmds ∧ c.notBefore ≤ s.t ∧ s.phase1.Ready) ∧
  ∀ s : State, s.cfg.WF → s.phase1.Ready → s.phase1.hostOffers = false →
    step s = .next s.phase1.endTick

/-- Every command but WRITE, WRITEN and DELAY completes, with its response, in the tick that
accepts it, and changes nothing of either engine, of `IE` or of `PEND` (R64, R53). -/
def Obligations.AtomicCommandsCompleteAtOnce : Prop :=
  ∀ (i : Instr) (s t : State), exec i s = .next t →
    (∀ l v, i ≠ .write l v) → (∀ l bs, i ≠ .writen l bs) → (∀ cnt, i ≠ .delay cnt) →
    t.resp.isSome ∧ t.hostSt = .free ∧ t.ie = s.ie ∧ t.pend = s.pend ∧
    t.rxSt = s.rxSt ∧ t.rxI = s.rxI ∧ t.rxD = s.rxD ∧ t.rxL = s.rxL ∧ t.dly = s.dly ∧
    t.txSt = s.txSt ∧ t.txI = s.txI ∧ t.txD = s.txD ∧ t.txL = s.txL ∧ t.txSie = s.txSie ∧
    t.hdly = s.hdly ∧ t.wnL = s.wnL ∧ t.wnQ = s.wnQ ∧ t.wnSum = s.wnSum

/-! ### The line update and the pins (41_pins_links.md, 60_exceptions.md R265) -/

/-- Phase 1 changes the port registers and `PEND` and nothing else of the core (10_state.md R61): it
moves `PORT_IN` to `PORT_PREV` and samples every port, a bit the core drives reading back the driven
level, any other bit the environment's (R153). That it also takes the response and the environment's
row away is the model's (notes/assumptions/4.md, notes/assumptions/5.md). -/
def Obligations.DrivenBitsReadBack : Prop :=
  ∀ s : State,
    s.phase1 = { s with ports := s.phase1.ports, pend := s.phase1.pend, resp := none,
                        env := s.env.tail } ∧
    s.phase1.ports.length = s.ports.length ∧
    ∀ (k : Nat) (p : PortRegs), s.ports[k]? = some p →
      ∃ q, s.phase1.ports[k]? = some q ∧ q = { p with inp := q.inp, prev := p.inp } ∧
        ∀ b, bitAt q.inp b =
          if bitAt p.dir b then bitAt p.out b
          else bitAt (envLevel s.t (s.env.headD []) k) b

/-- From tick 1 on, a change in either direction on any armed bit sets `PEND`; nothing else in
phase 1 does, and phase 1 never clears it (60_exceptions.md R265). -/
def Obligations.ArmedLevelChangeSetsPend : Prop :=
  ∀ s : State, s.phase1.pend = true ↔
    s.pend = true ∨ (0 < s.t ∧ ∃ (k : Nat) (p : PortRegs) (b : Fin 8), s.phase1.ports[k]? = some p ∧
      bitAt p.inp b ≠ bitAt p.prev b ∧ bitAt p.pcmsk b = true)

/-- `PinWrite` sets the pin's output bit and nothing else; a driven pin shows the level from the
end of the tick on, and `PORT_IN` has it in the next tick (R152, 10_state.md R65). -/
def Obligations.PinWriteSetsOneOutputBit : Prop :=
  ∀ (s : State) (p : PinId) (v : Bool) (e : PinEntry) (r : PortRegs),
    pinEntry s.cfg p = some e → s.ports[e.port]? = some r →
    ∃ t, s.pinWrite p v = .ok t ∧ t = { s with ports := t.ports } ∧
      (∀ k q, s.ports[k]? = some q → ∃ q', t.ports[k]? = some q' ∧ q' = { q with out := q'.out } ∧
        ∀ b, bitAt q'.out b = if k = e.port ∧ b = e.bit then v else bitAt q.out b) ∧
      (bitAt r.dir e.bit = true →
        t.drivenLevel p = some v ∧ t.endTick.phase1.pinRead p = .ok v)

/-- No step clears a `PCMSK` bit: an armed pin stays armed (R156). -/
def Obligations.ArmedPinsStayArmed : Prop :=
  ∀ s t : State, step s = .next t → ∀ (k : Nat) (p : PortRegs) (b : Fin 8),
    s.ports[k]? = some p → bitAt p.pcmsk b = true →
    ∃ q : PortRegs, t.ports[k]? = some q ∧ bitAt q.pcmsk b = true

/-! ### The timing table and the delay timer (40_timing_delay.md) -/

/-- `Lookup` returns exactly the constants of the row with that very baud, and all zero where no
row has it; in a well-formed configuration at most one row has it (R131, R132, 00_scope.md R12). -/
def Obligations.LookupIsExactMatch : Prop :=
  ∀ (c : Config) (baud : Word), c.WF →
    (∀ row ∈ timingRom c, row.baud = baud →
      lookup c baud = ⟨row.rxCenter, row.rxIntra, row.rxStop, row.txDelay, true⟩) ∧
    ((∀ row ∈ timingRom c, row.baud ≠ baud) → lookup c baud = ⟨0, 0, 0, 0, false⟩) ∧
    (∀ row ∈ timingRom c, ∀ row' ∈ timingRom c, row.baud = row'.baud → row = row')

/-- A `Wait` of `k > 0` ticks enters its state and loads `DLY`; a `Wait` of 0 ticks performs the
expiry action in the same tick (R134). -/
def Obligations.WaitLoadsOrExpiresAtOnce : Prop :=
  ∀ (s : State) (k : Nat) (rs : RxSt) (ts : TxSt) (expire : State → Except Fault State),
    (0 < k → s.rxWait rs k expire = .ok { s with rxSt := rs, dly := k } ∧
      s.txWait ts k expire = .ok { s with txSt := ts, dly := k }) ∧
    s.rxWait rs 0 expire = expire { s with rxSt := rs } ∧
    s.txWait ts 0 expire = expire { s with txSt := ts }

/-- DELAY answers at once when `D(CNT) = 0` and otherwise blocks the host with `HDLY = D(CNT)`;
nothing else changes, `IE` included (R137). -/
def Obligations.DelayBlocksTheHost : Prop :=
  ∀ (s : State) (cnt : Count),
    (delayTicks s.cfg cnt = 0 → exec (.delay cnt) s = .next (answered s .ok 0)) ∧
    (0 < delayTicks s.cfg cnt →
      exec (.delay cnt) s = .next { s with hdly := delayTicks s.cfg cnt, hostSt := .delay })

/-- `HDLY` counts the host's own steps only: a tick in which an engine runs or an interrupt is
dispatched leaves it, and the step that brings it to 0 answers `(OK, 0)` (R138, 10_state.md R63). -/
def Obligations.DelayCountsHostStepsOnly : Prop :=
  ∀ s t : State, s.hostSt = .delay → step s = .next t →
    let hosts := s.rxSt = .idle ∧ s.txSt = .idle ∧ (s.phase1.pend = false ∨ s.ie = false)
    (hosts → t.hdly + 1 = s.hdly ∧
      (t.hdly = 0 → t.hostSt = .free ∧ t.resp = some ⟨.ok, 0⟩) ∧
      (t.hdly ≠ 0 → t.hostSt = .delay ∧ t.resp = none)) ∧
    (s.txSt = .idle → ¬ hosts → t.hdly = s.hdly ∧ t.hostSt = .delay ∧ t.resp = none)

/-- With no pin armed and nothing pending, a DELAY with `n` ticks to count completes exactly `n`
ticks later (R138). -/
def Obligations.UndisturbedDelayLastsItsTicks : Prop :=
  ∀ (s : State) (n : Nat), s.Inv → s.hostSt = .delay → s.hdly = n → s.rxSt = .idle →
    s.pend = false → (∀ p ∈ s.ports, p.pcmsk = 0) →
    (∀ j, j < n → ∃ t, s.RunsTo j t ∧ t.hostSt = .delay ∧ t.hdly = n - j) ∧
    ∃ t, s.RunsTo n t ∧ t.hostSt = .free ∧ t.resp = some ⟨.ok, 0⟩

/-! ### Link configuration (41_pins_links.md R154 to R157) -/

/-- CREATE checks the link range, then that the link is new, then the pins, and then takes the pins,
makes the transmit pin an output that is high and the receive pin an input, and changes nothing
else (R154). -/
def Obligations.CreateConfiguresLink : Prop :=
  ∀ (s : State) (l : LinkId) (rx tx : PinId),
    (s.cfg.nLinks ≤ l.toNat → exec (.create l rx tx) s = .next (answered s .noLink 0)) ∧
    (l.toNat < s.cfg.nLinks → (s.link l).exists_ = true →
      exec (.create l rx tx) s = .next (answered s .linkExists 0)) ∧
    (l.toNat < s.cfg.nLinks → (s.link l).exists_ = false →
      (pinEntry s.cfg rx = none ∨ pinEntry s.cfg tx = none ∨ rx = tx) →
      exec (.create l rx tx) s = .next (answered s .badPin 0)) ∧
    (∀ er et, s.cfg.WF → s.ports.length = s.cfg.nPorts →
      l.toNat < s.cfg.nLinks → (s.link l).exists_ = false →
      pinEntry s.cfg rx = some er → pinEntry s.cfg tx = some et → rx ≠ tx →
      ∃ t, exec (.create l rx tx) s = .next t ∧
        t = { s with links := t.links, ports := t.ports, resp := some ⟨.ok, 0⟩, hostSt := .free } ∧
        (∀ k, t.link k =
          if k = l then { s.link l with exists_ := true, rxpin := rx, txpin := tx } else s.link k) ∧
        ∀ k p, s.ports[k]? = some p →
          ∃ q, t.ports[k]? = some q ∧ q = { p with out := q.out, dir := q.dir } ∧
            ∀ b, bitAt q.dir b =
                (if k = et.port ∧ b = et.bit then true
                 else if k = er.port ∧ b = er.bit then false else bitAt p.dir b) ∧
              bitAt q.out b = (if k = et.port ∧ b = et.bit then true else bitAt p.out b))

/-- A first BEGIN sets `INIT`, takes the constants of the row with the baud or zeros, arms the
receive pin exactly when a row matched and the pin can raise the interrupt, and activates the link;
a repeated BEGIN changes nothing (R155, R157). -/
def Obligations.BeginConfiguresTiming : Prop :=
  ∀ (s : State) (l : LinkId) (baud : Word),
    (¬ LinkExists s l → exec (.begin l baud) s = .next (answered s .noLink 0)) ∧
    (LinkExists s l → (s.link l).init = true →
      exec (.begin l baud) s = .next (answered s .ok 0)) ∧
    (s.Inv → LinkExists s l → (s.link l).init = false →
      ∃ t e, exec (.begin l baud) s = .next t ∧ pinEntry s.cfg (s.link l).rxpin = some e ∧
        t = { s with links := t.links, ports := t.ports, active := some l, head := t.head,
                     tail := t.tail, resp := some ⟨.ok, 0⟩, hostSt := .free } ∧
        t.link l = { s.link l with
          init := true, rxc := (t.link l).rxc, rxi := (t.link l).rxi, rxs := (t.link l).rxs,
          txd := (t.link l).txd, ovf := (t.link l).ovf } ∧
        (∀ row ∈ timingRom s.cfg, row.baud = baud → (t.link l).FromRow row) ∧
        ((∀ row ∈ timingRom s.cfg, row.baud ≠ baud) → (t.link l).Disabled) ∧
        (∀ k, k ≠ l → t.link k = s.link k) ∧
        (s.active = some l →
          t.head = s.head ∧ t.tail = s.tail ∧ (t.link l).ovf = (s.link l).ovf) ∧
        (s.active ≠ some l → t.head = 0 ∧ t.tail = 0 ∧ (t.link l).ovf = false) ∧
        ∀ k p, s.ports[k]? = some p →
          ∃ q, t.ports[k]? = some q ∧ q = { p with pcmsk := q.pcmsk } ∧
            ∀ b, bitAt q.pcmsk b = true ↔ bitAt p.pcmsk b = true ∨
              ((∃ row ∈ timingRom s.cfg, row.baud = baud) ∧
                hasPcint s.cfg (s.link l).rxpin = true ∧ k = e.port ∧ b = e.bit))

/-! ### The registry (42_registry.md) -/

/-- ACTIVATE of a link that is not active empties the FIFO, clears that link's overflow flag only,
makes it active and answers 1; of the active link it answers 0 and changes nothing (R170, R171). -/
def Obligations.ActivateSwitchesOrKeeps : Prop :=
  ∀ (s : State) (l : LinkId),
    (¬ LinkExists s l → exec (.activate l) s = .next (answered s .noLink 0)) ∧
    (LinkExists s l → s.active = some l → exec (.activate l) s = .next (answered s .ok 0)) ∧
    (LinkExists s l → s.active ≠ some l →
      ∃ t, exec (.activate l) s = .next t ∧ SwitchedTo s t l 1)

/-- OVFL answers the link's overflow flag and changes nothing, the flag included (R173). -/
def Obligations.OvflReadsWithoutClearing : Prop :=
  ∀ (s : State) (l : LinkId),
    (¬ LinkExists s l → exec (.ovfl l) s = .next (answered s .noLink 0)) ∧
    (LinkExists s l →
      exec (.ovfl l) s = .next (answered s .ok (if (s.link l).ovf then 1 else 0)))

/-- `ACTIVE` never returns to `NONE` after the first activation (R172). -/
def Obligations.ActiveNeverReturnsToNone : Prop :=
  ∀ s t : State, step s = .next t → s.active ≠ none → t.active ≠ none

/-- An overflow flag is set only by the receive engine's commit, for the link it serves, and cleared
only where its link becomes the active one; a link that loses the registry keeps its flag (10_state.md
R36, R175). -/
def Obligations.OverflowFlagIsSticky : Prop :=
  ∀ s t : State, s.Inv → step s = .next t → ∀ l,
    ((t.link l).ovf = true → (s.link l).ovf = false →
      t.active = some l ∧ (s.tail + 1) % s.cfg.rxBufSize = s.head ∧ t.rxSt = .idle ∧ t.rxL = l) ∧
    ((t.link l).ovf = false → (s.link l).ovf = true → s.active ≠ some l ∧ t.active = some l)

/-! ### The receive FIFO (43_receive.md R195 to R203) -/

/-- READ of a link that was not active switches and answers none; of the active link it answers none
from an empty FIFO, else the byte at `HEAD`, and `HEAD` moves to the next slot (R201). -/
def Obligations.ReadTakesTheOldestByte : Prop :=
  ∀ (s : State) (l : LinkId),
    (¬ LinkExists s l → exec (.read l) s = .next (answered s .noLink 0)) ∧
    (LinkExists s l → s.active ≠ some l →
      ∃ t, exec (.read l) s = .next t ∧ SwitchedTo s t l 0xFFFFFFFF) ∧
    (LinkExists s l → s.active = some l → s.head = s.tail →
      exec (.read l) s = .next (answered s .ok 0xFFFFFFFF)) ∧
    (LinkExists s l → s.active = some l → s.head ≠ s.tail → s.head < s.cfg.rxBufSize →
      exec (.read l) s = .next (answered { s with head := (s.head + 1) % s.cfg.rxBufSize } .ok
        ((s.rxbuf.read s.head).zeroExtend 32)))

/-- AVAIL answers 0 just after a switch and else `(TAIL + RX_BUF_SIZE - HEAD) mod RX_BUF_SIZE`
(R202). A count that does not fit the 32-bit result has a free value (notes/assumptions/11.md). -/
def Obligations.AvailCountsTheFifo : Prop :=
  ∀ (s : State) (l : LinkId),
    (¬ LinkExists s l → exec (.avail l) s = .next (answered s .noLink 0)) ∧
    (LinkExists s l → s.active ≠ some l →
      ∃ t, exec (.avail l) s = .next t ∧ SwitchedTo s t l 0) ∧
    (LinkExists s l → s.active = some l →
      ∃ r, exec (.avail l) s = .next (answered s .ok r) ∧
        ((s.tail + s.cfg.rxBufSize - s.head) % s.cfg.rxBufSize < 2 ^ 32 →
          r.toNat = (s.tail + s.cfg.rxBufSize - s.head) % s.cfg.rxBufSize))

/-- FLUSH empties the FIFO: of the active link by clearing both indices, its overflow flag kept; of
another by the switch (R203). -/
def Obligations.FlushEmptiesTheFifo : Prop :=
  ∀ (s : State) (l : LinkId),
    (¬ LinkExists s l → exec (.flush l) s = .next (answered s .noLink 0)) ∧
    (LinkExists s l → s.active = some l →
      exec (.flush l) s = .next (answered { s with head := 0, tail := 0 } .ok 0)) ∧
    (LinkExists s l → s.active ≠ some l →
      ∃ t, exec (.flush l) s = .next t ∧ SwitchedTo s t l 0)

/-- The FIFO is a queue: a commit appends the byte while fewer than `RX_BUF_SIZE - 1` are held and
otherwise keeps the contents and sets the served link's overflow flag; READ of the active link
takes the oldest byte; AVAIL counts the contents (20_memory.md R94, R195 to R197, R201, R202). -/
def Obligations.FifoIsAQueue : Prop :=
  ∀ s : State, s.Inv →
    s.fifo.length ≤ s.cfg.rxBufSize - 1 ∧
    (∃ t, s.rxCommit = .ok t ∧
      (s.fifo.length < s.cfg.rxBufSize - 1 → t.fifo = s.fifo ++ [s.rxD] ∧ t.links = s.links) ∧
      (s.fifo.length = s.cfg.rxBufSize - 1 →
        t.fifo = s.fifo ∧ t.rxbuf = s.rxbuf ∧ t.head = s.head ∧ t.tail = s.tail ∧
        (t.link s.rxL).ovf = true)) ∧
    (∀ l, LinkExists s l → s.active = some l →
      (s.fifo = [] → exec (.read l) s = .next (answered s .ok 0xFFFFFFFF)) ∧
      (∀ v rest, s.fifo = v :: rest → ∃ t, exec (.read l) s = .next t ∧
        t.resp = some ⟨.ok, v.zeroExtend 32⟩ ∧ t.fifo = rest) ∧
      (s.fifo.length < 2 ^ 32 →
        exec (.avail l) s = .next (answered s .ok (BitVec.ofNat 32 s.fifo.length))))

/-- A step changes no byte of the receive RAM unless the receive engine acts in it, running or
dispatched to an active link, and returns with a byte committed: then the slot at `TAIL` holds that
byte, `TAIL` moves on, and every other slot reads as before (20_memory.md R80, R94). -/
def Obligations.OnlyTheCommitWritesTheRam : Prop :=
  ∀ s t : State, step s = .next t → s.rxbuf.wf = true →
    (∀ a, t.rxbuf.read a = s.rxbuf.read a) ∨
    (s.rxSt ≠ .idle ∨
        s.txSt = .idle ∧ s.phase1.pend = true ∧ s.ie = true ∧ s.active ≠ none) ∧
      t.rxSt = .idle ∧ t.ie = true ∧
      (s.tail + 1) % s.cfg.rxBufSize ≠ s.head ∧ t.tail = (s.tail + 1) % s.cfg.rxBufSize ∧
      s.tail < s.cfg.rxBufSize ∧ t.rxbuf.read s.tail = t.rxD ∧
      ∀ a, a ≠ s.tail → t.rxbuf.read a = s.rxbuf.read a

/-! ### The receive engine and its interrupt (43_receive.md, 60_exceptions.md) -/

/-- Dispatch clears `PEND`; with no active link nothing else changes; otherwise `IE` is cleared,
`RX_L` takes `ACTIVE`, and the engine waits `LAT_ENTRY` ticks or checks the line at once (R266). -/
def Obligations.DispatchTakesTheInterrupt : Prop :=
  ∀ s : State, s.cfg.WF → s.rxSt = .idle → s.txSt = .idle → s.phase1.pend = true → s.ie = true →
    let p := s.phase1
    (s.active = none → step s = .next ({ p with pend := false } : State).endTick) ∧
    (∀ l, s.active = some l →
      (0 < s.cfg.latEntry → step s = .next
        ({ p with pend := false, ie := false, rxL := l, rxSt := .entry,
                  dly := s.cfg.latEntry } : State).endTick) ∧
      (s.cfg.latEntry = 0 → step s = ticked (finish
        ({ p with pend := false, ie := false, rxL := l, rxSt := .entry } : State).rxEntryExpire)))

/-- The line check: a line that is not low is a spurious edge and returns from interrupt with
nothing else written; a low line clears `RX_D` and waits the centering delay (R191, R267). That the
wait of a link with a zero `RXC` has `D(0)` in it, where `D(0) > 0`, is the model's choice
(notes/assumptions/16.md; R204 speaks of the overhead only). -/
def Obligations.LineCheckSortsSpuriousEdges : Prop :=
  ∀ s : State, s.Inv → s.rxSt = .entry → s.dly = 1 →
    let p : State := { s.phase1 with dly := 0 }
    ∃ b, s.phase1.pinRead (s.link s.rxL).rxpin = .ok b ∧
      (b = true → step s = .next ({ p with rxSt := .idle, ie := true } : State).endTick) ∧
      (b = false → 0 < s.cfg.ovhRxStart + delayTicks s.cfg (s.link s.rxL).rxc →
        step s = .next ({ p with
          rxD := 0, rxSt := .center,
          dly := s.cfg.ovhRxStart + delayTicks s.cfg (s.link s.rxL).rxc } : State).endTick)

/-- Each data bit is sampled into its place, LSB first, and the engine waits one intrabit delay, or
after bit 7 the stop delay (R192, R193). That these waits of a link with a zero `RXI` or `RXS` have
`D(0)` in them, where `D(0) > 0`, is the model's choice (notes/assumptions/16.md; R204 speaks of the
overheads only). -/
def Obligations.BitsAreSampledLsbFirst : Prop :=
  ∀ s : State, s.Inv → s.dly = 1 →
    let p : State := { s.phase1 with dly := 0 }
    let b := delayTicks s.cfg (s.link s.rxL).rxi + s.cfg.ovhRxBit
    let st := delayTicks s.cfg (s.link s.rxL).rxs + s.cfg.ovhRxStop
    (s.rxSt = .center → 0 < b →
      step s = .next ({ p with rxI := 0, rxSt := .bit, dly := b } : State).endTick) ∧
    (s.rxSt = .bit → ∃ v d, s.phase1.pinRead (s.link s.rxL).rxpin = .ok v ∧
      (∀ j : Fin 8, d.getLsbD j.val = (s.rxD.getLsbD j.val || (decide (j = s.rxI) && v))) ∧
      (s.rxI.val < 7 → 0 < b →
        step s = .next ({ p with rxD := d, rxI := s.rxI + 1, rxSt := .bit, dly := b } : State).endTick) ∧
      (s.rxI = 7 → 0 < st →
        step s = .next ({ p with rxD := d, rxSt := .stop, dly := st } : State).endTick))

/-- At the end of the stop delay the byte is stored at `TAIL` where the FIFO has room, else the
served link's overflow flag is set and the byte dropped; either way the engine returns from
interrupt; the stop level is not read (R194, R195, R267). -/
def Obligations.CommitStoresOrDrops : Prop :=
  ∀ s : State, s.Inv → s.rxSt = .stop → s.dly = 1 →
    let p : State := { s.phase1 with dly := 0, rxSt := .idle, ie := true }
    ((s.tail + 1) % s.cfg.rxBufSize ≠ s.head →
      ∃ m, step s = .next ({ p with rxbuf := m, tail := (s.tail + 1) % s.cfg.rxBufSize } : State).endTick ∧
        ∀ a, m.read a = if a = s.tail then s.rxD else s.rxbuf.read a) ∧
    ((s.tail + 1) % s.cfg.rxBufSize = s.head →
      ∃ t, step s = .next t ∧ t = ({ p with links := t.links } : State).endTick ∧
        ∀ l, t.link l = if l = s.rxL then { s.link l with ovf := true } else s.link l)

/-- While the receive engine runs no second dispatch happens: the served link stays, edges only
latch, `IE` stays 0 until the return sets it, and nothing of the host or the transmit engine
changes but the response of the tick before (R268, R266, 10_state.md R45). -/
def Obligations.NoNestedDispatch : Prop :=
  ∀ s t : State, s.Inv → s.rxSt ≠ .idle → step s = .next t →
    t.rxL = s.rxL ∧ t.active = s.active ∧ t.pend = s.phase1.pend ∧ (s.pend = true → t.pend = true) ∧
    (t.ie = true ↔ t.rxSt = .idle) ∧ SameHost s.phase1 t ∧
    t.txSt = .idle ∧ t.txI = s.txI ∧ t.txD = s.txD ∧ t.txL = s.txL ∧ t.txSie = s.txSie ∧
    t.head = s.head

/-- From a dispatch in the next tick on, the line is checked at `te`, bit `i` is the line's level at
`te + OVH_RX_START + c + (i + 1)(b + OVH_RX_BIT)`, and the commit is `s + OVH_RX_STOP` ticks after
the last sample; a spurious entry returns at `te` and leaves the FIFO. Either way the host finds its
registers and its queue as they were, be it between commands, in a DELAY or between two frames of a
WRITEN, and no response was given (R198, R191 to R197, 60_exceptions.md R266, R271). The instants of
a link with zero constants where `D(0) > 0` are the model's choice (notes/assumptions/16.md; R204
speaks of the overheads only). -/
def Obligations.ReceiveFrameSampleInstants : Prop :=
  ∀ (s : State) (l : LinkId) (e : PinEntry), s.Inv → s.rxSt = .idle → s.txSt = .idle →
    s.phase1.pend = true → s.active = some l → pinEntry s.cfg (s.link l).rxpin = some e →
    let te := s.cfg.latEntry
    let c := s.cfg.ovhRxStart + delayTicks s.cfg (s.link l).rxc
    let b := delayTicks s.cfg (s.link l).rxi + s.cfg.ovhRxBit
    let st := delayTicks s.cfg (s.link l).rxs + s.cfg.ovhRxStop
    (lineLevel s e te = true →
      ∃ t, s.RunsTo (te + 1) t ∧ t.rxSt = .idle ∧ t.ie = true ∧
        t.head = s.head ∧ t.tail = s.tail ∧ t.rxbuf = s.rxbuf ∧ t.links = s.links ∧
        t.active = s.active ∧ HostKept s t ∧ t.resp = none) ∧
    (lineLevel s e te = false →
      ∃ t d, s.RunsTo (te + c + 8 * b + st + 1) t ∧ t.rxSt = .idle ∧ t.ie = true ∧
        (∀ i : Fin 8, d.getLsbD i.val = lineLevel s e (te + c + (i.val + 1) * b)) ∧
        t.head = s.head ∧ t.active = s.active ∧ HostKept s t ∧ t.resp = none ∧
        ((s.tail + 1) % s.cfg.rxBufSize ≠ s.head →
          t.rxbuf = s.rxbuf.write s.tail d ∧ t.tail = (s.tail + 1) % s.cfg.rxBufSize ∧
          t.links = s.links) ∧
        ((s.tail + 1) % s.cfg.rxBufSize = s.head →
          t.rxbuf = s.rxbuf ∧ t.tail = s.tail ∧
          ∀ k, t.link k = if k = l then { s.link k with ovf := true } else s.link k))

/-! ### The transmit engine (44_transmit.md) -/

/-- WRITE on a link with a transmit delay activates it, masks interrupts and starts the frame: it
waits `OVH_TX_START` ticks, or drives the start bit at once and waits one bit period, or with a
period of 0 ticks completes the frame in the tick; with no transmit delay it answers
`NOOP_WRITE_RESULT` and changes nothing (R235, R231). -/
def Obligations.WriteStartsAFrame : Prop :=
  ∀ (s : State) (l : LinkId) (v : Byte),
    (¬ LinkExists s l → exec (.write l v) s = .next (answered s .noLink 0)) ∧
    (LinkExists s l → (s.link l).txd = 0 →
      exec (.write l v) s =
        .next (answered s .ok (BitVec.ofNat 32 s.cfg.noopWriteResult.val))) ∧
    (s.Inv → LinkExists s l → (s.link l).txd ≠ 0 →
      let P := delayTicks s.cfg (s.link l).txd + s.cfg.ovhTxBit
      let f := frameRegs s l v []
      (0 < s.cfg.ovhTxStart →
        exec (.write l v) s = .next { f with txSt := .pre, dly := s.cfg.ovhTxStart }) ∧
      (s.cfg.ovhTxStart = 0 → 0 < P →
        ∃ u, f.pinWrite (s.link l).txpin false = .ok u ∧
          exec (.write l v) s = .next { u with txSt := .start, dly := P }) ∧
      (s.cfg.ovhTxStart = 0 → P = 0 →
        ∃ u, f.pinWrite (s.link l).txpin true = .ok u ∧
          exec (.write l v) s = .next { u with
            txSt := .idle, txI := 7, ie := s.ie, wnSum := 1,
            resp := some ⟨.ok, 1⟩, hostSt := .free }))

/-- WRITEN of no byte answers 0 and changes nothing; on a link with no transmit delay it answers
`CNT * NOOP_WRITE_RESULT`; else it starts the frame of its first byte with the others queued; a
host step with a byte due starts that byte's frame on the link already active, `WN_L`, `WN_SUM`,
`HOST_ST` and the FIFO kept (R236, R231). -/
def Obligations.WritenSendsOneFramePerByte : Prop :=
  (∀ (s : State) (l : LinkId) (bs : List Byte),
    (¬ LinkExists s l → exec (.writen l bs) s = .next (answered s .noLink 0)) ∧
    (LinkExists s l → exec (.writen l []) s = .next (answered s .ok 0)) ∧
    (LinkExists s l → (s.link l).txd = 0 → bs ≠ [] →
      exec (.writen l bs) s =
        .next (answered s .ok (BitVec.ofNat 32 (bs.length * s.cfg.noopWriteResult.val)))) ∧
    (∀ v rest, s.Inv → LinkExists s l → (s.link l).txd ≠ 0 → bs = v :: rest →
      let P := delayTicks s.cfg (s.link l).txd + s.cfg.ovhTxBit
      let f := frameRegs s l v rest
      (0 < s.cfg.ovhTxStart →
        exec (.writen l bs) s = .next { f with txSt := .pre, dly := s.cfg.ovhTxStart }) ∧
      (s.cfg.ovhTxStart = 0 → 0 < P →
        ∃ u, f.pinWrite (s.link l).txpin false = .ok u ∧
          exec (.writen l bs) s = .next { u with txSt := .start, dly := P }) ∧
      (s.cfg.ovhTxStart = 0 → P = 0 →
        ∃ u, f.pinWrite (s.link l).txpin true = .ok u ∧
          exec (.writen l bs) s = .next { u with
            txSt := .idle, txI := 7, ie := s.ie, wnSum := 1,
            resp := if rest = [] then some ⟨.ok, 1⟩ else s.resp,
            hostSt := if rest = [] then .free else .write }))) ∧
  (∀ (s : State) (v : Byte) (rest : List Byte), s.cfg.WF →
    s.rxSt = .idle → s.txSt = .idle → (s.phase1.pend = false ∨ s.ie = false) →
    s.hostSt = .write → s.wnQ = v :: rest →
    step s = ticked (finish ({ s.phase1 with wnQ := rest }.startFrame s.wnL v)) ∧
    (s.Inv →
      let P := delayTicks s.cfg (s.link s.wnL).txd + s.cfg.ovhTxBit
      let f : State := { s.phase1 with
        wnQ := rest, txL := s.wnL, txD := v, txSie := s.ie, ie := false }
      (0 < s.cfg.ovhTxStart →
        step s = .next ({ f with txSt := .pre, dly := s.cfg.ovhTxStart } : State).endTick) ∧
      (s.cfg.ovhTxStart = 0 → 0 < P →
        ∃ u, f.pinWrite (s.link s.wnL).txpin false = .ok u ∧
          step s = .next ({ u with txSt := .start, dly := P } : State).endTick) ∧
      (s.cfg.ovhTxStart = 0 → P = 0 →
        ∃ u, f.pinWrite (s.link s.wnL).txpin true = .ok u ∧
          step s = .next (frameEnded { u with txI := 7 } s.ie).endTick)))

/-- Each expiry of the transmit engine drives the next part of the frame, the start bit low, the
data bits LSB first, the stop bit high, and waits one bit period; with a bit period of 0 ticks the
rest of the frame runs in that tick, the pin ends high and the frame ends (R232 to R234,
40_timing_delay.md R134). -/
def Obligations.FrameIsDrivenLsbFirst : Prop :=
  ∀ s : State, s.Inv → s.dly = 1 → s.txSt ≠ .idle →
    let P := delayTicks s.cfg (s.link s.txL).txd + s.cfg.ovhTxBit
    let pin := (s.link s.txL).txpin
    let p : State := { s.phase1 with dly := 0 }
    (0 < P →
      (s.txSt = .pre → ∃ u, p.pinWrite pin false = .ok u ∧
        step s = .next ({ u with txSt := .start, dly := P } : State).endTick) ∧
      (s.txSt = .start → ∃ u, p.pinWrite pin (s.txD.getLsbD 0) = .ok u ∧
        step s = .next ({ u with txI := 0, txSt := .bit, dly := P } : State).endTick) ∧
      (s.txSt = .bit → s.txI.val < 7 →
        ∃ u, p.pinWrite pin (s.txD.getLsbD (s.txI.val + 1)) = .ok u ∧
          step s = .next ({ u with txI := s.txI + 1, txSt := .bit, dly := P } : State).endTick) ∧
      (s.txSt = .bit → s.txI = 7 → ∃ u, p.pinWrite pin true = .ok u ∧
        step s = .next ({ u with txSt := .stop, dly := P } : State).endTick)) ∧
    (P = 0 → s.txSt ≠ .stop → ∃ u, p.pinWrite pin true = .ok u ∧
      step s = .next (frameEnded { u with txI := 7 } s.txSie).endTick)

/-- At the frame's end `IE` takes its saved value, the engine is idle and the frame is counted; the
command answers `(OK, WN_SUM)` when no byte is left, else the host stays in `WRITE` (R234). -/
def Obligations.FrameEndRestoresInterrupts : Prop :=
  ∀ s : State, s.cfg.WF → s.rxSt = .idle → s.txSt = .stop → s.dly = 1 →
    let p : State := { s.phase1 with dly := 0, ie := s.txSie, txSt := .idle, wnSum := s.wnSum + 1 }
    (s.wnQ = [] → step s = .next (answered p .ok (s.wnSum + 1)).endTick) ∧
    (s.wnQ ≠ [] → step s = .next p.endTick)

/-- While a frame is sent, interrupts are suppressed: no dispatch happens, an edge is only latched,
the receive engine and the FIFO do not change, and `IE` stays 0 until the frame ends (R239,
60_exceptions.md R268). -/
def Obligations.TransmitSuppressesReception : Prop :=
  ∀ s t : State, s.Inv → s.txSt ≠ .idle → step s = .next t →
    t.rxSt = .idle ∧ t.rxL = s.rxL ∧ t.rxD = s.rxD ∧ t.rxI = s.rxI ∧ t.active = s.active ∧
    t.head = s.head ∧ t.tail = s.tail ∧ t.rxbuf = s.rxbuf ∧ t.links = s.links ∧
    t.pend = s.phase1.pend ∧ (s.pend = true → t.pend = true) ∧ (t.ie = true ↔ t.txSt = .idle)

/-- The transmit pin carries the waveform of R237 from the tick WRITE is accepted to the tick its
frame ends, `OVH_TX_START + 10 P` ticks later, which is the tick of the response `(OK, 1)`. -/
def Obligations.TransmitWaveform : Prop :=
  ∀ (s : State) (l : LinkId) (v : Byte) (e : PinEntry) (r : PortRegs),
    s.Inv → s.rxSt = .idle → s.txSt = .idle → s.hostSt = .free →
    LinkExists s l → (s.link l).txd ≠ 0 → pinEntry s.cfg (s.link l).txpin = some e →
    s.ports[e.port]? = some r → bitAt r.dir e.bit = true →
    let P := delayTicks s.cfg (s.link l).txd + s.cfg.ovhTxBit
    let ovh := s.cfg.ovhTxStart
    0 < P →
    ∃ t₀, exec (.write l v) s = .next t₀ ∧
      (∀ j, j ≤ ovh + 10 * P → ∃ t, t₀.endTick.RunsTo j t ∧
        t.drivenLevel (s.link l).txpin = some (waveform (bitAt r.out e.bit) v ovh P j) ∧
        (j < ovh + 10 * P → t.ie = false ∧ t.hostSt = .write)) ∧
      ∃ t, t₀.endTick.RunsTo (ovh + 10 * P) t ∧
        t.resp = some ⟨.ok, 1⟩ ∧ t.ie = true ∧ t.txSt = .idle ∧ t.hostSt = .free

/-- The loopback property: where the armed receive line of the active link, high in the tick before,
carries from the next tick on the waveform of a byte sent with bit period `P`, the start bit is
detected (the line check falls in it, which R238's own range does not say: notes/assumptions/15.md),
and every sample instant falls in its bit cell, the receive engine is dispatched in that tick and
commits exactly that byte, no command being accepted before the commit. With equal bit periods and
no overheads the condition is that the centering delay is below the period (R238). The sample
instants of a link with zero constants where `D(0) > 0` are the model's choice
(notes/assumptions/16.md; R204 speaks of the overheads only). -/
def Obligations.LoopbackReproducesTheByte : Prop :=
  (∀ (s : State) (l : LinkId) (e : PinEntry) (r : PortRegs) (v : Byte) (P : Nat),
    s.Inv → s.rxSt = .idle → s.txSt = .idle → 0 < s.t → s.active = some l →
    pinEntry s.cfg (s.link l).rxpin = some e → s.ports[e.port]? = some r →
    bitAt r.pcmsk e.bit = true → bitAt r.inp e.bit = true →
    let x := s.cfg.latEntry + s.cfg.ovhRxStart + delayTicks s.cfg (s.link l).rxc
    let b := delayTicks s.cfg (s.link l).rxi + s.cfg.ovhRxBit
    let n := x + 8 * b + delayTicks s.cfg (s.link l).rxs + s.cfg.ovhRxStop
    (∀ j, j ≤ n → lineLevel s e j = waveform true v 0 P j) →
    s.cfg.latEntry < P →
    (∀ i, i < 8 → (i + 1) * P ≤ x + (i + 1) * b ∧ x + (i + 1) * b < (i + 2) * P) →
    s.phase1.pend = true ∧
    ∃ t, s.RunsTo (n + 1) t ∧ t.rxSt = .idle ∧ t.ie = true ∧ t.rxD = v ∧ t.cmds = s.cmds ∧
      ((s.tail + 1) % s.cfg.rxBufSize ≠ s.head → t.fifo = s.fifo ++ [v])) ∧
  ∀ P c : Nat, (∀ i, i < 8 → (i + 1) * P ≤ c + (i + 1) * P ∧ c + (i + 1) * P < (i + 2) * P) ↔
    c < P

/-! ### Responses and checks (60_exceptions.md R260 to R264) -/

/-- A command that completes leaves the host free, with its response in that very tick; one that
completes with a status other than `OK`, ILLEGAL included, has result 0 and has changed no state
(R260). -/
def Obligations.ErrorStatusChangesNothing : Prop :=
  ∀ (c : CmdRecord) (s t : State) (r : Response), s.resp = none → s.hostSt = .free →
    s.accept c = .next t → t.resp = some r →
    t.hostSt = .free ∧ (r.status ≠ .ok → r.result = 0 ∧ t = { s with resp := some r })

/-- A command reports the first check it fails: ILLEGAL, then NO_LINK, then for CREATE
LINK_EXISTS, then BAD_PIN (R261). -/
def Obligations.ChecksAreMadeInOrder : Prop :=
  ∀ (s : State) (l : LinkId),
    (∀ r, ¬ FitsTable r → s.accept r = .next (answered s .illegal 0)) ∧
    (¬ LinkExists s l → ∀ i : Instr, (∃ baud, i = .begin l baud) ∨ (∃ v, i = .write l v) ∨
        (∃ bs, i = .writen l bs) ∨ i = .read l ∨ i = .avail l ∨ i = .flush l ∨ i = .activate l ∨
        i = .ovfl l →
      exec i s = .next (answered s .noLink 0)) ∧
    (∀ rx tx, exec (.create l rx tx) s =
      if s.cfg.nLinks ≤ l.toNat then .next (answered s .noLink 0)
      else if (s.link l).exists_ then .next (answered s .linkExists 0)
      else if pinEntry s.cfg rx = none ∨ pinEntry s.cfg tx = none ∨ rx = tx then
        .next (answered s .badPin 0)
      else finish (s.createLink l rx tx))

/-! ### Frames -/

/-- What ACTIVATE, OVFL, READ, AVAIL and FLUSH leave: everything but `HEAD`, `TAIL`, `ACTIVE`, the
named link's `OVF`, and the response; OVFL leaves those too; every byte of the receive RAM reads as
before (R170, R173, R201 to R203). -/
def Obligations.RegistryAndFifoCommandsFrame : Prop :=
  ∀ (i : Instr) (l : LinkId) (s t : State),
    i = .activate l ∨ i = .ovfl l ∨ i = .read l ∨ i = .avail l ∨ i = .flush l →
    exec i s = .next t →
    t = { s with links := t.links, active := t.active, head := t.head, tail := t.tail,
                 resp := t.resp, hostSt := .free } ∧
    (∀ k, k ≠ l → t.link k = s.link k) ∧ t.link l = { s.link l with ovf := (t.link l).ovf } ∧
    (i = .ovfl l → t.links = s.links ∧ t.active = s.active ∧ t.head = s.head ∧ t.tail = s.tail) ∧
    ∀ a, t.rxbuf.read a = s.rxbuf.read a

/-- What CREATE and BEGIN leave: CREATE writes the named link's pins and `EXISTS`, and `PORT_OUT`
and `PORT_DIR`; BEGIN writes the named link's `INIT`, constants and `OVF`, `ACTIVE`, `HEAD`, `TAIL`
and `PCMSK`; every byte of the receive RAM reads as before (R154, R155). -/
def Obligations.LinkConfigurationFrame : Prop :=
  ∀ (i : Instr) (l : LinkId) (s t : State),
    (∃ rx tx, i = .create l rx tx) ∨ (∃ baud, i = .begin l baud) → exec i s = .next t →
    t = { s with links := t.links, active := t.active, head := t.head, tail := t.tail,
                 ports := t.ports, resp := t.resp, hostSt := .free } ∧
    (∀ k, k ≠ l → t.link k = s.link k) ∧
    (∀ a, t.rxbuf.read a = s.rxbuf.read a) ∧
    (∀ (k : Nat) (p : PortRegs), s.ports[k]? = some p → ∃ q : PortRegs, t.ports[k]? = some q ∧ q.inp = p.inp ∧ q.prev = p.prev ∧
      ((∃ rx tx, i = .create l rx tx) → q.pcmsk = p.pcmsk) ∧
      ((∃ baud, i = .begin l baud) → q.out = p.out ∧ q.dir = p.dir)) ∧
    ((∃ rx tx, i = .create l rx tx) →
      t.active = s.active ∧ t.head = s.head ∧ t.tail = s.tail ∧
      t.link l = { s.link l with exists_ := (t.link l).exists_, rxpin := (t.link l).rxpin,
                                 txpin := (t.link l).txpin }) ∧
    ((∃ baud, i = .begin l baud) →
      (t.link l).exists_ = (s.link l).exists_ ∧ (t.link l).rxpin = (s.link l).rxpin ∧
      (t.link l).txpin = (s.link l).txpin)

/-- What WRITE, WRITEN and DELAY leave when accepted: the receive engine's registers, `PEND`, every
other link, the named link but for `OVF`, the ports but for output latches, and every byte of the
receive RAM; DELAY leaves all but `HDLY`, `HOST_ST` and the response (R137, R231, R235, R236). -/
def Obligations.BlockingCommandsFrame : Prop :=
  ∀ (i : Instr) (s t : State), exec i s = .next t →
    (∀ cnt, i = .delay cnt →
      t = { s with hdly := t.hdly, hostSt := t.hostSt, resp := t.resp }) ∧
    (∀ l, (∃ v, i = .write l v) ∨ (∃ bs, i = .writen l bs) →
      t = { s with links := t.links, active := t.active, ie := t.ie, head := t.head,
                   tail := t.tail, ports := t.ports, dly := t.dly, txSt := t.txSt, txI := t.txI,
                   txD := t.txD, txL := t.txL, txSie := t.txSie, hostSt := t.hostSt, wnL := t.wnL,
                   wnQ := t.wnQ, wnSum := t.wnSum, resp := t.resp } ∧
      (∀ k, k ≠ l → t.link k = s.link k) ∧ t.link l = { s.link l with ovf := (t.link l).ovf } ∧
      (∀ (k : Nat) (p : PortRegs), s.ports[k]? = some p →
        ∃ q : PortRegs, t.ports[k]? = some q ∧ q = { p with out := q.out }) ∧
      ∀ a, t.rxbuf.read a = s.rxbuf.read a)

/-! ### The whole machine -/

/-- No step changes the configuration (00_scope.md R10, 40_timing_delay.md R130), and each moves the
tick counter on by one (10_state.md R60). -/
def Obligations.ConfigurationIsFixed : Prop :=
  ∀ s t : State, step s = .next t → t.cfg = s.cfg ∧ t.t = s.t + 1

/-- `EXISTS` and `INIT` never return to 0, and a created link keeps its pins (10_state.md R32, R33,
41_pins_links.md R154). -/
def Obligations.ExistsAndInitAreSticky : Prop :=
  ∀ s t : State, step s = .next t → ∀ l,
    ((s.link l).exists_ = true → (t.link l).exists_ = true ∧
      (t.link l).rxpin = (s.link l).rxpin ∧ (t.link l).txpin = (s.link l).txpin) ∧
    ((s.link l).init = true → (t.link l).init = true)

/-- The states right after reset meet the invariant, whatever the elements hold that the spec leaves
unspecified, and `State.reset` is such a state (70_reset_and_hazards.md R301, 10_state.md R54). -/
def Obligations.ResetMeetsTheInvariant : Prop :=
  (∀ s : State, s.cfg.WF → s.IsReset → s.Inv) ∧ State.reset.IsReset ∧ State.reset.cfg.WF

/-- The reset event takes any state whose RAM list and port groups are well formed to a reset state,
under the configuration it had (70_reset_and_hazards.md R300). -/
def Obligations.ResetEventReachesReset : Prop :=
  ∀ s : State, s.ports.length = s.cfg.nPorts → s.rxbuf.wf = true →
    (∀ c ∈ s.rxbuf, c.1 < s.cfg.rxBufSize) →
    s.applyReset.IsReset ∧ s.applyReset.cfg = s.cfg

/-- Every step from a state that meets the invariant of 10_state.md R54 gives a state that meets
it. -/
def Obligations.StepKeepsTheInvariant : Prop :=
  ∀ s t : State, s.Inv → step s = .next t → t.Inv

/-- The core has no run-time fault: every state that meets the invariant has a next state
(60_exceptions.md R264). -/
def Obligations.NoRunTimeFault : Prop :=
  ∀ s : State, s.Inv → ∃ t, step s = .next t

/-- An ill-formed configuration is refused and has no runs (00_scope.md R12). -/
def Obligations.IllFormedConfigurationIsRefused : Prop :=
  ∀ s : State, ¬ s.cfg.WF → step s = .refused .illFormedConfig

/-! ### The assembler (30_encoding.md R115, R116, R121) -/

/-- Each of the ten forms of R115, its operands read: where they fit, the line assembles to the
command word R115 writes out, with the operand words it asks for, a WRITEN's packed as R104 says;
where one does not fit, or a WRITEN list is longer than 65535, it is rejected (R115, R116). That a
WRITEN list may be empty, which R115's form does not write, is the model's choice
(notes/assumptions/13.md). -/
def Obligations.AssembledWordsAreTheForms : Prop :=
  (∀ l rx tx : Nat,
    (l ≤ 15 → rx ≤ 255 → tx ≤ 255 → ∃ i, assemble (.create l rx tx) = .ok i ∧
      (encode i).word.toNat = 1 * 2 ^ 28 + l * 2 ^ 24 + rx * 2 ^ 16 + tx * 2 ^ 8 ∧
      (encode i).ops = []) ∧
    (15 < l ∨ 255 < rx ∨ 255 < tx → ∃ e, assemble (.create l rx tx) = .error e)) ∧
  (∀ l baud : Nat,
    (l ≤ 15 → baud < 2 ^ 32 → ∃ i, assemble (.begin l baud) = .ok i ∧
      (encode i).word.toNat = 2 * 2 ^ 28 + l * 2 ^ 24 ∧ (encode i).ops.map BitVec.toNat = [baud]) ∧
    (15 < l ∨ 2 ^ 32 ≤ baud → ∃ e, assemble (.begin l baud) = .error e)) ∧
  (∀ l b : Nat,
    (l ≤ 15 → b ≤ 255 → ∃ i, assemble (.write l b) = .ok i ∧
      (encode i).word.toNat = 3 * 2 ^ 28 + l * 2 ^ 24 + b ∧ (encode i).ops = []) ∧
    (15 < l ∨ 255 < b → ∃ e, assemble (.write l b) = .error e)) ∧
  (∀ (l : Nat) (bs : List Nat),
    (l ≤ 15 → bs.length ≤ 65535 → (∀ b ∈ bs, b ≤ 255) → ∃ i, assemble (.writen l bs) = .ok i ∧
      (encode i).word.toNat = 4 * 2 ^ 28 + l * 2 ^ 24 + bs.length ∧
      (encode i).ops.length = (bs.length + 3) / 4 ∧
      ∀ j b, bs[j]? = some b → ∃ w, (encode i).ops[j / 4]? = some w ∧
        w.toNat / 2 ^ (8 * (j % 4)) % 256 = b) ∧
    (15 < l ∨ 65535 < bs.length ∨ (∃ b ∈ bs, 255 < b) →
      ∃ e, assemble (.writen l bs) = .error e)) ∧
  (∀ (l opc : Nat) (line : AsmLine),
    (opc = 5 ∧ line = .read l) ∨ (opc = 6 ∧ line = .avail l) ∨ (opc = 7 ∧ line = .flush l) ∨
      (opc = 8 ∧ line = .activate l) ∨ (opc = 9 ∧ line = .ovfl l) →
    (l ≤ 15 → ∃ i, assemble line = .ok i ∧
      (encode i).word.toNat = opc * 2 ^ 28 + l * 2 ^ 24 ∧ (encode i).ops = []) ∧
    (15 < l → ∃ e, assemble line = .error e)) ∧
  (∀ n : Nat,
    (n ≤ 65535 → ∃ i, assemble (.delay n) = .ok i ∧
      (encode i).word.toNat = 10 * 2 ^ 28 + n ∧ (encode i).ops = []) ∧
    (65535 < n → ∃ e, assemble (.delay n) = .error e))

/-- `NOTEON Ln, ch, pitch, vel` expands to WRITEN of a status byte 0x9c and two bytes below 0x80,
whatever the operands (R121). -/
def Obligations.NoteOnIsAThreeByteWriten : Prop :=
  ∀ l ch pitch vel : Nat, l ≤ 15 → ∃ a b c : Byte,
    assemble (.noteOn l ch pitch vel) = .ok (.writen (BitVec.ofNat 4 l) [a, b, c]) ∧
    a.toNat = 0x90 + ch % 16 ∧ b.toNat = pitch % 128 ∧ c.toNat = vel % 128

/-! ### The result of a command that takes many ticks (44_transmit.md R234, R235, R236) -/

/-- WRITE or WRITEN of `n` bytes on a link that can transmit answers `(OK, n)`, at once or at the end
of its last frame: accepting it leaves `n` frames to answer for, and no step while it is under way,
a dispatch or a receive frame among them, changes that number or answers anything else (R234 to
R236, 60_exceptions.md R271). -/
def Obligations.WriteAnswersItsNumberOfBytes : Prop :=
  (∀ (s : State) (l : LinkId) (bs : List Byte) (i : Instr), s.Inv → LinkExists s l →
    (s.link l).txd ≠ 0 → bs ≠ [] → (i = .writen l bs ∨ ∃ v, bs = [v] ∧ i = .write l v) →
    ∃ t, exec i s = .next t ∧
      (t.hostSt = .write ∧ t.wnL = l ∧ t.resp = s.resp ∧ framesOf t = BitVec.ofNat 32 bs.length ∨
        t.hostSt = .free ∧ t.resp = some ⟨.ok, BitVec.ofNat 32 bs.length⟩)) ∧
  ∀ s t : State, s.hostSt = .write → step s = .next t →
    t.hostSt = .write ∧ t.wnL = s.wnL ∧ t.resp = none ∧ framesOf t = framesOf s ∨
    t.hostSt = .free ∧ t.resp = some ⟨.ok, framesOf s⟩
end

