-- ==== Sys2Proof/Laws/Decode.lean ====
section
/-! SUPPORT. The laws of the command encoding: the fields of the words the encoder writes, and the
packing of bytes into payload words (30_encoding.md R101 to R105). -/

namespace Sys2Proof

/-- The operation of an instruction. -/
def Instr.opcode : Instr → Opcode
  | .create _ _ _ => .create
  | .begin _ _ => .begin
  | .write _ _ => .write
  | .writen _ _ => .writen
  | .read _ => .read
  | .avail _ => .avail
  | .flush _ => .flush
  | .activate _ => .activate
  | .ovfl _ => .ovfl
  | .delay _ => .delay

/-- The opcode map is the same read both ways (R106). -/
theorem opcode_ofBits_iff (b : BitVec 4) (o : Opcode) : Opcode.ofBits b = some o ↔ b = o.code := by
  revert b; cases o <;> decide

@[simp] theorem opcode_ofBits_code (o : Opcode) : Opcode.ofBits o.code = some o :=
  (opcode_ofBits_iff _ _).2 rfl

/-! ### Fields of a word put together from its parts -/

/-- Bits above the low part are those of the high part. -/
theorem extract_skip {n m : Nat} (x : BitVec n) (c : BitVec m) (s k : Nat) :
    (x ++ c).extractLsb' (m + s) k = x.extractLsb' s k := by
  apply BitVec.eq_of_getLsbD_eq
  intro i hi
  simp [BitVec.getLsbD_append, hi, show ¬ m + s + i < m by omega,
    show m + s + i - m = s + i by omega]

/-- Bits inside the low part are those of the low part. -/
theorem extract_low {n m : Nat} (x : BitVec n) (c : BitVec m) (s k : Nat) (h : s + k ≤ m) :
    (x ++ c).extractLsb' s k = c.extractLsb' s k := by
  apply BitVec.eq_of_getLsbD_eq
  intro i hi
  simp [BitVec.getLsbD_append, hi, show s + i < m by omega]

/-- The low part itself. -/
theorem extract_part {n m : Nat} (x : BitVec n) (c : BitVec m) : (x ++ c).extractLsb' 0 m = c := by
  rw [extract_low x c 0 m (by omega), BitVec.extractLsb'_eq_self]

/-- The high part itself. -/
theorem extract_high {n m : Nat} (x : BitVec n) (c : BitVec m) : (x ++ c).extractLsb' m n = x := by
  have := extract_skip x c 0 n
  rwa [Nat.add_zero, BitVec.extractLsb'_eq_self] at this

/-- A word with a zero field has no bit of that field's mask set (R108). -/
theorem and_mask_zero {w : Word} (m : Word) (s k : Nat)
    (hm : ∀ i : Fin 32, m.getLsbD i.val = decide (s ≤ i.val ∧ i.val < s + k))
    (hw : w.extractLsb' s k = 0) : w &&& m = 0 := by
  apply BitVec.eq_of_getLsbD_eq
  intro i hi
  rw [BitVec.getLsbD_and, hm ⟨i, hi⟩]
  by_cases h : s ≤ i ∧ i < s + k
  · have := congrArg (BitVec.getLsbD · (i - s)) hw
    simp [show i - s < k by omega, show s + (i - s) = i by omega] at this
    simp [this]
  · simp only [h, decide_false, Bool.and_false]; simp

/-! ### Payload words -/

theorem wordBytes_pack (a b c d : Byte) : wordBytes (d ++ c ++ b ++ a) = [a, b, c, d] := by
  have h0 : (d ++ c ++ b ++ a).extractLsb' 0 8 = a := extract_part _ a
  have h1 : (d ++ c ++ b ++ a).extractLsb' 8 8 = b :=
    (extract_skip (d ++ c ++ b) a 0 8).trans (extract_part _ b)
  have h2 : (d ++ c ++ b ++ a).extractLsb' 16 8 = c :=
    (extract_skip (d ++ c ++ b) a 8 8).trans ((extract_skip (d ++ c) b 0 8).trans (extract_part _ c))
  have h3 : (d ++ c ++ b ++ a).extractLsb' 24 8 = d :=
    (extract_skip (d ++ c ++ b) a 16 8).trans
      ((extract_skip (d ++ c) b 8 8).trans (extract_high d c))
  exact congrArg₂ _ h0 (congrArg₂ _ h1 (congrArg₂ _ h2 (congrArg₂ _ h3 rfl)))

/-- Packed bytes, unpacked to their own number, are the bytes (R104). -/
theorem payload_packBytes (bs : List Byte) : payload (packBytes bs) bs.length = bs := by
  unfold payload
  fun_induction packBytes bs with
  | case1 => rfl
  | case2 a => rw [List.flatMap_singleton, wordBytes_pack]; rfl
  | case3 a b => rw [List.flatMap_singleton, wordBytes_pack]; rfl
  | case4 a b c => rw [List.flatMap_singleton, wordBytes_pack]; rfl
  | case5 a b c d rest ih => simp [wordBytes_pack, ih]

/-- The number of payload words, `ceil(CNT/4)` (R105). -/
theorem packBytes_length (bs : List Byte) : (packBytes bs).length = (bs.length + 3) / 4 := by
  fun_induction packBytes bs with
  | case1 => rfl
  | case2 a => simp
  | case3 a b => simp
  | case4 a b c => simp
  | case5 a b c d rest ih => simp [ih]; omega

theorem wordBytes_length (w : Word) : (wordBytes w).length = 4 := rfl

theorem flatMap_wordBytes_length (ops : List Word) :
    (ops.flatMap wordBytes).length = 4 * ops.length := by
  induction ops with
  | nil => rfl
  | cons w rest ih => simp [List.flatMap_cons, wordBytes_length, ih]; omega

theorem flatMap_wordBytes_getElem? (ops : List Word) (j : Nat) (h : j < 4 * ops.length) :
    (ops.flatMap wordBytes)[j]? =
      some ((ops.getD (j / 4) 0).extractLsb' (8 * (j % 4)) 8) := by
  induction ops generalizing j with
  | nil => simp at h
  | cons w rest ih =>
    rw [List.flatMap_cons]
    rcases lt_or_ge j 4 with h4 | h4
    · rw [List.getElem?_append_left (by simpa [wordBytes_length] using h4)]
      interval_cases j <;> rfl
    · rw [List.getElem?_append_right (by simpa [wordBytes_length] using h4), wordBytes_length,
        ih (j - 4) (by simp at h; omega)]
      obtain ⟨k, rfl⟩ : ∃ k, j = k + 4 := ⟨j - 4, by omega⟩
      simp

end Sys2Proof
end

