-- ==== Sys2Proof/Laws/State.lean ====
section
/-! SUPPORT. One lemma per field per named update of the state, true by rfl, so that no later proof
unfolds a record update. -/

namespace Sys2Proof.Machine

variable (s : State)

/-! ### respond -/

@[simp] theorem respond_cfg (st : Status) (r : Word) : (s.respond st r).cfg = s.cfg := rfl
@[simp] theorem respond_t (st : Status) (r : Word) : (s.respond st r).t = s.t := rfl
@[simp] theorem respond_links (st : Status) (r : Word) : (s.respond st r).links = s.links := rfl
@[simp] theorem respond_active (st : Status) (r : Word) : (s.respond st r).active = s.active := rfl
@[simp] theorem respond_ie (st : Status) (r : Word) : (s.respond st r).ie = s.ie := rfl
@[simp] theorem respond_pend (st : Status) (r : Word) : (s.respond st r).pend = s.pend := rfl
@[simp] theorem respond_head (st : Status) (r : Word) : (s.respond st r).head = s.head := rfl
@[simp] theorem respond_tail (st : Status) (r : Word) : (s.respond st r).tail = s.tail := rfl
@[simp] theorem respond_rxbuf (st : Status) (r : Word) : (s.respond st r).rxbuf = s.rxbuf := rfl
@[simp] theorem respond_ports (st : Status) (r : Word) : (s.respond st r).ports = s.ports := rfl
@[simp] theorem respond_rxSt (st : Status) (r : Word) : (s.respond st r).rxSt = s.rxSt := rfl
@[simp] theorem respond_rxI (st : Status) (r : Word) : (s.respond st r).rxI = s.rxI := rfl
@[simp] theorem respond_rxD (st : Status) (r : Word) : (s.respond st r).rxD = s.rxD := rfl
@[simp] theorem respond_rxL (st : Status) (r : Word) : (s.respond st r).rxL = s.rxL := rfl
@[simp] theorem respond_dly (st : Status) (r : Word) : (s.respond st r).dly = s.dly := rfl
@[simp] theorem respond_hdly (st : Status) (r : Word) : (s.respond st r).hdly = s.hdly := rfl
@[simp] theorem respond_txSt (st : Status) (r : Word) : (s.respond st r).txSt = s.txSt := rfl
@[simp] theorem respond_txI (st : Status) (r : Word) : (s.respond st r).txI = s.txI := rfl
@[simp] theorem respond_txD (st : Status) (r : Word) : (s.respond st r).txD = s.txD := rfl
@[simp] theorem respond_txL (st : Status) (r : Word) : (s.respond st r).txL = s.txL := rfl
@[simp] theorem respond_txSie (st : Status) (r : Word) : (s.respond st r).txSie = s.txSie := rfl
@[simp] theorem respond_hostSt (st : Status) (r : Word) : (s.respond st r).hostSt = .free := rfl
@[simp] theorem respond_wnL (st : Status) (r : Word) : (s.respond st r).wnL = s.wnL := rfl
@[simp] theorem respond_wnQ (st : Status) (r : Word) : (s.respond st r).wnQ = s.wnQ := rfl
@[simp] theorem respond_wnSum (st : Status) (r : Word) : (s.respond st r).wnSum = s.wnSum := rfl
@[simp] theorem respond_resp (st : Status) (r : Word) : (s.respond st r).resp = some ⟨st, r⟩ := rfl
@[simp] theorem respond_cmds (st : Status) (r : Word) : (s.respond st r).cmds = s.cmds := rfl
@[simp] theorem respond_env (st : Status) (r : Word) : (s.respond st r).env = s.env := rfl
@[simp] theorem respond_link (st : Status) (r : Word) (k : LinkId) : (s.respond st r).link k = s.link k := rfl
@[simp] theorem respond_hasLink (st : Status) (r : Word) (k : LinkId) : (s.respond st r).hasLink k = s.hasLink k := rfl

/-! ### raise -/

@[simp] theorem raise_cfg (st : Status) : (s.raise st).cfg = s.cfg := rfl
@[simp] theorem raise_t (st : Status) : (s.raise st).t = s.t := rfl
@[simp] theorem raise_links (st : Status) : (s.raise st).links = s.links := rfl
@[simp] theorem raise_active (st : Status) : (s.raise st).active = s.active := rfl
@[simp] theorem raise_ie (st : Status) : (s.raise st).ie = s.ie := rfl
@[simp] theorem raise_pend (st : Status) : (s.raise st).pend = s.pend := rfl
@[simp] theorem raise_head (st : Status) : (s.raise st).head = s.head := rfl
@[simp] theorem raise_tail (st : Status) : (s.raise st).tail = s.tail := rfl
@[simp] theorem raise_rxbuf (st : Status) : (s.raise st).rxbuf = s.rxbuf := rfl
@[simp] theorem raise_ports (st : Status) : (s.raise st).ports = s.ports := rfl
@[simp] theorem raise_rxSt (st : Status) : (s.raise st).rxSt = s.rxSt := rfl
@[simp] theorem raise_rxI (st : Status) : (s.raise st).rxI = s.rxI := rfl
@[simp] theorem raise_rxD (st : Status) : (s.raise st).rxD = s.rxD := rfl
@[simp] theorem raise_rxL (st : Status) : (s.raise st).rxL = s.rxL := rfl
@[simp] theorem raise_dly (st : Status) : (s.raise st).dly = s.dly := rfl
@[simp] theorem raise_hdly (st : Status) : (s.raise st).hdly = s.hdly := rfl
@[simp] theorem raise_txSt (st : Status) : (s.raise st).txSt = s.txSt := rfl
@[simp] theorem raise_txI (st : Status) : (s.raise st).txI = s.txI := rfl
@[simp] theorem raise_txD (st : Status) : (s.raise st).txD = s.txD := rfl
@[simp] theorem raise_txL (st : Status) : (s.raise st).txL = s.txL := rfl
@[simp] theorem raise_txSie (st : Status) : (s.raise st).txSie = s.txSie := rfl
@[simp] theorem raise_hostSt (st : Status) : (s.raise st).hostSt = .free := rfl
@[simp] theorem raise_wnL (st : Status) : (s.raise st).wnL = s.wnL := rfl
@[simp] theorem raise_wnQ (st : Status) : (s.raise st).wnQ = s.wnQ := rfl
@[simp] theorem raise_wnSum (st : Status) : (s.raise st).wnSum = s.wnSum := rfl
@[simp] theorem raise_resp (st : Status) : (s.raise st).resp = some ⟨st, 0⟩ := rfl
@[simp] theorem raise_cmds (st : Status) : (s.raise st).cmds = s.cmds := rfl
@[simp] theorem raise_env (st : Status) : (s.raise st).env = s.env := rfl
@[simp] theorem raise_link (st : Status) (k : LinkId) : (s.raise st).link k = s.link k := rfl
@[simp] theorem raise_hasLink (st : Status) (k : LinkId) : (s.raise st).hasLink k = s.hasLink k := rfl

/-! ### setLink -/

@[simp] theorem setLink_cfg (l : LinkId) (r : LinkRegs) : (s.setLink l r).cfg = s.cfg := rfl
@[simp] theorem setLink_t (l : LinkId) (r : LinkRegs) : (s.setLink l r).t = s.t := rfl
@[simp] theorem setLink_active (l : LinkId) (r : LinkRegs) : (s.setLink l r).active = s.active := rfl
@[simp] theorem setLink_ie (l : LinkId) (r : LinkRegs) : (s.setLink l r).ie = s.ie := rfl
@[simp] theorem setLink_pend (l : LinkId) (r : LinkRegs) : (s.setLink l r).pend = s.pend := rfl
@[simp] theorem setLink_head (l : LinkId) (r : LinkRegs) : (s.setLink l r).head = s.head := rfl
@[simp] theorem setLink_tail (l : LinkId) (r : LinkRegs) : (s.setLink l r).tail = s.tail := rfl
@[simp] theorem setLink_rxbuf (l : LinkId) (r : LinkRegs) : (s.setLink l r).rxbuf = s.rxbuf := rfl
@[simp] theorem setLink_ports (l : LinkId) (r : LinkRegs) : (s.setLink l r).ports = s.ports := rfl
@[simp] theorem setLink_rxSt (l : LinkId) (r : LinkRegs) : (s.setLink l r).rxSt = s.rxSt := rfl
@[simp] theorem setLink_rxI (l : LinkId) (r : LinkRegs) : (s.setLink l r).rxI = s.rxI := rfl
@[simp] theorem setLink_rxD (l : LinkId) (r : LinkRegs) : (s.setLink l r).rxD = s.rxD := rfl
@[simp] theorem setLink_rxL (l : LinkId) (r : LinkRegs) : (s.setLink l r).rxL = s.rxL := rfl
@[simp] theorem setLink_dly (l : LinkId) (r : LinkRegs) : (s.setLink l r).dly = s.dly := rfl
@[simp] theorem setLink_hdly (l : LinkId) (r : LinkRegs) : (s.setLink l r).hdly = s.hdly := rfl
@[simp] theorem setLink_txSt (l : LinkId) (r : LinkRegs) : (s.setLink l r).txSt = s.txSt := rfl
@[simp] theorem setLink_txI (l : LinkId) (r : LinkRegs) : (s.setLink l r).txI = s.txI := rfl
@[simp] theorem setLink_txD (l : LinkId) (r : LinkRegs) : (s.setLink l r).txD = s.txD := rfl
@[simp] theorem setLink_txL (l : LinkId) (r : LinkRegs) : (s.setLink l r).txL = s.txL := rfl
@[simp] theorem setLink_txSie (l : LinkId) (r : LinkRegs) : (s.setLink l r).txSie = s.txSie := rfl
@[simp] theorem setLink_hostSt (l : LinkId) (r : LinkRegs) : (s.setLink l r).hostSt = s.hostSt := rfl
@[simp] theorem setLink_wnL (l : LinkId) (r : LinkRegs) : (s.setLink l r).wnL = s.wnL := rfl
@[simp] theorem setLink_wnQ (l : LinkId) (r : LinkRegs) : (s.setLink l r).wnQ = s.wnQ := rfl
@[simp] theorem setLink_wnSum (l : LinkId) (r : LinkRegs) : (s.setLink l r).wnSum = s.wnSum := rfl
@[simp] theorem setLink_resp (l : LinkId) (r : LinkRegs) : (s.setLink l r).resp = s.resp := rfl
@[simp] theorem setLink_cmds (l : LinkId) (r : LinkRegs) : (s.setLink l r).cmds = s.cmds := rfl
@[simp] theorem setLink_env (l : LinkId) (r : LinkRegs) : (s.setLink l r).env = s.env := rfl

/-! ### setOvf -/

@[simp] theorem setOvf_cfg (l : LinkId) (v : Bool) : (s.setOvf l v).cfg = s.cfg := rfl
@[simp] theorem setOvf_t (l : LinkId) (v : Bool) : (s.setOvf l v).t = s.t := rfl
@[simp] theorem setOvf_active (l : LinkId) (v : Bool) : (s.setOvf l v).active = s.active := rfl
@[simp] theorem setOvf_ie (l : LinkId) (v : Bool) : (s.setOvf l v).ie = s.ie := rfl
@[simp] theorem setOvf_pend (l : LinkId) (v : Bool) : (s.setOvf l v).pend = s.pend := rfl
@[simp] theorem setOvf_head (l : LinkId) (v : Bool) : (s.setOvf l v).head = s.head := rfl
@[simp] theorem setOvf_tail (l : LinkId) (v : Bool) : (s.setOvf l v).tail = s.tail := rfl
@[simp] theorem setOvf_rxbuf (l : LinkId) (v : Bool) : (s.setOvf l v).rxbuf = s.rxbuf := rfl
@[simp] theorem setOvf_ports (l : LinkId) (v : Bool) : (s.setOvf l v).ports = s.ports := rfl
@[simp] theorem setOvf_rxSt (l : LinkId) (v : Bool) : (s.setOvf l v).rxSt = s.rxSt := rfl
@[simp] theorem setOvf_rxI (l : LinkId) (v : Bool) : (s.setOvf l v).rxI = s.rxI := rfl
@[simp] theorem setOvf_rxD (l : LinkId) (v : Bool) : (s.setOvf l v).rxD = s.rxD := rfl
@[simp] theorem setOvf_rxL (l : LinkId) (v : Bool) : (s.setOvf l v).rxL = s.rxL := rfl
@[simp] theorem setOvf_dly (l : LinkId) (v : Bool) : (s.setOvf l v).dly = s.dly := rfl
@[simp] theorem setOvf_hdly (l : LinkId) (v : Bool) : (s.setOvf l v).hdly = s.hdly := rfl
@[simp] theorem setOvf_txSt (l : LinkId) (v : Bool) : (s.setOvf l v).txSt = s.txSt := rfl
@[simp] theorem setOvf_txI (l : LinkId) (v : Bool) : (s.setOvf l v).txI = s.txI := rfl
@[simp] theorem setOvf_txD (l : LinkId) (v : Bool) : (s.setOvf l v).txD = s.txD := rfl
@[simp] theorem setOvf_txL (l : LinkId) (v : Bool) : (s.setOvf l v).txL = s.txL := rfl
@[simp] theorem setOvf_txSie (l : LinkId) (v : Bool) : (s.setOvf l v).txSie = s.txSie := rfl
@[simp] theorem setOvf_hostSt (l : LinkId) (v : Bool) : (s.setOvf l v).hostSt = s.hostSt := rfl
@[simp] theorem setOvf_wnL (l : LinkId) (v : Bool) : (s.setOvf l v).wnL = s.wnL := rfl
@[simp] theorem setOvf_wnQ (l : LinkId) (v : Bool) : (s.setOvf l v).wnQ = s.wnQ := rfl
@[simp] theorem setOvf_wnSum (l : LinkId) (v : Bool) : (s.setOvf l v).wnSum = s.wnSum := rfl
@[simp] theorem setOvf_resp (l : LinkId) (v : Bool) : (s.setOvf l v).resp = s.resp := rfl
@[simp] theorem setOvf_cmds (l : LinkId) (v : Bool) : (s.setOvf l v).cmds = s.cmds := rfl
@[simp] theorem setOvf_env (l : LinkId) (v : Bool) : (s.setOvf l v).env = s.env := rfl

/-! ### install -/

@[simp] theorem install_cfg (l : LinkId) : (s.install l).cfg = s.cfg := rfl
@[simp] theorem install_t (l : LinkId) : (s.install l).t = s.t := rfl
@[simp] theorem install_active (l : LinkId) : (s.install l).active = some l := rfl
@[simp] theorem install_ie (l : LinkId) : (s.install l).ie = s.ie := rfl
@[simp] theorem install_pend (l : LinkId) : (s.install l).pend = s.pend := rfl
@[simp] theorem install_head (l : LinkId) : (s.install l).head = 0 := rfl
@[simp] theorem install_tail (l : LinkId) : (s.install l).tail = 0 := rfl
@[simp] theorem install_rxbuf (l : LinkId) : (s.install l).rxbuf = s.rxbuf := rfl
@[simp] theorem install_ports (l : LinkId) : (s.install l).ports = s.ports := rfl
@[simp] theorem install_rxSt (l : LinkId) : (s.install l).rxSt = s.rxSt := rfl
@[simp] theorem install_rxI (l : LinkId) : (s.install l).rxI = s.rxI := rfl
@[simp] theorem install_rxD (l : LinkId) : (s.install l).rxD = s.rxD := rfl
@[simp] theorem install_rxL (l : LinkId) : (s.install l).rxL = s.rxL := rfl
@[simp] theorem install_dly (l : LinkId) : (s.install l).dly = s.dly := rfl
@[simp] theorem install_hdly (l : LinkId) : (s.install l).hdly = s.hdly := rfl
@[simp] theorem install_txSt (l : LinkId) : (s.install l).txSt = s.txSt := rfl
@[simp] theorem install_txI (l : LinkId) : (s.install l).txI = s.txI := rfl
@[simp] theorem install_txD (l : LinkId) : (s.install l).txD = s.txD := rfl
@[simp] theorem install_txL (l : LinkId) : (s.install l).txL = s.txL := rfl
@[simp] theorem install_txSie (l : LinkId) : (s.install l).txSie = s.txSie := rfl
@[simp] theorem install_hostSt (l : LinkId) : (s.install l).hostSt = s.hostSt := rfl
@[simp] theorem install_wnL (l : LinkId) : (s.install l).wnL = s.wnL := rfl
@[simp] theorem install_wnQ (l : LinkId) : (s.install l).wnQ = s.wnQ := rfl
@[simp] theorem install_wnSum (l : LinkId) : (s.install l).wnSum = s.wnSum := rfl
@[simp] theorem install_resp (l : LinkId) : (s.install l).resp = s.resp := rfl
@[simp] theorem install_cmds (l : LinkId) : (s.install l).cmds = s.cmds := rfl
@[simp] theorem install_env (l : LinkId) : (s.install l).env = s.env := rfl

/-! ### setTiming -/

@[simp] theorem setTiming_cfg (l : LinkId) (tm : Timing) : (s.setTiming l tm).cfg = s.cfg := rfl
@[simp] theorem setTiming_t (l : LinkId) (tm : Timing) : (s.setTiming l tm).t = s.t := rfl
@[simp] theorem setTiming_active (l : LinkId) (tm : Timing) : (s.setTiming l tm).active = s.active := rfl
@[simp] theorem setTiming_ie (l : LinkId) (tm : Timing) : (s.setTiming l tm).ie = s.ie := rfl
@[simp] theorem setTiming_pend (l : LinkId) (tm : Timing) : (s.setTiming l tm).pend = s.pend := rfl
@[simp] theorem setTiming_head (l : LinkId) (tm : Timing) : (s.setTiming l tm).head = s.head := rfl
@[simp] theorem setTiming_tail (l : LinkId) (tm : Timing) : (s.setTiming l tm).tail = s.tail := rfl
@[simp] theorem setTiming_rxbuf (l : LinkId) (tm : Timing) : (s.setTiming l tm).rxbuf = s.rxbuf := rfl
@[simp] theorem setTiming_ports (l : LinkId) (tm : Timing) : (s.setTiming l tm).ports = s.ports := rfl
@[simp] theorem setTiming_rxSt (l : LinkId) (tm : Timing) : (s.setTiming l tm).rxSt = s.rxSt := rfl
@[simp] theorem setTiming_rxI (l : LinkId) (tm : Timing) : (s.setTiming l tm).rxI = s.rxI := rfl
@[simp] theorem setTiming_rxD (l : LinkId) (tm : Timing) : (s.setTiming l tm).rxD = s.rxD := rfl
@[simp] theorem setTiming_rxL (l : LinkId) (tm : Timing) : (s.setTiming l tm).rxL = s.rxL := rfl
@[simp] theorem setTiming_dly (l : LinkId) (tm : Timing) : (s.setTiming l tm).dly = s.dly := rfl
@[simp] theorem setTiming_hdly (l : LinkId) (tm : Timing) : (s.setTiming l tm).hdly = s.hdly := rfl
@[simp] theorem setTiming_txSt (l : LinkId) (tm : Timing) : (s.setTiming l tm).txSt = s.txSt := rfl
@[simp] theorem setTiming_txI (l : LinkId) (tm : Timing) : (s.setTiming l tm).txI = s.txI := rfl
@[simp] theorem setTiming_txD (l : LinkId) (tm : Timing) : (s.setTiming l tm).txD = s.txD := rfl
@[simp] theorem setTiming_txL (l : LinkId) (tm : Timing) : (s.setTiming l tm).txL = s.txL := rfl
@[simp] theorem setTiming_txSie (l : LinkId) (tm : Timing) : (s.setTiming l tm).txSie = s.txSie := rfl
@[simp] theorem setTiming_hostSt (l : LinkId) (tm : Timing) : (s.setTiming l tm).hostSt = s.hostSt := rfl
@[simp] theorem setTiming_wnL (l : LinkId) (tm : Timing) : (s.setTiming l tm).wnL = s.wnL := rfl
@[simp] theorem setTiming_wnQ (l : LinkId) (tm : Timing) : (s.setTiming l tm).wnQ = s.wnQ := rfl
@[simp] theorem setTiming_wnSum (l : LinkId) (tm : Timing) : (s.setTiming l tm).wnSum = s.wnSum := rfl
@[simp] theorem setTiming_resp (l : LinkId) (tm : Timing) : (s.setTiming l tm).resp = s.resp := rfl
@[simp] theorem setTiming_cmds (l : LinkId) (tm : Timing) : (s.setTiming l tm).cmds = s.cmds := rfl
@[simp] theorem setTiming_env (l : LinkId) (tm : Timing) : (s.setTiming l tm).env = s.env := rfl

/-! ### returnFromInterrupt -/

@[simp] theorem returnFromInterrupt_cfg : (s.returnFromInterrupt).cfg = s.cfg := rfl
@[simp] theorem returnFromInterrupt_t : (s.returnFromInterrupt).t = s.t := rfl
@[simp] theorem returnFromInterrupt_links : (s.returnFromInterrupt).links = s.links := rfl
@[simp] theorem returnFromInterrupt_active : (s.returnFromInterrupt).active = s.active := rfl
@[simp] theorem returnFromInterrupt_ie : (s.returnFromInterrupt).ie = true := rfl
@[simp] theorem returnFromInterrupt_pend : (s.returnFromInterrupt).pend = s.pend := rfl
@[simp] theorem returnFromInterrupt_head : (s.returnFromInterrupt).head = s.head := rfl
@[simp] theorem returnFromInterrupt_tail : (s.returnFromInterrupt).tail = s.tail := rfl
@[simp] theorem returnFromInterrupt_rxbuf : (s.returnFromInterrupt).rxbuf = s.rxbuf := rfl
@[simp] theorem returnFromInterrupt_ports : (s.returnFromInterrupt).ports = s.ports := rfl
@[simp] theorem returnFromInterrupt_rxSt : (s.returnFromInterrupt).rxSt = .idle := rfl
@[simp] theorem returnFromInterrupt_rxI : (s.returnFromInterrupt).rxI = s.rxI := rfl
@[simp] theorem returnFromInterrupt_rxD : (s.returnFromInterrupt).rxD = s.rxD := rfl
@[simp] theorem returnFromInterrupt_rxL : (s.returnFromInterrupt).rxL = s.rxL := rfl
@[simp] theorem returnFromInterrupt_dly : (s.returnFromInterrupt).dly = s.dly := rfl
@[simp] theorem returnFromInterrupt_hdly : (s.returnFromInterrupt).hdly = s.hdly := rfl
@[simp] theorem returnFromInterrupt_txSt : (s.returnFromInterrupt).txSt = s.txSt := rfl
@[simp] theorem returnFromInterrupt_txI : (s.returnFromInterrupt).txI = s.txI := rfl
@[simp] theorem returnFromInterrupt_txD : (s.returnFromInterrupt).txD = s.txD := rfl
@[simp] theorem returnFromInterrupt_txL : (s.returnFromInterrupt).txL = s.txL := rfl
@[simp] theorem returnFromInterrupt_txSie : (s.returnFromInterrupt).txSie = s.txSie := rfl
@[simp] theorem returnFromInterrupt_hostSt : (s.returnFromInterrupt).hostSt = s.hostSt := rfl
@[simp] theorem returnFromInterrupt_wnL : (s.returnFromInterrupt).wnL = s.wnL := rfl
@[simp] theorem returnFromInterrupt_wnQ : (s.returnFromInterrupt).wnQ = s.wnQ := rfl
@[simp] theorem returnFromInterrupt_wnSum : (s.returnFromInterrupt).wnSum = s.wnSum := rfl
@[simp] theorem returnFromInterrupt_resp : (s.returnFromInterrupt).resp = s.resp := rfl
@[simp] theorem returnFromInterrupt_cmds : (s.returnFromInterrupt).cmds = s.cmds := rfl
@[simp] theorem returnFromInterrupt_env : (s.returnFromInterrupt).env = s.env := rfl
@[simp] theorem returnFromInterrupt_link (k : LinkId) : (s.returnFromInterrupt).link k = s.link k := rfl
@[simp] theorem returnFromInterrupt_hasLink (k : LinkId) : (s.returnFromInterrupt).hasLink k = s.hasLink k := rfl

/-! ### maskInterrupts -/

@[simp] theorem maskInterrupts_cfg : (s.maskInterrupts).cfg = s.cfg := rfl
@[simp] theorem maskInterrupts_t : (s.maskInterrupts).t = s.t := rfl
@[simp] theorem maskInterrupts_links : (s.maskInterrupts).links = s.links := rfl
@[simp] theorem maskInterrupts_active : (s.maskInterrupts).active = s.active := rfl
@[simp] theorem maskInterrupts_ie : (s.maskInterrupts).ie = false := rfl
@[simp] theorem maskInterrupts_pend : (s.maskInterrupts).pend = s.pend := rfl
@[simp] theorem maskInterrupts_head : (s.maskInterrupts).head = s.head := rfl
@[simp] theorem maskInterrupts_tail : (s.maskInterrupts).tail = s.tail := rfl
@[simp] theorem maskInterrupts_rxbuf : (s.maskInterrupts).rxbuf = s.rxbuf := rfl
@[simp] theorem maskInterrupts_ports : (s.maskInterrupts).ports = s.ports := rfl
@[simp] theorem maskInterrupts_rxSt : (s.maskInterrupts).rxSt = s.rxSt := rfl
@[simp] theorem maskInterrupts_rxI : (s.maskInterrupts).rxI = s.rxI := rfl
@[simp] theorem maskInterrupts_rxD : (s.maskInterrupts).rxD = s.rxD := rfl
@[simp] theorem maskInterrupts_rxL : (s.maskInterrupts).rxL = s.rxL := rfl
@[simp] theorem maskInterrupts_dly : (s.maskInterrupts).dly = s.dly := rfl
@[simp] theorem maskInterrupts_hdly : (s.maskInterrupts).hdly = s.hdly := rfl
@[simp] theorem maskInterrupts_txSt : (s.maskInterrupts).txSt = s.txSt := rfl
@[simp] theorem maskInterrupts_txI : (s.maskInterrupts).txI = s.txI := rfl
@[simp] theorem maskInterrupts_txD : (s.maskInterrupts).txD = s.txD := rfl
@[simp] theorem maskInterrupts_txL : (s.maskInterrupts).txL = s.txL := rfl
@[simp] theorem maskInterrupts_txSie : (s.maskInterrupts).txSie = s.ie := rfl
@[simp] theorem maskInterrupts_hostSt : (s.maskInterrupts).hostSt = s.hostSt := rfl
@[simp] theorem maskInterrupts_wnL : (s.maskInterrupts).wnL = s.wnL := rfl
@[simp] theorem maskInterrupts_wnQ : (s.maskInterrupts).wnQ = s.wnQ := rfl
@[simp] theorem maskInterrupts_wnSum : (s.maskInterrupts).wnSum = s.wnSum := rfl
@[simp] theorem maskInterrupts_resp : (s.maskInterrupts).resp = s.resp := rfl
@[simp] theorem maskInterrupts_cmds : (s.maskInterrupts).cmds = s.cmds := rfl
@[simp] theorem maskInterrupts_env : (s.maskInterrupts).env = s.env := rfl
@[simp] theorem maskInterrupts_link (k : LinkId) : (s.maskInterrupts).link k = s.link k := rfl
@[simp] theorem maskInterrupts_hasLink (k : LinkId) : (s.maskInterrupts).hasLink k = s.hasLink k := rfl

/-! ### restoreInterrupts -/

@[simp] theorem restoreInterrupts_cfg : (s.restoreInterrupts).cfg = s.cfg := rfl
@[simp] theorem restoreInterrupts_t : (s.restoreInterrupts).t = s.t := rfl
@[simp] theorem restoreInterrupts_links : (s.restoreInterrupts).links = s.links := rfl
@[simp] theorem restoreInterrupts_active : (s.restoreInterrupts).active = s.active := rfl
@[simp] theorem restoreInterrupts_ie : (s.restoreInterrupts).ie = s.txSie := rfl
@[simp] theorem restoreInterrupts_pend : (s.restoreInterrupts).pend = s.pend := rfl
@[simp] theorem restoreInterrupts_head : (s.restoreInterrupts).head = s.head := rfl
@[simp] theorem restoreInterrupts_tail : (s.restoreInterrupts).tail = s.tail := rfl
@[simp] theorem restoreInterrupts_rxbuf : (s.restoreInterrupts).rxbuf = s.rxbuf := rfl
@[simp] theorem restoreInterrupts_ports : (s.restoreInterrupts).ports = s.ports := rfl
@[simp] theorem restoreInterrupts_rxSt : (s.restoreInterrupts).rxSt = s.rxSt := rfl
@[simp] theorem restoreInterrupts_rxI : (s.restoreInterrupts).rxI = s.rxI := rfl
@[simp] theorem restoreInterrupts_rxD : (s.restoreInterrupts).rxD = s.rxD := rfl
@[simp] theorem restoreInterrupts_rxL : (s.restoreInterrupts).rxL = s.rxL := rfl
@[simp] theorem restoreInterrupts_dly : (s.restoreInterrupts).dly = s.dly := rfl
@[simp] theorem restoreInterrupts_hdly : (s.restoreInterrupts).hdly = s.hdly := rfl
@[simp] theorem restoreInterrupts_txSt : (s.restoreInterrupts).txSt = s.txSt := rfl
@[simp] theorem restoreInterrupts_txI : (s.restoreInterrupts).txI = s.txI := rfl
@[simp] theorem restoreInterrupts_txD : (s.restoreInterrupts).txD = s.txD := rfl
@[simp] theorem restoreInterrupts_txL : (s.restoreInterrupts).txL = s.txL := rfl
@[simp] theorem restoreInterrupts_txSie : (s.restoreInterrupts).txSie = s.txSie := rfl
@[simp] theorem restoreInterrupts_hostSt : (s.restoreInterrupts).hostSt = s.hostSt := rfl
@[simp] theorem restoreInterrupts_wnL : (s.restoreInterrupts).wnL = s.wnL := rfl
@[simp] theorem restoreInterrupts_wnQ : (s.restoreInterrupts).wnQ = s.wnQ := rfl
@[simp] theorem restoreInterrupts_wnSum : (s.restoreInterrupts).wnSum = s.wnSum := rfl
@[simp] theorem restoreInterrupts_resp : (s.restoreInterrupts).resp = s.resp := rfl
@[simp] theorem restoreInterrupts_cmds : (s.restoreInterrupts).cmds = s.cmds := rfl
@[simp] theorem restoreInterrupts_env : (s.restoreInterrupts).env = s.env := rfl
@[simp] theorem restoreInterrupts_link (k : LinkId) : (s.restoreInterrupts).link k = s.link k := rfl
@[simp] theorem restoreInterrupts_hasLink (k : LinkId) : (s.restoreInterrupts).hasLink k = s.hasLink k := rfl

/-! ### loadWrite -/

@[simp] theorem loadWrite_cfg (l : LinkId) (q : List Byte) : (s.loadWrite l q).cfg = s.cfg := rfl
@[simp] theorem loadWrite_t (l : LinkId) (q : List Byte) : (s.loadWrite l q).t = s.t := rfl
@[simp] theorem loadWrite_links (l : LinkId) (q : List Byte) : (s.loadWrite l q).links = s.links := rfl
@[simp] theorem loadWrite_active (l : LinkId) (q : List Byte) : (s.loadWrite l q).active = s.active := rfl
@[simp] theorem loadWrite_ie (l : LinkId) (q : List Byte) : (s.loadWrite l q).ie = s.ie := rfl
@[simp] theorem loadWrite_pend (l : LinkId) (q : List Byte) : (s.loadWrite l q).pend = s.pend := rfl
@[simp] theorem loadWrite_head (l : LinkId) (q : List Byte) : (s.loadWrite l q).head = s.head := rfl
@[simp] theorem loadWrite_tail (l : LinkId) (q : List Byte) : (s.loadWrite l q).tail = s.tail := rfl
@[simp] theorem loadWrite_rxbuf (l : LinkId) (q : List Byte) : (s.loadWrite l q).rxbuf = s.rxbuf := rfl
@[simp] theorem loadWrite_ports (l : LinkId) (q : List Byte) : (s.loadWrite l q).ports = s.ports := rfl
@[simp] theorem loadWrite_rxSt (l : LinkId) (q : List Byte) : (s.loadWrite l q).rxSt = s.rxSt := rfl
@[simp] theorem loadWrite_rxI (l : LinkId) (q : List Byte) : (s.loadWrite l q).rxI = s.rxI := rfl
@[simp] theorem loadWrite_rxD (l : LinkId) (q : List Byte) : (s.loadWrite l q).rxD = s.rxD := rfl
@[simp] theorem loadWrite_rxL (l : LinkId) (q : List Byte) : (s.loadWrite l q).rxL = s.rxL := rfl
@[simp] theorem loadWrite_dly (l : LinkId) (q : List Byte) : (s.loadWrite l q).dly = s.dly := rfl
@[simp] theorem loadWrite_hdly (l : LinkId) (q : List Byte) : (s.loadWrite l q).hdly = s.hdly := rfl
@[simp] theorem loadWrite_txSt (l : LinkId) (q : List Byte) : (s.loadWrite l q).txSt = s.txSt := rfl
@[simp] theorem loadWrite_txI (l : LinkId) (q : List Byte) : (s.loadWrite l q).txI = s.txI := rfl
@[simp] theorem loadWrite_txD (l : LinkId) (q : List Byte) : (s.loadWrite l q).txD = s.txD := rfl
@[simp] theorem loadWrite_txL (l : LinkId) (q : List Byte) : (s.loadWrite l q).txL = s.txL := rfl
@[simp] theorem loadWrite_txSie (l : LinkId) (q : List Byte) : (s.loadWrite l q).txSie = s.txSie := rfl
@[simp] theorem loadWrite_hostSt (l : LinkId) (q : List Byte) : (s.loadWrite l q).hostSt = .write := rfl
@[simp] theorem loadWrite_wnL (l : LinkId) (q : List Byte) : (s.loadWrite l q).wnL = l := rfl
@[simp] theorem loadWrite_wnQ (l : LinkId) (q : List Byte) : (s.loadWrite l q).wnQ = q := rfl
@[simp] theorem loadWrite_wnSum (l : LinkId) (q : List Byte) : (s.loadWrite l q).wnSum = 0 := rfl
@[simp] theorem loadWrite_resp (l : LinkId) (q : List Byte) : (s.loadWrite l q).resp = s.resp := rfl
@[simp] theorem loadWrite_cmds (l : LinkId) (q : List Byte) : (s.loadWrite l q).cmds = s.cmds := rfl
@[simp] theorem loadWrite_env (l : LinkId) (q : List Byte) : (s.loadWrite l q).env = s.env := rfl
@[simp] theorem loadWrite_link (l : LinkId) (q : List Byte) (k : LinkId) : (s.loadWrite l q).link k = s.link k := rfl
@[simp] theorem loadWrite_hasLink (l : LinkId) (q : List Byte) (k : LinkId) : (s.loadWrite l q).hasLink k = s.hasLink k := rfl

/-! ### rxSample -/

@[simp] theorem rxSample_cfg (b : Bool) : (s.rxSample b).cfg = s.cfg := rfl
@[simp] theorem rxSample_t (b : Bool) : (s.rxSample b).t = s.t := rfl
@[simp] theorem rxSample_links (b : Bool) : (s.rxSample b).links = s.links := rfl
@[simp] theorem rxSample_active (b : Bool) : (s.rxSample b).active = s.active := rfl
@[simp] theorem rxSample_ie (b : Bool) : (s.rxSample b).ie = s.ie := rfl
@[simp] theorem rxSample_pend (b : Bool) : (s.rxSample b).pend = s.pend := rfl
@[simp] theorem rxSample_head (b : Bool) : (s.rxSample b).head = s.head := rfl
@[simp] theorem rxSample_tail (b : Bool) : (s.rxSample b).tail = s.tail := rfl
@[simp] theorem rxSample_rxbuf (b : Bool) : (s.rxSample b).rxbuf = s.rxbuf := rfl
@[simp] theorem rxSample_ports (b : Bool) : (s.rxSample b).ports = s.ports := rfl
@[simp] theorem rxSample_rxSt (b : Bool) : (s.rxSample b).rxSt = s.rxSt := rfl
@[simp] theorem rxSample_rxI (b : Bool) : (s.rxSample b).rxI = s.rxI := rfl
@[simp] theorem rxSample_rxD (b : Bool) : (s.rxSample b).rxD = s.rxD ||| ((if b then 1#8 else 0#8) <<< s.rxI.val) := rfl
@[simp] theorem rxSample_rxL (b : Bool) : (s.rxSample b).rxL = s.rxL := rfl
@[simp] theorem rxSample_dly (b : Bool) : (s.rxSample b).dly = s.dly := rfl
@[simp] theorem rxSample_hdly (b : Bool) : (s.rxSample b).hdly = s.hdly := rfl
@[simp] theorem rxSample_txSt (b : Bool) : (s.rxSample b).txSt = s.txSt := rfl
@[simp] theorem rxSample_txI (b : Bool) : (s.rxSample b).txI = s.txI := rfl
@[simp] theorem rxSample_txD (b : Bool) : (s.rxSample b).txD = s.txD := rfl
@[simp] theorem rxSample_txL (b : Bool) : (s.rxSample b).txL = s.txL := rfl
@[simp] theorem rxSample_txSie (b : Bool) : (s.rxSample b).txSie = s.txSie := rfl
@[simp] theorem rxSample_hostSt (b : Bool) : (s.rxSample b).hostSt = s.hostSt := rfl
@[simp] theorem rxSample_wnL (b : Bool) : (s.rxSample b).wnL = s.wnL := rfl
@[simp] theorem rxSample_wnQ (b : Bool) : (s.rxSample b).wnQ = s.wnQ := rfl
@[simp] theorem rxSample_wnSum (b : Bool) : (s.rxSample b).wnSum = s.wnSum := rfl
@[simp] theorem rxSample_resp (b : Bool) : (s.rxSample b).resp = s.resp := rfl
@[simp] theorem rxSample_cmds (b : Bool) : (s.rxSample b).cmds = s.cmds := rfl
@[simp] theorem rxSample_env (b : Bool) : (s.rxSample b).env = s.env := rfl
@[simp] theorem rxSample_link (b : Bool) (k : LinkId) : (s.rxSample b).link k = s.link k := rfl
@[simp] theorem rxSample_hasLink (b : Bool) (k : LinkId) : (s.rxSample b).hasLink k = s.hasLink k := rfl

/-! ### phase1 -/

@[simp] theorem phase1_cfg : (s.phase1).cfg = s.cfg := rfl
@[simp] theorem phase1_t : (s.phase1).t = s.t := rfl
@[simp] theorem phase1_links : (s.phase1).links = s.links := rfl
@[simp] theorem phase1_active : (s.phase1).active = s.active := rfl
@[simp] theorem phase1_ie : (s.phase1).ie = s.ie := rfl
@[simp] theorem phase1_head : (s.phase1).head = s.head := rfl
@[simp] theorem phase1_tail : (s.phase1).tail = s.tail := rfl
@[simp] theorem phase1_rxbuf : (s.phase1).rxbuf = s.rxbuf := rfl
@[simp] theorem phase1_ports : (s.phase1).ports = samplePorts (envLevel s.t (s.env.headD [])) 0 s.ports := rfl
@[simp] theorem phase1_rxSt : (s.phase1).rxSt = s.rxSt := rfl
@[simp] theorem phase1_rxI : (s.phase1).rxI = s.rxI := rfl
@[simp] theorem phase1_rxD : (s.phase1).rxD = s.rxD := rfl
@[simp] theorem phase1_rxL : (s.phase1).rxL = s.rxL := rfl
@[simp] theorem phase1_dly : (s.phase1).dly = s.dly := rfl
@[simp] theorem phase1_hdly : (s.phase1).hdly = s.hdly := rfl
@[simp] theorem phase1_txSt : (s.phase1).txSt = s.txSt := rfl
@[simp] theorem phase1_txI : (s.phase1).txI = s.txI := rfl
@[simp] theorem phase1_txD : (s.phase1).txD = s.txD := rfl
@[simp] theorem phase1_txL : (s.phase1).txL = s.txL := rfl
@[simp] theorem phase1_txSie : (s.phase1).txSie = s.txSie := rfl
@[simp] theorem phase1_hostSt : (s.phase1).hostSt = s.hostSt := rfl
@[simp] theorem phase1_wnL : (s.phase1).wnL = s.wnL := rfl
@[simp] theorem phase1_wnQ : (s.phase1).wnQ = s.wnQ := rfl
@[simp] theorem phase1_wnSum : (s.phase1).wnSum = s.wnSum := rfl
@[simp] theorem phase1_resp : (s.phase1).resp = none := rfl
@[simp] theorem phase1_cmds : (s.phase1).cmds = s.cmds := rfl
@[simp] theorem phase1_env : (s.phase1).env = s.env.tail := rfl
@[simp] theorem phase1_link (k : LinkId) : (s.phase1).link k = s.link k := rfl
@[simp] theorem phase1_hasLink (k : LinkId) : (s.phase1).hasLink k = s.hasLink k := rfl

/-! ### endTick -/

@[simp] theorem endTick_cfg : (s.endTick).cfg = s.cfg := rfl
@[simp] theorem endTick_t : (s.endTick).t = s.t + 1 := rfl
@[simp] theorem endTick_links : (s.endTick).links = s.links := rfl
@[simp] theorem endTick_active : (s.endTick).active = s.active := rfl
@[simp] theorem endTick_ie : (s.endTick).ie = s.ie := rfl
@[simp] theorem endTick_pend : (s.endTick).pend = s.pend := rfl
@[simp] theorem endTick_head : (s.endTick).head = s.head := rfl
@[simp] theorem endTick_tail : (s.endTick).tail = s.tail := rfl
@[simp] theorem endTick_rxbuf : (s.endTick).rxbuf = s.rxbuf := rfl
@[simp] theorem endTick_ports : (s.endTick).ports = s.ports := rfl
@[simp] theorem endTick_rxSt : (s.endTick).rxSt = s.rxSt := rfl
@[simp] theorem endTick_rxI : (s.endTick).rxI = s.rxI := rfl
@[simp] theorem endTick_rxD : (s.endTick).rxD = s.rxD := rfl
@[simp] theorem endTick_rxL : (s.endTick).rxL = s.rxL := rfl
@[simp] theorem endTick_dly : (s.endTick).dly = s.dly := rfl
@[simp] theorem endTick_hdly : (s.endTick).hdly = s.hdly := rfl
@[simp] theorem endTick_txSt : (s.endTick).txSt = s.txSt := rfl
@[simp] theorem endTick_txI : (s.endTick).txI = s.txI := rfl
@[simp] theorem endTick_txD : (s.endTick).txD = s.txD := rfl
@[simp] theorem endTick_txL : (s.endTick).txL = s.txL := rfl
@[simp] theorem endTick_txSie : (s.endTick).txSie = s.txSie := rfl
@[simp] theorem endTick_hostSt : (s.endTick).hostSt = s.hostSt := rfl
@[simp] theorem endTick_wnL : (s.endTick).wnL = s.wnL := rfl
@[simp] theorem endTick_wnQ : (s.endTick).wnQ = s.wnQ := rfl
@[simp] theorem endTick_wnSum : (s.endTick).wnSum = s.wnSum := rfl
@[simp] theorem endTick_resp : (s.endTick).resp = s.resp := rfl
@[simp] theorem endTick_cmds : (s.endTick).cmds = s.cmds := rfl
@[simp] theorem endTick_env : (s.endTick).env = s.env := rfl
@[simp] theorem endTick_link (k : LinkId) : (s.endTick).link k = s.link k := rfl
@[simp] theorem endTick_hasLink (k : LinkId) : (s.endTick).hasLink k = s.hasLink k := rfl

/-! ### The link register file -/

@[simp] theorem setLink_link (l : LinkId) (r : LinkRegs) (k : LinkId) :
    (s.setLink l r).link k = if k = l then r else s.link k := by
  simp only [State.setLink, State.link, Vector.getElem_set, BitVec.toNat_inj, eq_comm]

@[simp] theorem setOvf_link (l : LinkId) (v : Bool) (k : LinkId) :
    (s.setOvf l v).link k = if k = l then { s.link l with ovf := v } else s.link k :=
  setLink_link s l _ k

@[simp] theorem install_link (l k : LinkId) :
    (s.install l).link k = if k = l then { s.link l with ovf := false } else s.link k :=
  setLink_link s l _ k

theorem setTiming_link (l : LinkId) (tm : Timing) (k : LinkId) :
    (s.setTiming l tm).link k = if k = l then { s.link l with
      init := true, rxc := tm.rxCenter, rxi := tm.rxIntra, rxs := tm.rxStop, txd := tm.txDelay }
      else s.link k :=
  setLink_link s l _ k

/-- A link's existence is unchanged by an update of its register set that keeps `EXISTS`. -/
theorem setLink_hasLink (l : LinkId) (r : LinkRegs) (k : LinkId)
    (h : r.exists_ = (s.link l).exists_) : (s.setLink l r).hasLink k = s.hasLink k := by
  simp only [State.hasLink, State.linkInRange, setLink_cfg, setLink_link]
  split
  · subst_vars; rw [h]; rfl
  · rfl

@[simp] theorem setOvf_hasLink (l : LinkId) (v : Bool) (k : LinkId) :
    (s.setOvf l v).hasLink k = s.hasLink k := setLink_hasLink s l _ k rfl

@[simp] theorem install_hasLink (l k : LinkId) : (s.install l).hasLink k = s.hasLink k :=
  setLink_hasLink s l _ k rfl

@[simp] theorem setTiming_hasLink (l : LinkId) (tm : Timing) (k : LinkId) :
    (s.setTiming l tm).hasLink k = s.hasLink k := setLink_hasLink s l _ k rfl

/-! ### activate and loadFrame

What both leave: everything but `ACTIVE`, `HEAD`, `TAIL` and the link's `OVF`, and for a loaded frame
`IE`, `TX_SIE`, `TX_L` and `TX_D`. -/

@[simp] theorem activate_active (l : LinkId) : (s.activate l).1.active = some l := by
  by_cases h : s.active = some l <;> simp [State.activate, h]

theorem activate_links (l : LinkId) : (s.activate l).1.links =
    if s.active = some l then s.links else (s.setOvf l false).links := by
  rcases Decidable.em (s.active = some l) with h | h
  · simp [State.activate, h]
  · simp [State.activate, h]
    rfl

theorem activate_head (l : LinkId) :
    (s.activate l).1.head = if s.active = some l then s.head else 0 := by
  by_cases h : s.active = some l <;> simp [State.activate, h]

theorem activate_tail (l : LinkId) :
    (s.activate l).1.tail = if s.active = some l then s.tail else 0 := by
  by_cases h : s.active = some l <;> simp [State.activate, h]

theorem activate_link (l k : LinkId) : (s.activate l).1.link k =
    if s.active ≠ some l ∧ k = l then { s.link l with ovf := false } else s.link k := by
  by_cases h : s.active = some l <;> simp [State.activate, h]

@[simp] theorem activate_hasLink (l k : LinkId) : (s.activate l).1.hasLink k = s.hasLink k := by
  by_cases h : s.active = some l <;> simp [State.activate, h]

@[simp] theorem activate_cfg (l : LinkId) : (s.activate l).1.cfg = s.cfg := by
  unfold State.activate; split <;> rfl
@[simp] theorem activate_t (l : LinkId) : (s.activate l).1.t = s.t := by
  unfold State.activate; split <;> rfl
@[simp] theorem activate_ie (l : LinkId) : (s.activate l).1.ie = s.ie := by
  unfold State.activate; split <;> rfl
@[simp] theorem activate_pend (l : LinkId) : (s.activate l).1.pend = s.pend := by
  unfold State.activate; split <;> rfl
@[simp] theorem activate_rxbuf (l : LinkId) : (s.activate l).1.rxbuf = s.rxbuf := by
  unfold State.activate; split <;> rfl
@[simp] theorem activate_ports (l : LinkId) : (s.activate l).1.ports = s.ports := by
  unfold State.activate; split <;> rfl
@[simp] theorem activate_rxSt (l : LinkId) : (s.activate l).1.rxSt = s.rxSt := by
  unfold State.activate; split <;> rfl
@[simp] theorem activate_rxI (l : LinkId) : (s.activate l).1.rxI = s.rxI := by
  unfold State.activate; split <;> rfl
@[simp] theorem activate_rxD (l : LinkId) : (s.activate l).1.rxD = s.rxD := by
  unfold State.activate; split <;> rfl
@[simp] theorem activate_rxL (l : LinkId) : (s.activate l).1.rxL = s.rxL := by
  unfold State.activate; split <;> rfl
@[simp] theorem activate_dly (l : LinkId) : (s.activate l).1.dly = s.dly := by
  unfold State.activate; split <;> rfl
@[simp] theorem activate_hdly (l : LinkId) : (s.activate l).1.hdly = s.hdly := by
  unfold State.activate; split <;> rfl
@[simp] theorem activate_txSt (l : LinkId) : (s.activate l).1.txSt = s.txSt := by
  unfold State.activate; split <;> rfl
@[simp] theorem activate_txI (l : LinkId) : (s.activate l).1.txI = s.txI := by
  unfold State.activate; split <;> rfl
@[simp] theorem activate_txD (l : LinkId) : (s.activate l).1.txD = s.txD := by
  unfold State.activate; split <;> rfl
@[simp] theorem activate_txL (l : LinkId) : (s.activate l).1.txL = s.txL := by
  unfold State.activate; split <;> rfl
@[simp] theorem activate_txSie (l : LinkId) : (s.activate l).1.txSie = s.txSie := by
  unfold State.activate; split <;> rfl
@[simp] theorem activate_hostSt (l : LinkId) : (s.activate l).1.hostSt = s.hostSt := by
  unfold State.activate; split <;> rfl
@[simp] theorem activate_wnL (l : LinkId) : (s.activate l).1.wnL = s.wnL := by
  unfold State.activate; split <;> rfl
@[simp] theorem activate_wnQ (l : LinkId) : (s.activate l).1.wnQ = s.wnQ := by
  unfold State.activate; split <;> rfl
@[simp] theorem activate_wnSum (l : LinkId) : (s.activate l).1.wnSum = s.wnSum := by
  unfold State.activate; split <;> rfl
@[simp] theorem activate_resp (l : LinkId) : (s.activate l).1.resp = s.resp := by
  unfold State.activate; split <;> rfl
@[simp] theorem activate_cmds (l : LinkId) : (s.activate l).1.cmds = s.cmds := by
  unfold State.activate; split <;> rfl
@[simp] theorem activate_env (l : LinkId) : (s.activate l).1.env = s.env := by
  unfold State.activate; split <;> rfl

@[simp] theorem loadFrame_cfg (l : LinkId) (v : Byte) : (s.loadFrame l v).cfg = s.cfg :=
  activate_cfg s l
@[simp] theorem loadFrame_t (l : LinkId) (v : Byte) : (s.loadFrame l v).t = s.t := activate_t s l
@[simp] theorem loadFrame_links (l : LinkId) (v : Byte) : (s.loadFrame l v).links = (s.activate l).1.links :=
  rfl
@[simp] theorem loadFrame_active (l : LinkId) (v : Byte) : (s.loadFrame l v).active = some l :=
  activate_active s l
@[simp] theorem loadFrame_ie (l : LinkId) (v : Byte) : (s.loadFrame l v).ie = false := rfl
@[simp] theorem loadFrame_pend (l : LinkId) (v : Byte) : (s.loadFrame l v).pend = s.pend :=
  activate_pend s l
@[simp] theorem loadFrame_head (l : LinkId) (v : Byte) : (s.loadFrame l v).head = (s.activate l).1.head :=
  rfl
@[simp] theorem loadFrame_tail (l : LinkId) (v : Byte) : (s.loadFrame l v).tail = (s.activate l).1.tail :=
  rfl
@[simp] theorem loadFrame_rxbuf (l : LinkId) (v : Byte) : (s.loadFrame l v).rxbuf = s.rxbuf :=
  activate_rxbuf s l
@[simp] theorem loadFrame_ports (l : LinkId) (v : Byte) : (s.loadFrame l v).ports = s.ports :=
  activate_ports s l
@[simp] theorem loadFrame_rxSt (l : LinkId) (v : Byte) : (s.loadFrame l v).rxSt = s.rxSt :=
  activate_rxSt s l
@[simp] theorem loadFrame_rxI (l : LinkId) (v : Byte) : (s.loadFrame l v).rxI = s.rxI :=
  activate_rxI s l
@[simp] theorem loadFrame_rxD (l : LinkId) (v : Byte) : (s.loadFrame l v).rxD = s.rxD :=
  activate_rxD s l
@[simp] theorem loadFrame_rxL (l : LinkId) (v : Byte) : (s.loadFrame l v).rxL = s.rxL :=
  activate_rxL s l
@[simp] theorem loadFrame_dly (l : LinkId) (v : Byte) : (s.loadFrame l v).dly = s.dly :=
  activate_dly s l
@[simp] theorem loadFrame_hdly (l : LinkId) (v : Byte) : (s.loadFrame l v).hdly = s.hdly :=
  activate_hdly s l
@[simp] theorem loadFrame_txSt (l : LinkId) (v : Byte) : (s.loadFrame l v).txSt = s.txSt :=
  activate_txSt s l
@[simp] theorem loadFrame_txI (l : LinkId) (v : Byte) : (s.loadFrame l v).txI = s.txI :=
  activate_txI s l
@[simp] theorem loadFrame_txD (l : LinkId) (v : Byte) : (s.loadFrame l v).txD = v := rfl
@[simp] theorem loadFrame_txL (l : LinkId) (v : Byte) : (s.loadFrame l v).txL = l := rfl
@[simp] theorem loadFrame_txSie (l : LinkId) (v : Byte) : (s.loadFrame l v).txSie = s.ie :=
  activate_ie s l
@[simp] theorem loadFrame_hostSt (l : LinkId) (v : Byte) : (s.loadFrame l v).hostSt = s.hostSt :=
  activate_hostSt s l
@[simp] theorem loadFrame_wnL (l : LinkId) (v : Byte) : (s.loadFrame l v).wnL = s.wnL :=
  activate_wnL s l
@[simp] theorem loadFrame_wnQ (l : LinkId) (v : Byte) : (s.loadFrame l v).wnQ = s.wnQ :=
  activate_wnQ s l
@[simp] theorem loadFrame_wnSum (l : LinkId) (v : Byte) : (s.loadFrame l v).wnSum = s.wnSum :=
  activate_wnSum s l
@[simp] theorem loadFrame_resp (l : LinkId) (v : Byte) : (s.loadFrame l v).resp = s.resp :=
  activate_resp s l
@[simp] theorem loadFrame_cmds (l : LinkId) (v : Byte) : (s.loadFrame l v).cmds = s.cmds :=
  activate_cmds s l
@[simp] theorem loadFrame_env (l : LinkId) (v : Byte) : (s.loadFrame l v).env = s.env :=
  activate_env s l
@[simp] theorem loadFrame_link (l : LinkId) (v : Byte) (k : LinkId) :
    (s.loadFrame l v).link k = (s.activate l).1.link k := rfl
@[simp] theorem loadFrame_hasLink (l : LinkId) (v : Byte) (k : LinkId) :
    (s.loadFrame l v).hasLink k = s.hasLink k := activate_hasLink s l k

/-! ### Phase 1 -/

@[simp] theorem phase1_pend : s.phase1.pend =
    (s.pend || (decide (0 < s.t) &&
      (samplePorts (envLevel s.t (s.env.headD [])) 0 s.ports).any PortRegs.changed)) := rfl

end Sys2Proof.Machine
end

