-- ==== Sys2Proof/Laws/Memory.lean ====
section
/-! SUPPORT. The laws of the receive RAM's list form and of a port register's bits. -/

namespace Sys2Proof.Machine

/-! ### Memory -/

theorem wfAbove_mono {lo lo' : Nat} (h : lo' ≤ lo) {m : Memory} (hm : Memory.wfAbove lo m = true) :
    Memory.wfAbove lo' m = true := by
  cases m with
  | nil => rfl
  | cons c rest =>
    simp only [Memory.wfAbove, Bool.and_eq_true, decide_eq_true_eq] at hm ⊢
    exact ⟨⟨by omega, hm.1.2⟩, hm.2⟩

/-- A slot below every listed one reads as the fill byte. -/
theorem read_below {lo : Nat} {m : Memory} (hm : Memory.wfAbove lo m = true) {a : Nat} (h : a < lo) :
    m.read a = Memory.fill := by
  induction m generalizing lo with
  | nil => rfl
  | cons c rest ih =>
    obtain ⟨b, w⟩ := c
    simp only [Memory.wfAbove, Bool.and_eq_true, decide_eq_true_eq] at hm
    simp only [Memory.read, show b ≠ a by omega, if_false]
    exact ih hm.2 (by omega)

theorem wfAbove_write {lo : Nat} {m : Memory} (hm : Memory.wfAbove lo m = true) {a : Nat}
    (h : lo ≤ a) (v : Byte) : Memory.wfAbove lo (m.write a v) = true := by
  induction m generalizing lo with
  | nil => by_cases hv : v = Memory.fill <;> simp [Memory.write, hv, Memory.wfAbove, h]
  | cons c rest ih =>
    obtain ⟨b, w⟩ := c
    have hc := hm
    simp only [Memory.wfAbove, Bool.and_eq_true, decide_eq_true_eq] at hm
    obtain ⟨⟨hb, hw⟩, hr⟩ := hm
    simp only [Memory.write]
    split
    · split
      · exact hc
      · simp only [Memory.wfAbove, Bool.and_eq_true, decide_eq_true_eq]
        exact ⟨⟨h, by assumption⟩, ⟨by omega, hw⟩, hr⟩
    · split
      · split
        · exact wfAbove_mono (by omega) hr
        · simp only [Memory.wfAbove, Bool.and_eq_true, decide_eq_true_eq]
          exact ⟨⟨h, by assumption⟩, by subst_vars; exact hr⟩
      · simp only [Memory.wfAbove, Bool.and_eq_true, decide_eq_true_eq]
        exact ⟨⟨hb, hw⟩, ih hr (by omega)⟩

/-- A write keeps the canonical form. -/
theorem write_wf {m : Memory} (hm : m.wf = true) (a : Nat) (v : Byte) : (m.write a v).wf = true :=
  wfAbove_write hm (Nat.zero_le a) v

theorem read_write_above {lo : Nat} {m : Memory} (hm : Memory.wfAbove lo m = true) (a : Nat)
    (v : Byte) (b : Nat) : (m.write a v).read b = if b = a then v else m.read b := by
  induction m generalizing lo with
  | nil =>
    by_cases hv : v = Memory.fill
    · simp [Memory.write, hv, Memory.read]
    · simp [Memory.write, hv, Memory.read, eq_comm]
  | cons c rest ih =>
    obtain ⟨d, w⟩ := c
    have hc := hm
    simp only [Memory.wfAbove, Bool.and_eq_true, decide_eq_true_eq] at hm
    simp only [Memory.write]
    split
    · rename_i had
      split
      · rename_i hv
        split
        · rename_i hba
          rw [hba, hv]
          exact read_below (lo := d) (by simp [Memory.wfAbove, hm.1.2, hm.2]) had
        · rfl
      · by_cases hb : b = a
        · simp [Memory.read, hb]
        · simp [Memory.read, hb, Ne.symm hb]
    · split
      · rename_i hnlt had
        subst had
        by_cases hb : b = a
        · subst hb
          split
          · rename_i hv
            rw [hv]
            simpa using read_below hm.2 (by omega)
          · simp [Memory.read]
        · split <;> simp [Memory.read, Ne.symm hb]
      · by_cases hd : d = b
        · subst hd
          simp only [Memory.read, if_true]
          rw [if_neg]; omega
        · simp only [Memory.read, hd, if_false]
          exact ih hm.2

/-- A read after a write to the same slot gives the value written; every other slot reads as
before. -/
theorem read_write {m : Memory} (hm : m.wf = true) (a : Nat) (v : Byte) (b : Nat) :
    (m.write a v).read b = if b = a then v else m.read b := read_write_above hm a v b

/-- A write lists no slot but its own. -/
theorem mem_write {m : Memory} {a : Nat} {v : Byte} {c : Host.Cell} (h : c ∈ m.write a v) :
    c ∈ m ∨ c = (a, v) := by
  induction m with
  | nil =>
    simp only [Memory.write] at h
    split at h <;> simp_all
  | cons d rest ih =>
    obtain ⟨b, w⟩ := d
    simp only [Memory.write] at h
    split at h
    · split at h
      · exact .inl h
      · rcases List.mem_cons.1 h with h | h
        · exact .inr h
        · exact .inl h
    · split at h
      · split at h
        · exact .inl (List.mem_cons_of_mem _ h)
        · rcases List.mem_cons.1 h with h | h
          · exact .inr h
          · exact .inl (List.mem_cons_of_mem _ h)
      · rcases List.mem_cons.1 h with h | h
        · exact .inl (h ▸ List.mem_cons_self)
        · rcases ih h with h | h
          · exact .inl (List.mem_cons_of_mem _ h)
          · exact .inr h

/-! ### Bits of a port register -/

theorem maskOf_eq (b : Fin 8) : maskOf b = BitVec.twoPow 8 b.val := by
  simp [maskOf, BitVec.twoPow]

/-- `bitAt` reads the numbered bit. -/
theorem bitAt_eq (v : Byte) (b : Fin 8) : bitAt v b = v.getLsbD b.val := by
  rw [bitAt, maskOf_eq, BitVec.and_twoPow]
  cases h : v.getLsbD b.val
  · simp
  · revert b; decide +revert

/-- `withBit` sets its bit and leaves the other seven (41_pins_links.md R152). -/
theorem bitAt_withBit (v : Byte) (b c : Fin 8) (x : Bool) :
    bitAt (withBit v b x) c = if c = b then x else bitAt v c := by
  simp only [bitAt_eq, withBit, maskOf_eq, BitVec.getLsbD_or, BitVec.getLsbD_and,
    BitVec.getLsbD_not, BitVec.getLsbD_twoPow, Fin.ext_iff]
  by_cases h : c.val = b.val
  · cases x <;> simp [h]
  · cases x <;> simp [h, Ne.symm h]

end Sys2Proof.Machine
end

