-- ==== Sys2Proof/Laws/Timing.lean ====
section
/-! SUPPORT. The laws of the timing ROM's lookup and of the delay conversion, and that every
monotone conversion has a plain-data form. -/

namespace Sys2Proof.Machine

/-! ### Lookup (40_timing_delay.md R131, R132) -/

/-- A lookup returns a row's constants, the row being in the table with that very baud, or all
zero, no row having it. -/
theorem lookupIn_cases (rows : List TimingRow) (baud : Word) :
    (∃ row ∈ rows, row.baud = baud ∧ lookupIn rows baud =
      ⟨row.rxCenter, row.rxIntra, row.rxStop, row.txDelay, true⟩) ∨
    ((∀ row ∈ rows, row.baud ≠ baud) ∧ lookupIn rows baud = ⟨0, 0, 0, 0, false⟩) := by
  induction rows with
  | nil => exact .inr ⟨by simp, rfl⟩
  | cons r rest ih =>
    by_cases h : r.baud = baud
    · exact .inl ⟨r, List.mem_cons_self, h, by simp [lookupIn, h]⟩
    · simp only [lookupIn, h, if_false, List.mem_cons]
      rcases ih with ⟨row, hm, hb, he⟩ | ⟨hn, he⟩
      · exact .inl ⟨row, .inr hm, hb, he⟩
      · exact .inr ⟨by rintro row (rfl | hr); exacts [h, hn row hr], he⟩

theorem lookup_cases (c : Config) (baud : Word) :
    (∃ row ∈ timingRom c, row.baud = baud ∧ lookup c baud =
      ⟨row.rxCenter, row.rxIntra, row.rxStop, row.txDelay, true⟩) ∨
    ((∀ row ∈ timingRom c, row.baud ≠ baud) ∧ lookup c baud = ⟨0, 0, 0, 0, false⟩) :=
  lookupIn_cases _ _

/-- Both tables of a well-formed configuration are well formed, so the one in use is (R12). -/
theorem timingRom_wf {c : Config} (h : c.WF) : TableWF (timingRom c) := by
  unfold timingRom
  split
  · exact h.2.2.2.2.2.2.1
  · exact h.2.2.2.2.2.2.2.1

/-! ### The delay conversion (R133, 00_scope.md R12) -/

theorem segsAt_ge (a : DelaySeg) (rest : List DelaySeg) (h : segsMonotone (a :: rest) = true)
    {n : Nat} (hn : a.start ≤ n) : a.base ≤ segsAt (a :: rest) n := by
  induction rest generalizing a with
  | nil => simp [segsAt]
  | cons b rest ih =>
    simp only [segsMonotone, Bool.and_eq_true, decide_eq_true_eq] at h
    simp only [segsAt]
    split
    · omega
    · exact le_trans (le_trans (Nat.le_add_right _ _) h.1.2.2) (ih b h.2 (by omega))

/-- A monotone segment list is a monotone conversion. -/
theorem segsAt_mono (segs : List DelaySeg) (h : segsMonotone segs = true) {m n : Nat}
    (hmn : m ≤ n) : segsAt segs m ≤ segsAt segs n := by
  induction segs with
  | nil => exact Nat.le_refl 0
  | cons a rest ih =>
    cases rest with
    | nil =>
      exact Nat.add_le_add_left (Nat.mul_le_mul_left _ (by omega)) _
    | cons b rest =>
      have hm := h
      simp only [segsMonotone, Bool.and_eq_true, decide_eq_true_eq] at hm
      simp only [segsAt]
      split <;> split
      · exact Nat.add_le_add_left (Nat.mul_le_mul_left _ (by omega)) _
      · have h1 : a.slope * (m - a.start) ≤ a.slope * (b.start - 1 - a.start) :=
          Nat.mul_le_mul_left _ (by omega)
        have h2 := segsAt_ge b rest hm.2 (n := n) (by omega)
        have h3 := hm.1.2.2
        omega
      · omega
      · exact ih hm.2

/-- `DELAY_TICKS` of a well-formed configuration is monotone non-decreasing. -/
theorem delayTicks_mono {c : Config} (h : c.WF) {m n : Count} (hmn : m.toNat ≤ n.toNat) :
    delayTicks c m ≤ delayTicks c n :=
  segsAt_mono _ h.2.2.2.2.2.2.2.2.2 hmn

/-- The flat segments of `f` at `k, k + 1, ..., k + m`. -/
def flatSegs (f : Nat → Nat) (k : Nat) : Nat → List DelaySeg
  | 0 => [⟨k, f k, 0⟩]
  | m + 1 => ⟨k, f k, 0⟩ :: flatSegs f (k + 1) m

theorem flatSegs_head (f : Nat → Nat) (k m : Nat) :
    ∃ rest, flatSegs f k m = ⟨k, f k, 0⟩ :: rest := by
  cases m <;> exact ⟨_, rfl⟩

theorem flatSegs_monotone {f : Nat → Nat} (hf : Monotone f) (k m : Nat) (hk : k + m < 65536) :
    segsMonotone (flatSegs f k m) = true := by
  induction m generalizing k with
  | zero => rfl
  | succ m ih =>
    obtain ⟨rest, hr⟩ := flatSegs_head f (k + 1) m
    have := ih (k + 1) (by omega)
    simp only [flatSegs, hr] at this ⊢
    simp only [segsMonotone, Bool.and_eq_true, decide_eq_true_eq]
    exact ⟨⟨Nat.lt_succ_self k, by dsimp; omega, by simpa using hf (Nat.le_succ k)⟩, this⟩

theorem segsAt_flatSegs (f : Nat → Nat) (k m : Nat) {n : Nat} (h1 : k ≤ n) (h2 : n ≤ k + m) :
    segsAt (flatSegs f k m) n = f n := by
  induction m generalizing k with
  | zero =>
    have : n = k := by omega
    subst this
    simp [flatSegs, segsAt]
  | succ m ih =>
    obtain ⟨rest, hr⟩ := flatSegs_head f (k + 1) m
    have hi := ih (k + 1)
    simp only [flatSegs, hr] at hi ⊢
    by_cases hn : n < k + 1
    · have : n = k := by omega
      subst this
      simp [segsAt]
    · rw [segsAt, if_neg hn]
      exact hi (by omega) (by omega)

/-- The plain-data form leaves no conversion out: every monotone function on the 16-bit counts is
that of some well-formed segment list. -/
theorem delay_representable (f : Nat → Nat) (hf : Monotone f) :
    ∃ segs, DelayWF segs ∧ ∀ n : Count, segsAt segs n.toNat = f n.toNat := by
  refine ⟨flatSegs f 0 65535, ⟨?_, flatSegs_monotone hf 0 65535 (by omega)⟩, fun n => ?_⟩
  · obtain ⟨rest, hr⟩ := flatSegs_head f 0 65535
    rw [hr]; rfl
  · exact segsAt_flatSegs f 0 65535 (Nat.zero_le _) (by have := n.isLt; omega)

end Sys2Proof.Machine
end

