-- ==== Sys2Proof/Laws/Pins.lean ====
section
/-! SUPPORT. The laws of the pin multiplexer and of the line update. -/

namespace Sys2Proof.Machine

/-! ### PINMAP (41_pins_links.md R150) -/

theorem pinEntry_some {c : Config} {p : PinId} {e : PinEntry} (h : pinEntry c p = some e) :
    e ∈ c.pinMap ∧ e.pin = p := by
  have h1 := List.mem_of_find?_eq_some h
  have h2 := List.find?_some h
  exact ⟨h1, by simpa using h2⟩

theorem pinEntry_port {c : Config} (hc : c.WF) {p : PinId} {e : PinEntry}
    (h : pinEntry c p = some e) : e.port < c.nPorts :=
  hc.2.2.2.2.2.1 e (pinEntry_some h).1

/-- The map is injective: pins of one port bit are one pin (00_scope.md R12). -/
theorem pinEntry_injective {c : Config} (hc : c.WF) {p q : PinId} {e e' : PinEntry}
    (h : pinEntry c p = some e) (h' : pinEntry c q = some e') (hp : e.port = e'.port)
    (hb : e.bit = e'.bit) : p = q := by
  have hn := hc.2.2.2.2.1
  have := List.inj_on_of_nodup_map hn (pinEntry_some h).1 (pinEntry_some h').1
    (by simp [hp, hb])
  rw [← (pinEntry_some h).2, ← (pinEntry_some h').2, this]

theorem pinMapped_iff {c : Config} {p : PinId} :
    pinMapped c p = true ↔ ∃ e, pinEntry c p = some e := by
  simp [pinMapped, Option.isSome_iff_exists]

/-! ### Pin accesses -/

/-- A change of a mapped pin's port. -/
theorem onPort_eq {s : State} {p : PinId} {e : PinEntry} (h : pinEntry s.cfg p = some e)
    (hl : e.port < s.ports.length) (f : Fin 8 → PortRegs → PortRegs) :
    s.onPort p f = .ok { s with ports := s.ports.modify e.port (f e.bit) } := by
  simp [State.onPort, h, hl]

/-- What a change of a pin's port can do. -/
theorem onPort_ok {s s' : State} {p : PinId} {f : Fin 8 → PortRegs → PortRegs}
    (h : s.onPort p f = .ok s') :
    ∃ e, pinEntry s.cfg p = some e ∧ e.port < s.ports.length ∧
      s' = { s with ports := s.ports.modify e.port (f e.bit) } := by
  unfold State.onPort at h
  split at h
  · cases h
  · rename_i e he
    split at h
    · exact ⟨e, he, by assumption, by cases h; rfl⟩
    · cases h

/-- A mapped pin's port is there in a state with one register group a port. -/
theorem mapped_port {s : State} (hc : s.cfg.WF) (hp : s.ports.length = s.cfg.nPorts) {p : PinId}
    (h : pinMapped s.cfg p = true) :
    ∃ e, pinEntry s.cfg p = some e ∧ e.port < s.ports.length := by
  obtain ⟨e, he⟩ := pinMapped_iff.1 h
  exact ⟨e, he, hp ▸ pinEntry_port hc he⟩

theorem onPort_total {s : State} (hc : s.cfg.WF) (hp : s.ports.length = s.cfg.nPorts) {p : PinId}
    (h : pinMapped s.cfg p = true) (f : Fin 8 → PortRegs → PortRegs) :
    ∃ ps, ps.length = s.ports.length ∧ s.onPort p f = .ok { s with ports := ps } := by
  obtain ⟨e, he, hl⟩ := mapped_port hc hp h
  exact ⟨_, by simp, onPort_eq he hl f⟩

/-- Reading a mapped pin. -/
theorem pinRead_eq {s : State} {p : PinId} {e : PinEntry} {r : PortRegs}
    (h : pinEntry s.cfg p = some e) (hr : s.ports[e.port]? = some r) :
    s.pinRead p = .ok (bitAt r.inp e.bit) := by
  simp [State.pinRead, h, hr]

theorem pinRead_total {s : State} (hc : s.cfg.WF) (hp : s.ports.length = s.cfg.nPorts) {p : PinId}
    (h : pinMapped s.cfg p = true) : ∃ b, s.pinRead p = .ok b := by
  obtain ⟨e, he, hl⟩ := mapped_port hc hp h
  exact ⟨_, pinRead_eq he (List.getElem?_eq_getElem hl)⟩

/-! ### Phase 1 (10_state.md R61) -/

@[simp] theorem samplePorts_length (lev : Nat → Byte) (k : Nat) (ps : List PortRegs) :
    (samplePorts lev k ps).length = ps.length := by
  induction ps generalizing k with
  | nil => rfl
  | cons r rest ih => simp [samplePorts, ih]

theorem samplePorts_getElem? (lev : Nat → Byte) (k : Nat) (ps : List PortRegs) (i : Nat) :
    (samplePorts lev k ps)[i]? = (ps[i]?).map fun r => r.sample (lev (k + i)) := by
  induction ps generalizing k i with
  | nil => simp [samplePorts]
  | cons r rest ih =>
    cases i with
    | zero => simp [samplePorts]
    | succ i => simp [samplePorts, ih, Nat.add_assoc, Nat.add_comm 1 i]

/-- A sampled bit: driven bits read back the driven level (R153). -/
theorem bitAt_sampled (r : PortRegs) (env : Byte) (b : Fin 8) :
    bitAt (r.sampled env) b = if bitAt r.dir b then bitAt r.out b else bitAt env b := by
  simp only [bitAt_eq, PortRegs.sampled, BitVec.getLsbD_or, BitVec.getLsbD_and,
    BitVec.getLsbD_not]
  cases r.dir.getLsbD b.val <;> simp

/-- Sampling changes a port's input registers only. -/
theorem mem_samplePorts {lev : Nat → Byte} {k : Nat} {ps : List PortRegs} {p : PortRegs}
    (h : p ∈ samplePorts lev k ps) :
    ∃ q ∈ ps, p.out = q.out ∧ p.dir = q.dir ∧ p.pcmsk = q.pcmsk ∧ p.prev = q.inp := by
  induction ps generalizing k with
  | nil => cases h
  | cons r rest ih =>
    rcases List.mem_cons.1 h with rfl | h
    · exact ⟨r, List.mem_cons_self, rfl, rfl, rfl, rfl⟩
    · obtain ⟨q, hq, hr⟩ := ih h
      exact ⟨q, List.mem_cons_of_mem _ hq, hr⟩

/-- A nonzero byte has a bit set. -/
theorem byte_ne_zero (v : Byte) : v ≠ 0 ↔ ∃ b : Fin 8, v.getLsbD b.val = true := by
  constructor
  · intro h
    by_contra hn
    refine h (BitVec.eq_of_getLsbD_eq fun i hi => ?_)
    have := not_exists.1 hn ⟨i, hi⟩
    simpa using this
  · rintro ⟨b, hb⟩ rfl
    simp at hb

/-- A port changed where an armed bit of `PORT_IN` differs from `PORT_PREV` (60_exceptions.md
R265). -/
theorem changed_iff (r : PortRegs) : r.changed = true ↔
    ∃ b : Fin 8, bitAt r.inp b ≠ bitAt r.prev b ∧ bitAt r.pcmsk b = true := by
  simp only [PortRegs.changed, bne_iff_ne, byte_ne_zero, bitAt_eq, BitVec.getLsbD_and,
    BitVec.getLsbD_xor, Bool.and_eq_true, bne_iff_ne]

end Sys2Proof.Machine
end

