-- ==== Sys2Proof/Laws/Engines.lean ====
section
/-! SUPPORT. What each engine action can do, said once: later proofs cite these and do not unfold
the actions. -/

namespace Sys2Proof.Machine

@[simp] theorem ok_bind {α β : Type} (a : α) (f : α → Except Fault β) :
    (Except.ok a >>= f) = f a := rfl

@[simp] theorem error_bind {α β : Type} (e : Fault) (f : α → Except Fault β) :
    ((Except.error e : Except Fault α) >>= f) = .error e := rfl

@[simp] theorem finish_ok (s : State) : finish (.ok s) = .next s := rfl

@[simp] theorem finish_error (f : Fault) : finish (.error f) = .fault f := rfl

theorem finish_next {x : Except Fault State} {s : State} (h : finish x = .next s) : x = .ok s := by
  cases x <;> simp_all [finish]

/-! ### Activate (42_registry.md R170) -/

/-- The two outcomes of `Activate`. -/
theorem activate_cases (s : State) (l : LinkId) :
    (s.active = some l ∧ s.activate l = (s, false)) ∨
    (s.active ≠ some l ∧ s.activate l = (s.install l, true)) := by
  by_cases h : s.active = some l
  · exact .inl ⟨h, by simp [State.activate, h]⟩
  · exact .inr ⟨h, by simp [State.activate, h]⟩

theorem activate_same {s : State} {l : LinkId} (h : s.active = some l) :
    s.activate l = (s, false) := by simp [State.activate, h]

theorem activate_switch {s : State} {l : LinkId} (h : s.active ≠ some l) :
    s.activate l = (s.install l, true) := by simp [State.activate, h]

/-! ### The receive engine (43_receive.md R191 to R195) -/

/-- What the receive engine's actions after the line check can do in one tick: wait, or end the
frame by storing its byte or by dropping it, and return from interrupt. -/
inductive RxRun (s : State) : State → Prop
  /-- The engine waits, with ticks to count (40_timing_delay.md R134). -/
  | waits (st : RxSt) (k : Nat) (i : Fin 8) (d : Byte) (hst : st ≠ .idle) (hk : 0 < k) :
    RxRun s { s with rxSt := st, dly := k, rxI := i, rxD := d }
  /-- The commit found room (R195). -/
  | stored (i : Fin 8) (d : Byte) (hroom : s.nextSlot s.tail ≠ s.head)
      (hslot : s.tail < s.cfg.rxBufSize) :
    RxRun s { s with rxI := i, rxD := d, rxSt := .idle, ie := true,
                     rxbuf := s.rxbuf.write s.tail d, tail := s.nextSlot s.tail }
  /-- The commit found the FIFO full (R196). -/
  | dropped (i : Fin 8) (d : Byte) (hfull : s.nextSlot s.tail = s.head) :
    RxRun s { s.setOvf s.rxL true with rxI := i, rxD := d, rxSt := .idle, ie := true }

/-- An action's writes to `RX_ST`, `RX_I` and `RX_D` before it goes on are among what it can do. -/
theorem RxRun.of_prep {s s' : State} (st : RxSt) (i : Fin 8) (d : Byte)
    (h : RxRun { s with rxSt := st, rxI := i, rxD := d } s') : RxRun s s' := by
  cases h with
  | waits st k i d hst hk => exact .waits st k i d hst hk
  | stored i d hroom hslot => exact .stored i d hroom hslot
  | dropped i d hfull => exact .dropped i d hfull

/-- The receive engine can read its line and reach the slot at `TAIL`. -/
structure State.RxReady (s : State) : Prop where
  cfgWF : s.cfg.WF
  portCount : s.ports.length = s.cfg.nPorts
  pin : pinMapped s.cfg (s.link s.rxL).rxpin = true
  tailLt : s.tail < s.cfg.rxBufSize

theorem State.RxReady.prep {s : State} (h : s.RxReady) (st : RxSt) (i : Fin 8) (d : Byte) :
    ({ s with rxSt := st, rxI := i, rxD := d } : State).RxReady :=
  ⟨h.1, h.2, h.3, h.4⟩

/-- `Wait` either counts or performs the expiry action at once (40_timing_delay.md R134). -/
theorem rxWait_run {s t : State} {st : RxSt} {k : Nat} {expire : State → Except Fault State}
    (i : Fin 8) (d : Byte) (ht : t = { s with rxI := i, rxD := d }) (hst : st ≠ .idle)
    (he : ∃ s', expire { t with rxSt := st } = .ok s' ∧ RxRun { t with rxSt := st } s') :
    ∃ s', State.rxWait st k expire t = .ok s' ∧ RxRun s s' := by
  subst ht
  by_cases hk : k = 0
  · obtain ⟨s', h1, h2⟩ := he
    exact ⟨s', by simpa [State.rxWait, hk] using h1, h2.of_prep st i d⟩
  · exact ⟨_, by simp only [State.rxWait, hk, if_false], .waits st k i d hst (by omega)⟩

theorem rxStopExpire_run {s : State} (h : s.RxReady) :
    ∃ s', s.rxStopExpire = .ok s' ∧ RxRun s s' := by
  by_cases hr : s.nextSlot s.tail ≠ s.head
  · exact ⟨_, by simp [State.rxStopExpire, State.rxCommit, hr, State.memWrite, h.tailLt]; rfl,
      .stored s.rxI s.rxD hr h.tailLt⟩
  · have hf : s.nextSlot s.tail = s.head := not_not.1 hr
    exact ⟨_, by simp [State.rxStopExpire, State.rxCommit, hf]; rfl,
      .dropped s.rxI s.rxD hf⟩

theorem rxBitExpire_run (n : Nat) {s : State} (h : s.RxReady) :
    ∃ s', s.rxBitExpire n = .ok s' ∧ RxRun s s' := by
  induction n generalizing s with
  | zero =>
    obtain ⟨b, hb⟩ := pinRead_total h.cfgWF h.portCount h.pin
    simp only [State.rxBitExpire, hb, ok_bind]
    exact rxWait_run (i := s.rxI) (d := (s.rxSample b).rxD) rfl (by decide)
      (rxStopExpire_run (h.prep _ _ _))
  | succ n ih =>
    obtain ⟨b, hb⟩ := pinRead_total h.cfgWF h.portCount h.pin
    simp only [State.rxBitExpire, hb, ok_bind]
    exact rxWait_run (i := s.rxI + 1) (d := (s.rxSample b).rxD) rfl (by decide)
      (ih (h.prep _ _ _))

theorem rxCenterExpire_run {s : State} (h : s.RxReady) :
    ∃ s', s.rxCenterExpire = .ok s' ∧ RxRun s s' :=
  rxWait_run (i := 0) (d := s.rxD) rfl (by decide) (rxBitExpire_run 7 (h.prep _ _ _))

/-- The line check returns at once from a line that is not low, or starts the frame (R191). -/
theorem rxEntryExpire_run {s : State} (h : s.RxReady) :
    ∃ s', s.rxEntryExpire = .ok s' ∧ (s' = s.returnFromInterrupt ∨ RxRun s s') := by
  obtain ⟨b, hb⟩ := pinRead_total h.cfgWF h.portCount h.pin
  simp only [State.rxEntryExpire, hb, ok_bind]
  cases b
  · obtain ⟨s', h1, h2⟩ := rxWait_run (s := s) (i := s.rxI) (d := 0) (k := s.rxCenterTicks s.rxL)
      rfl (st := .center) (by decide) (rxCenterExpire_run (h.prep _ _ _))
    exact ⟨s', by simpa using h1, .inr h2⟩
  · exact ⟨_, rfl, .inl rfl⟩

/-- Every expiry action of a running receive engine (43_receive.md R191 to R194). -/
theorem rxExpire_run {s : State} (h : s.RxReady) (hst : s.rxSt ≠ .idle) :
    ∃ s', s.rxExpire = .ok s' ∧ (s' = s.returnFromInterrupt ∨ RxRun s s') := by
  unfold State.rxExpire
  split
  · contradiction
  · exact rxEntryExpire_run h
  · obtain ⟨s', h1, h2⟩ := rxCenterExpire_run h; exact ⟨s', h1, .inr h2⟩
  · obtain ⟨s', h1, h2⟩ := rxBitExpire_run _ h; exact ⟨s', h1, .inr h2⟩
  · obtain ⟨s', h1, h2⟩ := rxStopExpire_run h; exact ⟨s', h1, .inr h2⟩

/-- The receive-engine advance (40_timing_delay.md R135). -/
theorem rxAdvance_run {s : State} (h : s.RxReady) (hst : s.rxSt ≠ .idle) (hd : 0 < s.dly) :
    ∃ s', s.rxAdvance = .ok s' ∧ (s' = { s with dly := 0 }.returnFromInterrupt ∨
      RxRun { s with dly := 0 } s') := by
  obtain ⟨k, hk⟩ : ∃ k, s.dly = k + 1 := ⟨s.dly - 1, by omega⟩
  simp only [State.rxAdvance, hk]
  split
  · rename_i h0
    subst h0
    exact rxExpire_run (s := { s with dly := 0 }) ⟨h.1, h.2, h.3, h.4⟩ hst
  · exact ⟨_, rfl, .inr (.waits (s := { s with dly := 0 }) s.rxSt k s.rxI s.rxD hst (by omega))⟩

/-! ### The transmit engine (44_transmit.md R231 to R234) -/

/-- The ports differ in their output latches only. -/
def OutOnly (ps ps' : List PortRegs) : Prop :=
  ps'.map (fun r => { r with out := 0 }) = ps.map (fun r => { r with out := 0 })

theorem OutOnly.refl (ps : List PortRegs) : OutOnly ps ps := rfl

theorem OutOnly.trans {a b c : List PortRegs} (h : OutOnly a b) (h' : OutOnly b c) : OutOnly a c :=
  Eq.trans h' h

theorem OutOnly.length {a b : List PortRegs} (h : OutOnly a b) : b.length = a.length := by
  simpa using congrArg List.length h

theorem outOnly_modify (ps : List PortRegs) (k : Nat) (v : Bool) (b : Fin 8) :
    OutOnly ps (ps.modify k (PortRegs.setOut v b)) := by
  unfold OutOnly
  apply List.ext_getElem? fun i => ?_
  simp only [List.getElem?_map, List.getElem?_modify]
  cases ps[i]? with
  | none => simp
  | some r => by_cases hi : k = i <;> simp [hi, PortRegs.setOut]

/-- What the transmit engine's actions can do in one tick: wait, or end the frame, the command
completing when no byte is left. -/
inductive TxRun (s : State) : State → Prop
  | waits (st : TxSt) (k : Nat) (i : Fin 8) (ps : List PortRegs) (hst : st ≠ .idle) (hk : 0 < k)
      (hps : OutOnly s.ports ps) :
    TxRun s { s with txSt := st, dly := k, txI := i, ports := ps }
  /-- The last frame of the command ended (R234). -/
  | completed (i : Fin 8) (ps : List PortRegs) (hq : s.wnQ = []) (hps : OutOnly s.ports ps) :
    TxRun s { s with txI := i, ports := ps, ie := s.txSie, txSt := .idle, wnSum := s.wnSum + 1,
                     resp := some ⟨.ok, s.wnSum + 1⟩, hostSt := .free }
  /-- A frame ended and another byte is due (R234). -/
  | frameEnded (i : Fin 8) (ps : List PortRegs) (hq : s.wnQ ≠ []) (hps : OutOnly s.ports ps) :
    TxRun s { s with txI := i, ports := ps, ie := s.txSie, txSt := .idle, wnSum := s.wnSum + 1 }

theorem TxRun.of_prep {s s' : State} (st : TxSt) (i : Fin 8) (ps : List PortRegs)
    (hps : OutOnly s.ports ps) (h : TxRun { s with txSt := st, txI := i, ports := ps } s') :
    TxRun s s' := by
  cases h with
  | waits st k i ps' hst hk h' => exact .waits st k i ps' hst hk (hps.trans h')
  | completed i ps' hq h' => exact .completed i ps' hq (hps.trans h')
  | frameEnded i ps' hq h' => exact .frameEnded i ps' hq (hps.trans h')

/-- The transmit engine can drive its line. -/
structure State.TxReady (s : State) : Prop where
  cfgWF : s.cfg.WF
  portCount : s.ports.length = s.cfg.nPorts
  pin : pinMapped s.cfg (s.link s.txL).txpin = true

theorem State.TxReady.prep {s : State} (h : s.TxReady) (st : TxSt) (i : Fin 8) {ps : List PortRegs}
    (hps : OutOnly s.ports ps) :
    ({ s with txSt := st, txI := i, ports := ps } : State).TxReady :=
  ⟨h.1, hps.length.trans h.2, h.3⟩

/-- Driving the line changes output latches only. -/
theorem txDrive_total {s : State} (h : s.TxReady) (v : Bool) :
    ∃ ps, OutOnly s.ports ps ∧ s.txDrive v = .ok { s with ports := ps } := by
  obtain ⟨e, he, hl⟩ := mapped_port h.cfgWF h.portCount h.pin
  exact ⟨_, outOnly_modify _ _ _ _, onPort_eq he hl _⟩

theorem txWait_run {s t : State} {st : TxSt} {k : Nat} {expire : State → Except Fault State}
    (i : Fin 8) (ps : List PortRegs) (hps : OutOnly s.ports ps)
    (ht : t = { s with txI := i, ports := ps }) (hst : st ≠ .idle)
    (he : ∃ s', expire { t with txSt := st } = .ok s' ∧ TxRun { t with txSt := st } s') :
    ∃ s', State.txWait st k expire t = .ok s' ∧ TxRun s s' := by
  subst ht
  by_cases hk : k = 0
  · obtain ⟨s', h1, h2⟩ := he
    exact ⟨s', by simpa [State.txWait, hk] using h1, h2.of_prep st i ps hps⟩
  · exact ⟨_, by simp only [State.txWait, hk, if_false], .waits st k i ps hst (by omega) hps⟩

theorem txStopExpire_run (s : State) : ∃ s', s.txStopExpire = .ok s' ∧ TxRun s s' := by
  unfold State.txStopExpire
  cases hq : s.wnQ with
  | nil => exact ⟨_, by simp only [restoreInterrupts_wnQ, hq]; rfl,
      .completed s.txI s.ports hq (OutOnly.refl _)⟩
  | cons v rest => exact ⟨_, by simp only [restoreInterrupts_wnQ, hq]; rfl,
      .frameEnded s.txI s.ports (by simp [hq]) (OutOnly.refl _)⟩

theorem txBitExpire_run (n : Nat) {s : State} (h : s.TxReady) :
    ∃ s', s.txBitExpire n = .ok s' ∧ TxRun s s' := by
  induction n generalizing s with
  | zero =>
    obtain ⟨ps, hps, hd⟩ := txDrive_total h true
    simp only [State.txBitExpire, hd, ok_bind]
    exact txWait_run s.txI ps hps rfl (by decide) (txStopExpire_run _)
  | succ n ih =>
    obtain ⟨ps, hps, hd⟩ := txDrive_total (h.prep s.txSt (s.txI + 1) (OutOnly.refl _))
      (s.txD.getLsbD (s.txI + 1).val)
    simp only [State.txBitExpire, hd, ok_bind]
    exact txWait_run (s.txI + 1) ps hps rfl (by decide) (ih (h.prep .bit _ hps))

theorem txStartExpire_run {s : State} (h : s.TxReady) :
    ∃ s', s.txStartExpire = .ok s' ∧ TxRun s s' := by
  obtain ⟨ps, hps, hd⟩ := txDrive_total (h.prep s.txSt 0 (OutOnly.refl _)) (s.txD.getLsbD 0)
  simp only [State.txStartExpire, hd, ok_bind]
  exact txWait_run 0 ps hps rfl (by decide) (txBitExpire_run 7 (h.prep .bit _ hps))

theorem txPreExpire_run {s : State} (h : s.TxReady) :
    ∃ s', s.txPreExpire = .ok s' ∧ TxRun s s' := by
  obtain ⟨ps, hps, hd⟩ := txDrive_total h false
  simp only [State.txPreExpire, hd, ok_bind]
  exact txWait_run s.txI ps hps rfl (by decide) (txStartExpire_run (h.prep .start _ hps))

/-- Every expiry action of a running transmit engine (R232 to R234). -/
theorem txExpire_run {s : State} (h : s.TxReady) (hst : s.txSt ≠ .idle) :
    ∃ s', s.txExpire = .ok s' ∧ TxRun s s' := by
  unfold State.txExpire
  split
  · contradiction
  · exact txPreExpire_run h
  · exact txStartExpire_run h
  · exact txBitExpire_run _ h
  · exact txStopExpire_run s

/-- The transmit-engine advance (40_timing_delay.md R135). -/
theorem txAdvance_run {s : State} (h : s.TxReady) (hst : s.txSt ≠ .idle) (hd : 0 < s.dly) :
    ∃ s', s.txAdvance = .ok s' ∧ TxRun { s with dly := 0 } s' := by
  obtain ⟨k, hk⟩ : ∃ k, s.dly = k + 1 := ⟨s.dly - 1, by omega⟩
  simp only [State.txAdvance, hk]
  split
  · rename_i h0
    subst h0
    exact txExpire_run (s := { s with dly := 0 }) ⟨h.1, h.2, h.3⟩ hst
  · exact ⟨_, rfl,
      .waits (s := { s with dly := 0 }) s.txSt k s.txI s.ports hst (by omega) (OutOnly.refl _)⟩

/-- A frame start (R231): the loaded state, waiting or already run on. -/
theorem startFrame_run {s : State} {l : LinkId} {v : Byte} (h : (s.loadFrame l v).TxReady) :
    ∃ s', s.startFrame l v = .ok s' ∧ TxRun (s.loadFrame l v) s' :=
  txWait_run (s.loadFrame l v).txI (s.loadFrame l v).ports (OutOnly.refl _) rfl (by decide)
    (txPreExpire_run (h.prep .pre _ (OutOnly.refl _)))

end Sys2Proof.Machine
end

