-- ==== Sys2Proof/Laws/Invariant.lean ====
section
/-! SUPPORT. The invariant of Safety.lean under the shared operations: what an engine needs of a
state that meets it, and that the ends of the engines' actions meet it again. -/

namespace Sys2Proof.Machine

/-! ### What a state that meets the invariant gives -/

theorem hasLink_exists {s : State} {l : LinkId} (h : s.hasLink l = true) :
    (s.link l).exists_ = true := by
  simp only [State.hasLink, Bool.and_eq_true] at h; exact h.2

theorem State.Inv.hasLink {s : State} (h : s.Inv) {l : LinkId} (he : (s.link l).exists_ = true) :
    s.hasLink l = true := by
  simp [State.hasLink, State.linkInRange, he, (h.created l he).inRange]

theorem State.Inv.rxpin {s : State} (h : s.Inv) {l : LinkId} (hl : s.hasLink l = true) :
    pinMapped s.cfg (s.link l).rxpin = true := by
  have := (h.created l (hasLink_exists hl)).pins
  simp only [pinsUsable, Bool.and_eq_true] at this
  exact this.1.1

theorem State.Inv.txpin {s : State} (h : s.Inv) {l : LinkId} (hl : s.hasLink l = true) :
    pinMapped s.cfg (s.link l).txpin = true := by
  have := (h.created l (hasLink_exists hl)).pins
  simp only [pinsUsable, Bool.and_eq_true] at this
  exact this.1.2

theorem State.Inv.nextSlot_lt {s : State} (h : s.Inv) (i : Nat) :
    s.nextSlot i < s.cfg.rxBufSize :=
  Nat.mod_lt _ (by have := h.cfgWF.2.1; omega)

/-- With no engine running, no WRITE is under way between frames of another link. -/
theorem State.Inv.idle_ie {s : State} (h : s.Inv) (hr : s.rxSt = .idle) (ht : s.txSt = .idle) :
    s.ie = true := h.ieIff.2 ⟨hr, ht⟩

/-! ### A running engine before its counter is loaded

`Inv` with the counter put at 1 says all of the invariant but that the counter is positive. -/

/-- The receive engine runs in a state that meets the invariant but for the counter. -/
def State.RxLive (s : State) : Prop := s.rxSt ≠ .idle ∧ ({ s with dly := 1 } : State).Inv

/-- The transmit engine runs in a state that meets the invariant but for the counter. -/
def State.TxLive (s : State) : Prop := s.txSt ≠ .idle ∧ ({ s with dly := 1 } : State).Inv

theorem State.Inv.recount {s : State} (h : s.Inv) (k : Nat) (hk : 0 < k) :
    ({ s with dly := k } : State).Inv :=
  ⟨h.1, h.2, h.3, h.4, h.5, h.6, h.7, h.8, h.9, h.10, h.11, h.12, fun _ => hk, h.14, h.15, h.16,
    h.17, h.18, h.19⟩

theorem State.Inv.rxLive {s : State} (h : s.Inv) (hr : s.rxSt ≠ .idle) (k : Nat) :
    ({ s with dly := k } : State).RxLive := ⟨hr, h.recount 1 (by omega)⟩

theorem State.Inv.txLive {s : State} (h : s.Inv) (ht : s.txSt ≠ .idle) (k : Nat) :
    ({ s with dly := k } : State).TxLive := ⟨ht, h.recount 1 (by omega)⟩

theorem State.RxLive.ready {s : State} (h : s.RxLive) : s.RxReady :=
  ⟨h.2.cfgWF, h.2.portCount, h.2.rxpin (h.2.activeExists _ (h.2.rxServes h.1)), h.2.tailLt⟩

theorem State.TxLive.ready {s : State} (h : s.TxLive) : s.TxReady := by
  obtain ⟨hw, hl, -⟩ := h.2.txHost h.1
  refine ⟨h.2.cfgWF, h.2.portCount, h.2.txpin (l := s.txL) (h.2.activeExists _ ?_)⟩
  have := (h.2.writeActive hw).1
  have hl' : s.txL = s.wnL := hl
  rw [hl']
  exact this

theorem State.RxLive.txIdle {s : State} (h : s.RxLive) : s.txSt = .idle :=
  h.2.oneEngine.resolve_left h.1

theorem State.TxLive.rxIdle {s : State} (h : s.TxLive) : s.rxSt = .idle :=
  h.2.oneEngine.resolve_right h.1

/-- Setting the overflow flag of an existing link keeps the facts about the register file. -/
theorem created_setOvf {s : State} {l : LinkId} {v : Bool} (hl : (s.link l).exists_ = true)
    (hc : ∀ k, (s.link k).exists_ = true → (s.link k).Created s.cfg k)
    (hu : ∀ k, (s.link k).exists_ = false → (s.link k).Untouched) :
    (∀ k, ((s.setOvf l v).link k).exists_ = true → ((s.setOvf l v).link k).Created s.cfg k) ∧
    (∀ k, ((s.setOvf l v).link k).exists_ = false → ((s.setOvf l v).link k).Untouched) := by
  constructor <;> intro k <;> rw [setOvf_link] <;> split
  · rename_i h
    subst h
    intro he
    obtain ⟨h1, h2, h3, h4⟩ := hc k he
    exact ⟨h1, h2, h3, h4⟩
  · exact hc k
  · rename_i h
    subst h
    intro he
    simp_all
  · exact hu k

/-- Whatever the receive engine does after the line check, the invariant holds after it. -/
theorem RxRun.inv {s s' : State} (h : s.RxLive) (hr : RxRun s s') : s'.Inv := by
  have ht := h.txIdle
  obtain ⟨hst, hi⟩ := h
  have hact := hi.rxServes hst
  cases hr with
  | waits st k i d hst' hk =>
    refine ⟨hi.1, hi.2, hi.3, hi.4, .inr ht, ?_, hi.7, hi.8, hi.9, hi.10, fun _ => hact, hi.12,
      fun _ => hk, hi.14, hi.15, hi.16, hi.17, hi.18, hi.19⟩
    exact iff_of_false (fun he => hst (hi.ieIff.1 he).1) (fun he => hst' he.1)
  | stored i d hroom hslot =>
    refine ⟨hi.1, hi.2, hi.nextSlot_lt _, hi.4, .inl rfl, iff_of_true rfl ⟨rfl, ht⟩, hi.7, hi.8,
      hi.9, hi.10, fun hn => absurd rfl hn, hi.12, fun hn => ?_, hi.14, hi.15, hi.16,
      write_wf hi.17 _ _, ?_, ?_⟩
    · rcases hn with hn | hn
      · exact absurd rfl hn
      · exact absurd ht hn
    · intro c hc
      rcases mem_write hc with hc | rfl
      · exact hi.18 c hc
      · exact hslot
    · intro hn
      exact absurd (hact.symm.trans hn) (by simp)
  | dropped i d hfull =>
    have hex := hasLink_exists (hi.activeExists _ hact)
    have hcu := created_setOvf (s := s) (v := true) hex hi.8 hi.9
    refine ⟨hi.1, hi.2, hi.3, ?_, .inl rfl, iff_of_true rfl ⟨rfl, ht⟩, hi.7, hcu.1, hcu.2, hi.10,
      fun hn => absurd rfl hn, ?_, fun hn => ?_, hi.14, hi.15, hi.16, hi.17, hi.18, ?_⟩
    · intro l hl
      exact (setOvf_hasLink s _ _ l).trans (hi.4 l hl)
    · intro hw
      obtain ⟨h1, h2⟩ := hi.12 hw
      refine ⟨h1, ?_⟩
      have := setOvf_link s s.rxL true s.wnL
      change ((s.setOvf s.rxL true).link s.wnL).txd ≠ 0
      rw [this]
      split
      · rename_i he; rw [← he]; exact h2
      · exact h2
    · rcases hn with hn | hn
      · exact absurd rfl hn
      · exact absurd ht hn
    · intro hn
      exact absurd (hact.symm.trans hn) (by simp)

/-- After a return from interrupt the invariant holds (60_exceptions.md R267). -/
theorem State.RxLive.return_inv {s : State} (h : s.RxLive) : s.returnFromInterrupt.Inv := by
  have ht := h.txIdle
  have hi := h.2
  refine ⟨hi.1, hi.2, hi.3, hi.4, .inl rfl, iff_of_true rfl ⟨rfl, ht⟩, hi.7, hi.8, hi.9, hi.10,
    fun hn => absurd rfl hn, hi.12, fun hn => ?_, hi.14, hi.15, hi.16, hi.17, hi.18, hi.19⟩
  rcases hn with hn | hn
  · exact absurd rfl hn
  · exact absurd ht hn

/-- Whatever the transmit engine does in a tick, the invariant holds after it. -/
theorem TxRun.inv {s s' : State} (h : s.TxLive) (hr : TxRun s s') : s'.Inv := by
  have hrx := h.rxIdle
  obtain ⟨hst, hi⟩ := h
  obtain ⟨hw, hl, hsie⟩ := hi.txHost hst
  have hact := (hi.writeActive hw).1
  have hcount := hi.writeCount hw
  rw [if_neg (show ¬ ({ s with dly := 1 } : State).txSt = .idle from hst)] at hcount
  have hnone : ∀ (P : Prop), s.active = none → P := fun P hn =>
    absurd (hact.symm.trans hn) (by simp)
  cases hr with
  | waits st k i ps hst' hk hps =>
    refine ⟨hi.1, hi.2, hi.3, hi.4, .inl hrx, ?_, fun _ => ⟨hw, hl, hsie⟩, hi.8, hi.9,
      hps.length.trans hi.10, hi.11, hi.12, fun _ => hk, hi.14, fun _ hn => absurd hn hst', ?_,
      hi.17, hi.18, hnone _⟩
    · exact iff_of_false (fun he => hst (hi.ieIff.1 he).2) (fun he => hst' he.2)
    · intro _
      dsimp only
      rw [if_neg hst']
      exact hcount
  | completed i ps hq hps =>
    refine ⟨hi.1, hi.2, hi.3, hi.4, .inl hrx, iff_of_true hsie ⟨hrx, rfl⟩,
      fun hn => absurd rfl hn, hi.8, hi.9, hps.length.trans hi.10, hi.11, ?_, ?_, ?_, ?_, ?_,
      hi.17, hi.18, hnone _⟩
    · intro hn; cases hn
    · rintro (hn | hn)
      · exact absurd hrx hn
      · exact absurd rfl hn
    · intro hn; cases hn
    · intro hn; cases hn
    · intro hn; cases hn
  | frameEnded i ps hq hps =>
    refine ⟨hi.1, hi.2, hi.3, hi.4, .inl hrx, iff_of_true hsie ⟨hrx, rfl⟩,
      fun hn => absurd rfl hn, hi.8, hi.9, hps.length.trans hi.10, hi.11, hi.12, ?_, hi.14,
      fun _ _ => hq, ?_, hi.17, hi.18, hnone _⟩
    · rintro (hn | hn)
      · exact absurd hrx hn
      · exact absurd rfl hn
    · intro _
      change (s.wnSum + 1).toNat + s.wnQ.length + (if TxSt.idle = .idle then 0 else 1) ≤ 65535
      change s.wnSum.toNat + s.wnQ.length + 1 ≤ 65535 at hcount
      rw [BitVec.toNat_add]
      simp
      omega

/-- A switching activation outside a WRITE keeps the invariant (42_registry.md R170). -/
theorem State.Inv.install {s : State} (h : s.Inv) {l : LinkId} (hl : s.hasLink l = true)
    (hr : s.rxSt = .idle) (hw : s.hostSt ≠ .write) : (s.install l).Inv := by
  have hcu := created_setOvf (s := s) (v := false) (hasLink_exists hl) h.8 h.9
  have hpos : 0 < s.cfg.rxBufSize := by have := h.cfgWF.2.1; omega
  refine ⟨h.1, hpos, hpos, ?_, h.5, h.6, h.7, hcu.1, hcu.2, h.10, fun hn => absurd hr hn,
    fun hn => absurd hn hw, h.13, h.14, h.15, h.16, h.17, h.18, fun hn => (by cases hn)⟩
  intro k hk
  rw [install_hasLink]
  cases hk
  exact hl

theorem State.Inv.activate {s : State} (h : s.Inv) {l : LinkId} (hl : s.hasLink l = true)
    (hr : s.rxSt = .idle) (hw : s.hostSt ≠ .write) : (s.activate l).1.Inv := by
  rcases activate_cases s l with ⟨-, he⟩ | ⟨-, he⟩ <;> rw [he]
  · exact h
  · exact h.install hl hr hw

/-- A response outside a frame keeps the invariant (60_exceptions.md R260). -/
theorem State.Inv.respond {s : State} (h : s.Inv) (ht : s.txSt = .idle) (st : Status) (r : Word) :
    (s.respond st r).Inv :=
  ⟨h.1, h.2, h.3, h.4, h.5, h.6, fun hn => absurd ht hn, h.8, h.9, h.10, h.11,
    fun hn => (by cases hn), h.13, fun hn => (by cases hn), fun hn => (by cases hn),
    fun hn => (by cases hn), h.17, h.18, h.19⟩

/-- A frame can be loaded in a state that meets the invariant with both engines idle: the engine
then runs in such a state (44_transmit.md R231). -/
theorem State.Inv.loadFrame {s : State} (h : s.Inv) (hr : s.rxSt = .idle) (ht : s.txSt = .idle)
    {l : LinkId} (hl : s.hasLink l = true) (hx : (s.link l).txd ≠ 0) (q : List Byte) (n : Word)
    (hn : n.toNat + q.length + 1 ≤ 65535) (v : Byte) :
    ({ ({ s with wnL := l, wnQ := q, wnSum := n, hostSt := .write } : State).loadFrame l v with
        txSt := .pre } : State).TxLive := by
  have hie := h.idle_ie hr ht
  refine ⟨by simp, ?_⟩
  unfold State.loadFrame
  rcases activate_cases ({ s with wnL := l, wnQ := q, wnSum := n, hostSt := .write } : State) l
    with ⟨ha, he⟩ | ⟨-, he⟩ <;> rw [he]
  · have ha' : s.active = some l := ha
    refine ⟨h.1, h.2, h.3, h.4, .inl hr, ?_, fun _ => ⟨rfl, rfl, hie⟩, h.8, h.9, h.10,
      fun hn => absurd hr hn, fun _ => ⟨ha, hx⟩, fun _ => Nat.one_pos, fun hn => (by cases hn),
      fun _ hn => (by cases hn), fun _ => hn, h.17, h.18,
      fun hn => absurd (ha'.symm.trans hn) (by simp)⟩
    exact iff_of_false (by simp) (by simp)
  · have hcu := created_setOvf (s := s) (v := false) (hasLink_exists hl) h.8 h.9
    have hpos : 0 < s.cfg.rxBufSize := by have := h.cfgWF.2.1; omega
    refine ⟨h.1, hpos, hpos, ?_, .inl hr, ?_, fun _ => ⟨rfl, rfl, hie⟩, hcu.1, hcu.2, h.10,
      fun hn => absurd hr hn, ?_, fun _ => Nat.one_pos, fun hn => (by cases hn),
      fun _ hn => (by cases hn), fun _ => hn, h.17, h.18, fun hn => (by cases hn)⟩
    · intro k hk
      have hk' : l = k := by injection hk
      subst hk'
      exact (install_hasLink s l l).trans hl
    · exact iff_of_false (by simp) (by simp)
    · intro _
      refine ⟨rfl, ?_⟩
      change ((s.install l).link l).txd ≠ 0
      rw [install_link, if_pos rfl]
      exact hx

/-- Phase 1 keeps the invariant (10_state.md R61). -/
theorem State.Inv.phase1 {s : State} (h : s.Inv) : s.phase1.Inv := by
  refine ⟨h.1, h.2, h.3, h.4, h.5, h.6, h.7, h.8, h.9, ?_, h.11, h.12, h.13, h.14, h.15, h.16,
    h.17, h.18, ?_⟩
  · simpa using h.portCount
  · intro hn
    obtain ⟨h1, h2, h3, h4⟩ := h.19 hn
    have hz : ∀ p ∈ s.phase1.ports, p.pcmsk = 0 := by
      intro p hp
      obtain ⟨q, hq, -, -, hm, -⟩ := mem_samplePorts hp
      rw [hm]
      exact h4 q hq
    refine ⟨h1, h2, ?_, hz⟩
    rw [phase1_pend, h3, Bool.false_or, Bool.and_eq_false_iff]
    right
    rw [List.any_eq_false]
    intro p hp
    have := hz p hp
    simp [PortRegs.changed, this]

end Sys2Proof.Machine
end

