-- ==== Sys2Proof/Laws/PerInstr.lean ====
section
/-! SUPPORT. The family of statements made for every constructor of `Instr` (LAWS.json):
`Encodes`: the record of a well-formed instruction carries its own opcode, no reserved bit, and the
operand words its format asks for (30_encoding.md R102, R105, R106, R108). -/

namespace Sys2Proof.Laws.Encodes

open Sys2Proof

def Statement (i : Instr) : Prop :=
  i.wellFormed = true →
    opcField (encode i).word = i.opcode.code ∧
    (encode i).word &&& i.opcode.format.resMask = 0 ∧
    (encode i).ops.length = i.opcode.nops (cntField (encode i).word)

/-- A word of format L or W. -/
theorem linkWord_fields (o : Opcode) (l : LinkId) :
    opcField (linkWord o l) = o.code ∧ lnkField (linkWord o l) = l ∧
      linkWord o l &&& 0x00FFFFFF = 0 :=
  ⟨(extract_skip (o.code ++ l) 0#24 4 4).trans (extract_high o.code l),
    (extract_skip (o.code ++ l) 0#24 0 4).trans (extract_part o.code l),
    and_mask_zero 0x00FFFFFF 0 24 (by decide) (extract_part (o.code ++ l) 0#24)⟩

theorem create (l : LinkId) (rx tx : PinId) : Statement (.create l rx tx) := fun _ =>
  ⟨(extract_skip (1#4 ++ l ++ rx ++ tx) 0#8 20 4).trans ((extract_skip (1#4 ++ l ++ rx) tx 12 4).trans
      ((extract_skip (1#4 ++ l) rx 4 4).trans (extract_high 1#4 l))),
    and_mask_zero 0x000000FF 0 8 (by decide) (extract_part (1#4 ++ l ++ rx ++ tx) 0#8), rfl⟩

theorem begin (l : LinkId) (baud : Word) : Statement (.begin l baud) := fun _ =>
  ⟨(linkWord_fields .begin l).1, (linkWord_fields .begin l).2.2, rfl⟩

theorem write (l : LinkId) (dat : Byte) : Statement (.write l dat) := fun _ =>
  ⟨(extract_skip (3#4 ++ l ++ 0#16) dat 20 4).trans ((extract_skip (3#4 ++ l) 0#16 4 4).trans
      (extract_high 3#4 l)),
    and_mask_zero 0x00FFFF00 8 16 (by decide)
      ((extract_skip (3#4 ++ l ++ 0#16) dat 0 16).trans (extract_part (3#4 ++ l) 0#16)), rfl⟩

theorem writen (l : LinkId) (bytes : List Byte) : Statement (.writen l bytes) := by
  intro hw
  have hlen : bytes.length ≤ 65535 := by simpa [Instr.wellFormed] using hw
  let n : BitVec 16 := BitVec.ofNat 16 bytes.length
  have hc : cntField (encode (.writen l bytes)).word = n := extract_part (4#4 ++ l ++ 0#8) n
  refine ⟨(extract_skip (4#4 ++ l ++ 0#8) n 12 4).trans ((extract_skip (4#4 ++ l) 0#8 4 4).trans
      (extract_high 4#4 l)),
    and_mask_zero 0x00FF0000 16 8 (by decide)
      ((extract_skip (4#4 ++ l ++ 0#8) n 0 8).trans (extract_part (4#4 ++ l) 0#8)), ?_⟩
  rw [hc]
  change (packBytes bytes).length = (n.toNat + 3) / 4
  rw [packBytes_length, BitVec.toNat_ofNat, Nat.mod_eq_of_lt (by omega)]

theorem read (l : LinkId) : Statement (.read l) := fun _ =>
  ⟨(linkWord_fields .read l).1, (linkWord_fields .read l).2.2, rfl⟩

theorem avail (l : LinkId) : Statement (.avail l) := fun _ =>
  ⟨(linkWord_fields .avail l).1, (linkWord_fields .avail l).2.2, rfl⟩

theorem flush (l : LinkId) : Statement (.flush l) := fun _ =>
  ⟨(linkWord_fields .flush l).1, (linkWord_fields .flush l).2.2, rfl⟩

theorem activate (l : LinkId) : Statement (.activate l) := fun _ =>
  ⟨(linkWord_fields .activate l).1, (linkWord_fields .activate l).2.2, rfl⟩

theorem ovfl (l : LinkId) : Statement (.ovfl l) := fun _ =>
  ⟨(linkWord_fields .ovfl l).1, (linkWord_fields .ovfl l).2.2, rfl⟩

theorem delay (cnt : Count) : Statement (.delay cnt) := fun _ =>
  ⟨(extract_skip (10#4 ++ 0#12) cnt 12 4).trans (extract_high 10#4 0#12),
    and_mask_zero 0x0FFF0000 16 12 (by decide)
      ((extract_skip (10#4 ++ 0#12) cnt 0 12).trans (extract_part 10#4 0#12)), rfl⟩

end Sys2Proof.Laws.Encodes
end

