-- ==== Sys2Proof/Laws/Step.lean ====
section
/-! SUPPORT. What a step can do, said once, for every state: the inversions of the engines'
actions, of the commands, and of the tick. Later proofs cite these and unfold nothing. -/

namespace Sys2Proof.Machine

/-! ### The receive engine, from its answer -/

theorem rxWait_ok {s t s' : State} {st : RxSt} {k : Nat} {expire : State → Except Fault State}
    (i : Fin 8) (d : Byte) (ht : t = { s with rxI := i, rxD := d }) (hst : st ≠ .idle)
    (he : ∀ u, expire { t with rxSt := st } = .ok u → RxRun { t with rxSt := st } u)
    (h : State.rxWait st k expire t = .ok s') : RxRun s s' := by
  subst ht
  by_cases hk : k = 0
  · simp only [State.rxWait, hk, if_true] at h
    exact (he _ h).of_prep st i d
  · simp only [State.rxWait, hk, if_false] at h
    cases h
    exact .waits st k i d hst (by omega)

theorem rxStopExpire_ok {s s' : State} (h : s.rxStopExpire = .ok s') : RxRun s s' := by
  by_cases hr : s.nextSlot s.tail ≠ s.head
  · by_cases ht : s.tail < s.cfg.rxBufSize
    · simp only [State.rxStopExpire, State.rxCommit, hr, State.memWrite, ht, if_true, ok_bind,
        ne_eq, not_false_eq_true] at h
      cases h
      exact .stored s.rxI s.rxD hr ht
    · simp only [State.rxStopExpire, State.rxCommit, hr, State.memWrite, ht, if_false, ne_eq,
        not_false_eq_true, if_true, error_bind] at h
      cases h
  · have hf : s.nextSlot s.tail = s.head := not_not.1 hr
    simp only [State.rxStopExpire, State.rxCommit, hf, ne_eq, not_true, if_false, ok_bind] at h
    cases h
    exact .dropped s.rxI s.rxD hf

theorem rxBitExpire_ok (n : Nat) {s s' : State} (h : s.rxBitExpire n = .ok s') : RxRun s s' := by
  induction n generalizing s s' with
  | zero =>
    unfold State.rxBitExpire at h
    cases hb : s.pinRead (s.link s.rxL).rxpin with
    | error f => rw [hb, error_bind] at h; cases h
    | ok b =>
      rw [hb, ok_bind] at h
      exact rxWait_ok (i := s.rxI) (d := (s.rxSample b).rxD) rfl (by decide)
        (fun _ hu => rxStopExpire_ok hu) h
  | succ n ih =>
    unfold State.rxBitExpire at h
    cases hb : s.pinRead (s.link s.rxL).rxpin with
    | error f => rw [hb, error_bind] at h; cases h
    | ok b =>
      rw [hb, ok_bind] at h
      exact rxWait_ok (i := s.rxI + 1) (d := (s.rxSample b).rxD) rfl (by decide)
        (fun _ hu => ih hu) h

theorem rxCenterExpire_ok {s s' : State} (h : s.rxCenterExpire = .ok s') : RxRun s s' :=
  rxWait_ok (i := 0) (d := s.rxD) rfl (by decide) (fun _ hu => rxBitExpire_ok 7 hu) h

theorem rxEntryExpire_ok {s s' : State} (h : s.rxEntryExpire = .ok s') :
    s' = s.returnFromInterrupt ∨ RxRun s s' := by
  unfold State.rxEntryExpire at h
  cases hb : s.pinRead (s.link s.rxL).rxpin with
  | error f => rw [hb, error_bind] at h; cases h
  | ok b =>
    rw [hb, ok_bind] at h
    cases b
    · exact .inr (rxWait_ok (i := s.rxI) (d := 0) rfl (by decide)
        (fun _ hu => rxCenterExpire_ok hu) h)
    · cases h; exact .inl rfl

theorem rxExpire_ok {s s' : State} (hst : s.rxSt ≠ .idle) (h : s.rxExpire = .ok s') :
    s' = s.returnFromInterrupt ∨ RxRun s s' := by
  unfold State.rxExpire at h
  split at h
  · contradiction
  · exact rxEntryExpire_ok h
  · exact .inr (rxCenterExpire_ok h)
  · exact .inr (rxBitExpire_ok _ h)
  · exact .inr (rxStopExpire_ok h)

theorem rxAdvance_ok {s s' : State} (hst : s.rxSt ≠ .idle) (h : s.rxAdvance = .ok s') :
    0 < s.dly ∧ (s' = { s with dly := 0 }.returnFromInterrupt ∨ RxRun { s with dly := 0 } s') := by
  unfold State.rxAdvance at h
  split at h
  · cases h
  · rename_i k hk
    refine ⟨by omega, ?_⟩
    split at h
    · rename_i h0
      subst h0
      exact rxExpire_ok (s := { s with dly := 0 }) hst h
    · cases h
      exact .inr (.waits (s := { s with dly := 0 }) s.rxSt k s.rxI s.rxD hst (by omega))

/-! ### The transmit engine, from its answer -/

theorem txWait_ok {s t s' : State} {st : TxSt} {k : Nat} {expire : State → Except Fault State}
    (i : Fin 8) (ps : List PortRegs) (hps : OutOnly s.ports ps)
    (ht : t = { s with txI := i, ports := ps }) (hst : st ≠ .idle)
    (he : ∀ u, expire { t with txSt := st } = .ok u → TxRun { t with txSt := st } u)
    (h : State.txWait st k expire t = .ok s') : TxRun s s' := by
  subst ht
  by_cases hk : k = 0
  · simp only [State.txWait, hk, if_true] at h
    exact (he _ h).of_prep st i ps hps
  · simp only [State.txWait, hk, if_false] at h
    cases h
    exact .waits st k i ps hst (by omega) hps

theorem txStopExpire_ok {s s' : State} (h : s.txStopExpire = .ok s') : TxRun s s' := by
  obtain ⟨u, h1, h2⟩ := txStopExpire_run s
  rw [h] at h1
  cases h1
  exact h2

/-- Driving the line, where it answers, changes output latches only. -/
theorem txDrive_ok {s s' : State} {v : Bool} (h : s.txDrive v = .ok s') :
    ∃ ps, OutOnly s.ports ps ∧ s' = { s with ports := ps } := by
  obtain ⟨e, -, -, rfl⟩ := onPort_ok h
  exact ⟨_, outOnly_modify _ _ _ _, rfl⟩

theorem txBitExpire_ok (n : Nat) {s s' : State} (h : s.txBitExpire n = .ok s') : TxRun s s' := by
  induction n generalizing s s' with
  | zero =>
    unfold State.txBitExpire at h
    cases hd : s.txDrive true with
    | error f => rw [hd, error_bind] at h; cases h
    | ok u =>
      rw [hd, ok_bind] at h
      obtain ⟨ps, hps, rfl⟩ := txDrive_ok hd
      exact txWait_ok s.txI ps hps rfl (by decide) (fun _ hu => txStopExpire_ok hu) h
  | succ n ih =>
    unfold State.txBitExpire at h
    cases hd : ({ s with txI := s.txI + 1 } : State).txDrive (s.txD.getLsbD (s.txI + 1).val) with
    | error f => dsimp only at h; rw [hd, error_bind] at h; cases h
    | ok u =>
      dsimp only at h
      rw [hd, ok_bind] at h
      obtain ⟨ps, hps, rfl⟩ := txDrive_ok hd
      exact txWait_ok (s.txI + 1) ps hps rfl (by decide) (fun _ hu => ih hu) h

theorem txStartExpire_ok {s s' : State} (h : s.txStartExpire = .ok s') : TxRun s s' := by
  unfold State.txStartExpire at h
  cases hd : ({ s with txI := 0 } : State).txDrive (s.txD.getLsbD 0) with
  | error f => dsimp only at h; rw [hd, error_bind] at h; cases h
  | ok u =>
    dsimp only at h
    rw [hd, ok_bind] at h
    obtain ⟨ps, hps, rfl⟩ := txDrive_ok hd
    exact txWait_ok 0 ps hps rfl (by decide) (fun _ hu => txBitExpire_ok 7 hu) h

theorem txPreExpire_ok {s s' : State} (h : s.txPreExpire = .ok s') : TxRun s s' := by
  unfold State.txPreExpire at h
  cases hd : s.txDrive false with
  | error f => rw [hd, error_bind] at h; cases h
  | ok u =>
    rw [hd, ok_bind] at h
    obtain ⟨ps, hps, rfl⟩ := txDrive_ok hd
    exact txWait_ok s.txI ps hps rfl (by decide) (fun _ hu => txStartExpire_ok hu) h

theorem txExpire_ok {s s' : State} (hst : s.txSt ≠ .idle) (h : s.txExpire = .ok s') :
    TxRun s s' := by
  unfold State.txExpire at h
  split at h
  · contradiction
  · exact txPreExpire_ok h
  · exact txStartExpire_ok h
  · exact txBitExpire_ok _ h
  · exact txStopExpire_ok h

theorem txAdvance_ok {s s' : State} (hst : s.txSt ≠ .idle) (h : s.txAdvance = .ok s') :
    0 < s.dly ∧ TxRun { s with dly := 0 } s' := by
  unfold State.txAdvance at h
  split at h
  · cases h
  · rename_i k hk
    refine ⟨by omega, ?_⟩
    split at h
    · rename_i h0
      subst h0
      exact txExpire_ok (s := { s with dly := 0 }) hst h
    · cases h
      exact .waits (s := { s with dly := 0 }) s.txSt k s.txI s.ports hst (by omega)
        (OutOnly.refl _)

theorem startFrame_ok {s s' : State} {l : LinkId} {v : Byte} (h : s.startFrame l v = .ok s') :
    TxRun (s.loadFrame l v) s' :=
  txWait_ok (s.loadFrame l v).txI (s.loadFrame l v).ports (OutOnly.refl _) rfl (by decide)
    (fun _ hu => txPreExpire_ok hu) h

/-! ### What a run of either engine leaves -/

theorem RxRun.same {s u : State} (h : RxRun s u) : u.cfg = s.cfg ∧ u.t = s.t ∧ u.cmds = s.cmds ∧
    u.active = s.active ∧ u.rxL = s.rxL ∧ u.ports = s.ports ∧ u.head = s.head ∧ u.pend = s.pend := by
  cases h <;> exact ⟨rfl, rfl, rfl, rfl, rfl, rfl, rfl, rfl⟩

/-- The receive engine sets the served link's overflow flag where it drops a byte, and touches no
other register set (43_receive.md R195, R196). -/
theorem RxRun.link {s u : State} (h : RxRun s u) (l : LinkId) : u.link l = s.link l ∨
    (u.link l = { s.link l with ovf := true } ∧ s.nextSlot s.tail = s.head ∧ u.rxSt = .idle ∧
      l = s.rxL) := by
  cases h with
  | waits => exact .inl rfl
  | stored => exact .inl rfl
  | dropped i d hf =>
    have := setOvf_link s s.rxL true l
    by_cases hl : l = s.rxL
    · rw [if_pos hl] at this
      rw [hl] at this ⊢
      exact .inr ⟨this, hf, rfl, rfl⟩
    · rw [if_neg hl] at this
      exact .inl this

theorem TxRun.same {s u : State} (h : TxRun s u) : u.cfg = s.cfg ∧ u.t = s.t ∧ u.cmds = s.cmds ∧
    u.links = s.links ∧ u.rxbuf = s.rxbuf ∧ u.active = s.active ∧ OutOnly s.ports u.ports := by
  cases h with
  | waits _ _ _ _ _ _ h => exact ⟨rfl, rfl, rfl, rfl, rfl, rfl, h⟩
  | completed _ _ _ h => exact ⟨rfl, rfl, rfl, rfl, rfl, rfl, h⟩
  | frameEnded _ _ _ h => exact ⟨rfl, rfl, rfl, rfl, rfl, rfl, h⟩

theorem TxRun.link {s u : State} (h : TxRun s u) (l : LinkId) : u.link l = s.link l := by
  cases h <;> rfl

/-! ### Ports of CREATE and BEGIN -/

/-- The ports differ in their output latches and directions only. -/
def DriveOnly (ps ps' : List PortRegs) : Prop :=
  ps'.map (fun r => { r with out := 0, dir := 0 }) = ps.map (fun r => { r with out := 0, dir := 0 })

/-- The ports differ in their arm masks only, and no armed bit is disarmed. -/
def ArmOnly (ps ps' : List PortRegs) : Prop :=
  ∀ k : Nat, (ps[k]? = none ↔ ps'[k]? = none) ∧ ∀ p : PortRegs, ps[k]? = some p →
    ∃ m, ps'[k]? = some { p with pcmsk := m } ∧ ∀ b, bitAt p.pcmsk b = true → bitAt m b = true

theorem ArmOnly.refl (ps : List PortRegs) : ArmOnly ps ps :=
  fun _ => ⟨Iff.rfl, fun _ h => ⟨_, h, fun _ h => h⟩⟩

theorem ArmOnly.length {a b : List PortRegs} (h : ArmOnly a b) : b.length = a.length := by
  have h1 := (h a.length).1
  have h2 := (h b.length).1
  simp only [List.getElem?_eq_none_iff] at h1 h2
  omega

theorem armOnly_modify (ps : List PortRegs) (k : Nat) (b : Fin 8) :
    ArmOnly ps (ps.modify k (PortRegs.arm b)) := by
  intro i
  rw [List.getElem?_modify]
  cases hi : ps[i]? with
  | none => simp
  | some r =>
    refine ⟨by simp, ?_⟩
    rintro p ⟨⟩
    by_cases hk : k = i
    · refine ⟨withBit r.pcmsk b true, by simp [hk, PortRegs.arm], fun c hc => ?_⟩
      rw [bitAt_withBit]
      split
      · rfl
      · exact hc
    · exact ⟨r.pcmsk, by simp [hk], fun _ h => h⟩

theorem driveOnly_modify (ps : List PortRegs) (k : Nat) (f : PortRegs → PortRegs)
    (hf : ∀ r, ({ f r with out := 0, dir := 0 } : PortRegs) = { r with out := 0, dir := 0 }) :
    DriveOnly ps (ps.modify k f) := by
  unfold DriveOnly
  apply List.ext_getElem? fun i => ?_
  simp only [List.getElem?_map, List.getElem?_modify]
  cases ps[i]? with
  | none => simp
  | some r =>
    by_cases hi : k = i
    · simp only [hi, if_true, Option.map_some]
      exact congrArg some (hf r)
    · simp [hi]

theorem DriveOnly.trans {a b c : List PortRegs} (h : DriveOnly a b) (h' : DriveOnly b c) :
    DriveOnly a c := Eq.trans h' h

theorem DriveOnly.length {a b : List PortRegs} (h : DriveOnly a b) : b.length = a.length := by
  simpa using congrArg List.length h

theorem DriveOnly.get {a b : List PortRegs} (h : DriveOnly a b) {k : Nat} {p : PortRegs}
    (hp : a[k]? = some p) : ∃ q : PortRegs, b[k]? = some q ∧ q = { p with out := q.out, dir := q.dir } := by
  have := congrArg (·[k]?) h
  simp only [List.getElem?_map, hp, Option.map_some, Option.map_eq_some_iff] at this
  obtain ⟨q, hq, he⟩ := this
  refine ⟨q, hq, ?_⟩
  cases p; cases q; simp_all

theorem OutOnly.get {a b : List PortRegs} (h : OutOnly a b) {k : Nat} {p : PortRegs}
    (hp : a[k]? = some p) : ∃ q : PortRegs, b[k]? = some q ∧ q = { p with out := q.out } := by
  have := congrArg (·[k]?) h
  simp only [List.getElem?_map, hp, Option.map_some, Option.map_eq_some_iff] at this
  obtain ⟨q, hq, he⟩ := this
  refine ⟨q, hq, ?_⟩
  cases p; cases q; simp_all

/-! ### The commands -/

/-- What a link command's frame gives. -/
theorem withLink_cases {s t : State} {l : LinkId} {k : State → Host.Outcome State Fault Refusal}
    (h : s.withLink l k = .next t) :
    (s.hasLink l = false ∧ t = s.raise .noLink) ∨ (s.hasLink l = true ∧ k s = .next t) := by
  unfold State.withLink at h
  split at h
  · exact .inr ⟨by assumption, h⟩
  · rename_i hl
    exact .inl ⟨by simpa using hl, by cases h; rfl⟩

/-- What one command can do to a state, in its tick (30_encoding.md R110 and the commands' rules). -/
inductive CmdRun (i : Instr) (s : State) : State → Prop
  /-- A response and nothing else. -/
  | answers (st : Status) (r : Word) (h0 : st ≠ .ok → r = 0) : CmdRun i s (s.respond st r)
  /-- A switching activation (42_registry.md R170) and its response. -/
  | switches (l : LinkId) (r : Word)
    (hi : i = .read l ∨ i = .avail l ∨ i = .flush l ∨ i = .activate l)
    (hl : s.hasLink l = true) (ha : s.active ≠ some l) :
    CmdRun i s ((s.install l).respond .ok r)
  /-- READ of a byte (43_receive.md R201). -/
  | takes (l : LinkId) (hi : i = .read l) (hl : s.hasLink l = true) (ha : s.active = some l)
    (hne : s.head ≠ s.tail) (hh : s.head < s.cfg.rxBufSize) :
    CmdRun i s (({ s with head := s.nextSlot s.head } : State).respond .ok
      ((s.rxbuf.read s.head).zeroExtend 32))
  /-- FLUSH of the active link (R203). -/
  | flushes (l : LinkId) (hi : i = .flush l) (hl : s.hasLink l = true) (ha : s.active = some l) :
    CmdRun i s (({ s with head := 0, tail := 0 } : State).respond .ok 0)
  /-- DELAY with ticks to count (40_timing_delay.md R137). -/
  | delays (cnt : Count) (hi : i = .delay cnt) (hk : 0 < delayTicks s.cfg cnt) :
    CmdRun i s { s with hdly := delayTicks s.cfg cnt, hostSt := .delay }
  /-- CREATE (41_pins_links.md R154). -/
  | creates (l : LinkId) (rx tx : PinId) (ps : List PortRegs) (hi : i = .create l rx tx)
    (hr : s.linkInRange l = true)
    (hn : (s.link l).exists_ = false) (hp : pinsUsable s.cfg rx tx = true)
    (hps : DriveOnly s.ports ps) :
    CmdRun i s (({ s.setLink l { s.link l with rxpin := rx, txpin := tx, exists_ := true } with
      ports := ps } : State).respond .ok 0)
  /-- A first BEGIN (R155). -/
  | begins (l : LinkId) (baud : Word) (ps : List PortRegs) (hi : i = .begin l baud)
    (hl : s.hasLink l = true) (hn : (s.link l).init = false) (hps : ArmOnly s.ports ps) :
    CmdRun i s ((({ s.setTiming l (lookup s.cfg baud) with ports := ps } : State).activate l).1.respond
      .ok 0)
  /-- WRITE or WRITEN of at least one byte on a link that can transmit (44_transmit.md R235, R236),
  its first frame run as far as the tick goes. -/
  | sends (l : LinkId) (v : Byte) (q : List Byte) (u : State) (hl : s.hasLink l = true)
    (hx : (s.link l).txd ≠ 0) (hi : i = .write l v ∧ q = [] ∨ i = .writen l (v :: q))
    (hu : TxRun ((s.loadWrite l q).loadFrame l v) u) : CmdRun i s u

theorem setLink_setLink (s : State) (l : LinkId) (a b : LinkRegs) :
    (s.setLink l a).setLink l b = s.setLink l b := by
  simp [State.setLink]

/-- The ports CREATE leaves: the transmit pin a high output, then the receive pin an input (R154). -/
def createdPorts (ps : List PortRegs) (er et : PinEntry) : List PortRegs :=
  (ps.modify et.port fun r => (r.setDir true et.bit).setOut true et.bit).modify er.port
    (PortRegs.setDir false er.bit)

theorem createdPorts_driveOnly (ps : List PortRegs) (er et : PinEntry) :
    DriveOnly ps (createdPorts ps er et) :=
  (driveOnly_modify _ et.port (fun r => (r.setDir true et.bit).setOut true et.bit)
    (fun _ => rfl)).trans (driveOnly_modify _ er.port (PortRegs.setDir false er.bit) (fun _ => rfl))

/-- What CREATE's writes are, where they answer (41_pins_links.md R154). -/
theorem createLink_ok {s t : State} {l : LinkId} {rx tx : PinId}
    (h : s.createLink l rx tx = .ok t) : ∃ er et, pinEntry s.cfg rx = some er ∧
      pinEntry s.cfg tx = some et ∧
      t = ({ s.setLink l { s.link l with rxpin := rx, txpin := tx, exists_ := true } with
        ports := createdPorts s.ports er et } : State).respond .ok 0 := by
  unfold State.createLink at h
  dsimp only at h
  cases h1 : (s.setLink l { s.link l with rxpin := rx, txpin := tx }).setTxPin tx with
  | error f => rw [h1, error_bind] at h; cases h
  | ok a =>
    rw [h1, ok_bind] at h
    cases h2 : a.setRxPin rx with
    | error f => rw [h2, error_bind] at h; cases h
    | ok b =>
      rw [h2, ok_bind] at h
      cases h
      obtain ⟨et, ht, -, rfl⟩ := onPort_ok h1
      obtain ⟨er, hr, -, rfl⟩ := onPort_ok h2
      refine ⟨er, et, hr, ht, ?_⟩
      have hl : ((s.setLink l { s.link l with rxpin := rx, txpin := tx }).setLink l
          { (s.setLink l { s.link l with rxpin := rx, txpin := tx }).link l with
            exists_ := true }).links =
          (s.setLink l { s.link l with rxpin := rx, txpin := tx, exists_ := true }).links := by
        rw [setLink_setLink, setLink_link, if_pos rfl]
      exact congrArg (fun ls => ({ s with
        links := ls
        ports := createdPorts s.ports er et
        resp := some ⟨.ok, 0⟩
        hostSt := .free } : State)) hl

/-- CREATE's writes answer where both pins are mapped. -/
theorem createLink_total {s : State} (hc : s.cfg.WF) (hp : s.ports.length = s.cfg.nPorts)
    {l : LinkId} {rx tx : PinId} (hu : pinsUsable s.cfg rx tx = true) :
    ∃ t, s.createLink l rx tx = .ok t := by
  simp only [pinsUsable, Bool.and_eq_true] at hu
  obtain ⟨ps, hl, h1⟩ := onPort_total (s := s.setLink l { s.link l with rxpin := rx, txpin := tx })
    hc hp hu.1.2 (fun b r => (r.setDir true b).setOut true b)
  obtain ⟨ps', -, h2⟩ := onPort_total
    (s := { s.setLink l { s.link l with rxpin := rx, txpin := tx } with ports := ps }) hc
    (hl.trans hp) hu.1.1 (PortRegs.setDir false)
  simp only [State.createLink, State.setTxPin, State.setRxPin]
  erw [h1, ok_bind, h2, ok_bind]
  exact ⟨_, rfl⟩

/-- The ports BEGIN leaves, the receive pin's entry being `e` (R155, R156). -/
def begunPorts (s : State) (l : LinkId) (baud : Word) (e : PinEntry) : List PortRegs :=
  if (lookup s.cfg baud).matched && hasPcint s.cfg (s.link l).rxpin then
    s.ports.modify e.port (PortRegs.arm e.bit)
  else s.ports

theorem begunPorts_armOnly (s : State) (l : LinkId) (baud : Word) (e : PinEntry) :
    ArmOnly s.ports (begunPorts s l baud e) := by
  unfold begunPorts
  split
  · exact armOnly_modify _ _ _
  · exact ArmOnly.refl _

/-- What a first BEGIN's writes are, where they answer (R155). -/
theorem beginLink_ok {s t : State} {l : LinkId} {baud : Word} (h : s.beginLink l baud = .ok t) :
    ∃ e, ((lookup s.cfg baud).matched && hasPcint s.cfg (s.link l).rxpin →
        pinEntry s.cfg (s.link l).rxpin = some e) ∧
      t = (({ s.setTiming l (lookup s.cfg baud) with
        ports := begunPorts s l baud e } : State).activate l).1.respond .ok 0 := by
  unfold State.beginLink at h
  dsimp only at h
  split at h
  · rename_i hm
    replace hm : ((lookup s.cfg baud).matched && hasPcint s.cfg (s.link l).rxpin) = true := hm
    cases h1 : (s.setTiming l (lookup s.cfg baud)).armPin (s.link l).rxpin with
    | error f => rw [h1, error_bind] at h; cases h
    | ok a =>
      rw [h1, ok_bind] at h
      cases h
      obtain ⟨e, he, -, rfl⟩ := onPort_ok h1
      exact ⟨e, fun _ => he, by rw [begunPorts, if_pos hm]; rfl⟩
  · rename_i hm
    replace hm : ¬ ((lookup s.cfg baud).matched && hasPcint s.cfg (s.link l).rxpin) = true := hm
    rw [ok_bind] at h
    cases h
    exact ⟨⟨0, 0, 0⟩, fun h => absurd h hm, by rw [begunPorts, if_neg hm]; rfl⟩

/-- A first BEGIN's writes answer where the receive pin is mapped. -/
theorem beginLink_total {s : State} (hc : s.cfg.WF) (hp : s.ports.length = s.cfg.nPorts)
    {l : LinkId} {baud : Word} (hu : pinMapped s.cfg (s.link l).rxpin = true) :
    ∃ t, s.beginLink l baud = .ok t := by
  obtain ⟨ps, -, h1⟩ := onPort_total (s := s.setTiming l (lookup s.cfg baud)) hc hp hu PortRegs.arm
  simp only [State.beginLink, State.armPin]
  split
  · erw [h1, ok_bind]; exact ⟨_, rfl⟩
  · exact ⟨_, rfl⟩

/-- Every command that answers a next state does one of these. -/
theorem exec_run {i : Instr} {s t : State} (h : exec i s = .next t) : CmdRun i s t := by
  cases i with
  | create l rx tx =>
    simp only [exec, execCreate] at h
    split at h
    · cases h; exact .answers _ _ (by decide)
    · rename_i hr
      split at h
      · cases h; exact .answers _ _ (by decide)
      · rename_i hn
        split at h
        · cases h; exact .answers _ _ (by decide)
        · rename_i hp
          obtain ⟨er, et, -, -, rfl⟩ := createLink_ok (finish_next h)
          exact .creates l rx tx _ rfl (by simpa using hr) (by simpa using hn) (by simpa using hp)
            (createdPorts_driveOnly _ _ _)
  | begin l baud =>
    simp only [exec, execBegin] at h
    rcases withLink_cases h with ⟨-, rfl⟩ | ⟨hl, h⟩
    · exact .answers _ _ (by decide)
    · split at h
      · cases h; exact .answers _ _ (by decide)
      · rename_i hi
        obtain ⟨e, -, rfl⟩ := beginLink_ok (finish_next h)
        exact .begins l baud _ rfl hl (by simpa using hi) (begunPorts_armOnly _ _ _ _)
  | write l dat =>
    simp only [exec, execWrite] at h
    rcases withLink_cases h with ⟨-, rfl⟩ | ⟨hl, h⟩
    · exact .answers _ _ (by decide)
    · split at h
      · cases h; exact .answers _ _ (fun h => absurd rfl h)
      · exact .sends l dat [] t hl (by assumption) (.inl ⟨rfl, rfl⟩) (startFrame_ok (finish_next h))
  | writen l bytes =>
    simp only [exec, execWriten] at h
    rcases withLink_cases h with ⟨-, rfl⟩ | ⟨hl, h⟩
    · exact .answers _ _ (by decide)
    · split at h
      · cases h; exact .answers _ _ (by decide)
      · split at h
        · cases h; exact .answers _ _ (fun h => absurd rfl h)
        · exact .sends l _ _ t hl (by assumption) (.inr rfl) (startFrame_ok (finish_next h))
  | read l =>
    simp only [exec, execRead] at h
    rcases withLink_cases h with ⟨-, rfl⟩ | ⟨hl, h⟩
    · exact .answers _ _ (by decide)
    · rcases activate_cases s l with ⟨ha, he⟩ | ⟨ha, he⟩
      · simp only [he, Bool.false_eq_true, if_false] at h
        split at h
        · cases h; exact .answers _ _ (by decide)
        · by_cases hh : s.head < s.cfg.rxBufSize
          · simp only [State.takeByte, State.memRead, hh, if_true, ok_bind] at h
            cases h
            exact .takes l rfl hl ha (by assumption) hh
          · simp only [State.takeByte, State.memRead, hh, if_false, error_bind] at h
            cases h
      · simp only [he, if_true] at h
        cases h
        exact .switches l _ (by simp) hl ha
  | avail l =>
    simp only [exec, execAvail] at h
    rcases withLink_cases h with ⟨-, rfl⟩ | ⟨hl, h⟩
    · exact .answers _ _ (by decide)
    · rcases activate_cases s l with ⟨ha, he⟩ | ⟨ha, he⟩
      · simp only [he, Bool.false_eq_true, if_false] at h
        cases h
        exact .answers _ _ (fun h => absurd rfl h)
      · simp only [he, if_true] at h
        cases h
        exact .switches l _ (by simp) hl ha
  | flush l =>
    simp only [exec, execFlush] at h
    rcases withLink_cases h with ⟨-, rfl⟩ | ⟨hl, h⟩
    · exact .answers _ _ (by decide)
    · rcases activate_cases s l with ⟨ha, he⟩ | ⟨ha, he⟩
      · simp only [he, Bool.false_eq_true, if_false] at h
        cases h
        exact .flushes l rfl hl ha
      · simp only [he, if_true] at h
        cases h
        exact .switches l _ (by simp) hl ha
  | activate l =>
    simp only [exec, execActivate] at h
    rcases withLink_cases h with ⟨-, rfl⟩ | ⟨hl, h⟩
    · exact .answers _ _ (by decide)
    · rcases activate_cases s l with ⟨ha, he⟩ | ⟨ha, he⟩
      · simp only [he] at h
        cases h
        exact .answers _ _ (by decide)
      · simp only [he] at h
        cases h
        exact .switches l _ (by simp) hl ha
  | ovfl l =>
    simp only [exec, execOvfl] at h
    rcases withLink_cases h with ⟨-, rfl⟩ | ⟨hl, h⟩
    · exact .answers _ _ (by decide)
    · cases h; exact .answers _ _ (fun h => absurd rfl h)
  | delay cnt =>
    simp only [exec, execDelay] at h
    split at h
    · cases h; exact .answers _ _ (by decide)
    · cases h; exact .delays cnt rfl (by omega)

/-! ### The tick -/

/-- What phase 2 can do to the state phase 1 left (10_state.md R62, R63). -/
inductive AgentStep (p : State) : State → Prop
  /-- The receive engine returned from a spurious entry (43_receive.md R191). -/
  | rxReturn (hr : p.rxSt ≠ .idle) (hd : 0 < p.dly) :
    AgentStep p ({ p with dly := 0 } : State).returnFromInterrupt
  /-- The receive engine advanced. -/
  | rx (hr : p.rxSt ≠ .idle) (hd : 0 < p.dly) (u : State) (hu : RxRun { p with dly := 0 } u) :
    AgentStep p u
  /-- The transmit engine advanced. -/
  | tx (hr : p.rxSt = .idle) (ht : p.txSt ≠ .idle) (hd : 0 < p.dly) (u : State)
    (hu : TxRun { p with dly := 0 } u) : AgentStep p u
  /-- A dispatch with no active link (60_exceptions.md R266). -/
  | unserved (hr : p.rxSt = .idle) (ht : p.txSt = .idle) (hp : p.pend = true) (hi : p.ie = true)
    (ha : p.active = none) : AgentStep p { p with pend := false }
  /-- A dispatch whose entry latency is being counted (R266). -/
  | enters (hr : p.rxSt = .idle) (ht : p.txSt = .idle) (hp : p.pend = true) (hi : p.ie = true)
    (l : LinkId) (ha : p.active = some l) (k : Nat) (hk : 0 < k) :
    AgentStep p { p with pend := false, ie := false, rxL := l, rxSt := .entry, dly := k }
  /-- A dispatch found the line not low at once (R191). -/
  | spurious (hr : p.rxSt = .idle) (ht : p.txSt = .idle) (hp : p.pend = true) (hi : p.ie = true)
    (l : LinkId) (ha : p.active = some l) :
    AgentStep p
      ({ p with pend := false, ie := false, rxL := l, rxSt := .entry } : State).returnFromInterrupt
  /-- A dispatch found the line low at once and ran on. -/
  | starts (hr : p.rxSt = .idle) (ht : p.txSt = .idle) (hp : p.pend = true) (hi : p.ie = true)
    (l : LinkId) (ha : p.active = some l) (u : State)
    (hu : RxRun { p with pend := false, ie := false, rxL := l, rxSt := .entry } u) : AgentStep p u
  /-- A DELAY counted and goes on (R63). -/
  | counts (hr : p.rxSt = .idle) (ht : p.txSt = .idle) (hn : p.pend = false ∨ p.ie = false)
    (hh : p.hostSt = .delay) (k : Nat) (hk : p.hdly = k + 1) (h0 : 0 < k) :
    AgentStep p { p with hdly := k }
  /-- A DELAY counted to its end (R63). -/
  | delayEnds (hr : p.rxSt = .idle) (ht : p.txSt = .idle) (hn : p.pend = false ∨ p.ie = false)
    (hh : p.hostSt = .delay) (hk : p.hdly = 1) :
    AgentStep p (({ p with hdly := 0 } : State).respond .ok 0)
  /-- The next frame of a WRITEN started (44_transmit.md R236). -/
  | nextFrame (hr : p.rxSt = .idle) (ht : p.txSt = .idle) (hn : p.pend = false ∨ p.ie = false)
    (hh : p.hostSt = .write) (v : Byte) (q : List Byte) (hq : p.wnQ = v :: q) (u : State)
    (hu : TxRun (({ p with wnQ := q } : State).loadFrame p.wnL v) u) : AgentStep p u
  /-- Nothing to do. -/
  | idles (hr : p.rxSt = .idle) (ht : p.txSt = .idle) (hn : p.pend = false ∨ p.ie = false)
    (hh : p.hostSt = .free) (hc : p.hostOffers = false) : AgentStep p p
  /-- A command was accepted and its instruction performed. -/
  | accepts (hr : p.rxSt = .idle) (ht : p.txSt = .idle) (hn : p.pend = false ∨ p.ie = false)
    (hh : p.hostSt = .free) (c : HostCmd) (rest : List HostCmd) (hc : p.cmds = c :: rest)
    (ho : c.notBefore ≤ p.t) (i : Instr) (hd : decode c.record = .ok i) (u : State)
    (he : exec i { p with cmds := rest } = .next u) (hu : CmdRun i { p with cmds := rest } u) :
    AgentStep p u
  /-- A record was accepted that does not decode (30_encoding.md R110). -/
  | rejects (hr : p.rxSt = .idle) (ht : p.txSt = .idle) (hn : p.pend = false ∨ p.ie = false)
    (hh : p.hostSt = .free) (c : HostCmd) (rest : List HostCmd) (hc : p.cmds = c :: rest)
    (ho : c.notBefore ≤ p.t) (e : DecodeError) (hd : decode c.record = .error e) :
    AgentStep p (({ p with cmds := rest } : State).raise .illegal)

theorem dispatch_ok {p u : State} (hr : p.rxSt = .idle) (ht : p.txSt = .idle) (hp : p.pend = true)
    (hi : p.ie = true) (h : p.dispatch = .ok u) : AgentStep p u := by
  unfold State.dispatch State.takeInterrupt at h
  split at h
  · cases h; exact .unserved hr ht hp hi (by assumption)
  · rename_i l ha
    by_cases hk : p.cfg.latEntry = 0
    · simp only [State.rxWait, hk, if_true] at h
      rcases rxEntryExpire_ok h with rfl | hu
      · exact .spurious hr ht hp hi l ha
      · exact .starts hr ht hp hi l ha u hu
    · simp only [State.rxWait, hk, if_false] at h
      cases h
      exact .enters hr ht hp hi l ha _ (by omega)

theorem hostStep_next {p u : State} (hr : p.rxSt = .idle) (ht : p.txSt = .idle)
    (hn : p.pend = false ∨ p.ie = false) (h : p.hostStep = .next u) : AgentStep p u := by
  unfold State.hostStep at h
  split at h
  · have h := finish_next h
    unfold State.countDelay at h
    split at h
    · cases h
    · rename_i k hk
      split at h
      · rename_i h0
        subst h0
        cases h
        exact .delayEnds hr ht hn (by assumption) hk
      · cases h
        exact .counts hr ht hn (by assumption) k hk (by omega)
  · have h := finish_next h
    unfold State.nextFrame at h
    split at h
    · cases h
    · exact .nextFrame hr ht hn (by assumption) _ _ (by assumption) u (startFrame_ok h)
  · split at h
    · rename_i hc
      cases h
      exact .idles hr ht hn (by assumption) (by simp [State.hostOffers, hc])
    · rename_i c rest hc
      split at h
      · rename_i ho
        unfold State.accept at h
        split at h
        · rename_i i hi
          exact .accepts hr ht hn (by assumption) c rest hc ho i hi u h (exec_run h)
        · rename_i e he
          cases h
          exact .rejects hr ht hn (by assumption) c rest hc ho e he
      · rename_i ho
        cases h
        exact .idles hr ht hn (by assumption) (by simp [State.hostOffers, hc, ho])

/-- Every step that answers a next state is one agent step on what phase 1 left (10_state.md
R60). -/
theorem step_cases {s t : State} (h : step s = .next t) :
    s.cfg.WF ∧ ∃ u, AgentStep s.phase1 u ∧ t = u.endTick := by
  unfold step at h
  split at h
  · rename_i hc
    refine ⟨hc, ?_⟩
    unfold State.tick at h
    split at h
    · rename_i u hu
      cases h
      refine ⟨u, ?_, rfl⟩
      unfold State.phase2 at hu
      split at hu
      · obtain ⟨hd, rfl | hu⟩ := rxAdvance_ok (by assumption) (finish_next hu)
        · exact .rxReturn (by assumption) hd
        · exact .rx (by assumption) hd u hu
      · split at hu
        · obtain ⟨hd, hu⟩ := txAdvance_ok (by assumption) (finish_next hu)
          exact .tx (not_not.1 (by assumption)) (by assumption) hd u hu
        · split at hu
          · rename_i hpi
            simp only [Bool.and_eq_true] at hpi
            exact dispatch_ok (not_not.1 (by assumption)) (not_not.1 (by assumption)) hpi.1 hpi.2
              (finish_next hu)
          · rename_i hpi
            exact hostStep_next (not_not.1 (by assumption)) (not_not.1 (by assumption))
              (by simpa [or_iff_not_imp_left] using hpi) hu
    · cases h
    · cases h
  · cases h

/-! ### Runs -/

theorem core_run_succ (M : Host.Core) (k : Nat) (s : M.State) : M.run (k + 1) s =
    match M.step s with
    | .next s' => M.run k s'
    | .fault r => .fault r
    | .refused r => .refused r := rfl

theorem runsTo_zero {s t : State} : s.RunsTo 0 t ↔ s = t :=
  ⟨fun h => by cases h; rfl, fun h => by cases h; rfl⟩

/-- A run of one tick more is a step and the run from there. -/
theorem runsTo_succ {s t : State} {k : Nat} :
    s.RunsTo (k + 1) t ↔ ∃ u, step s = .next u ∧ u.RunsTo k t := by
  unfold State.RunsTo
  rw [core_run_succ Sys2Proof.core k s]
  constructor
  · intro h
    split at h
    · rename_i u hu; exact ⟨u, hu, h⟩
    · cases h
    · cases h
  · rintro ⟨u, hu, h⟩
    split
    · rename_i hs; cases hu.symm.trans hs; exact h
    · rename_i hs; cases hu.symm.trans hs
    · rename_i hs; cases hu.symm.trans hs

theorem runsTo_trans {s u t : State} {j k : Nat} (h : s.RunsTo j u) (h' : u.RunsTo k t) :
    s.RunsTo (j + k) t := by
  induction j generalizing s with
  | zero => rw [runsTo_zero] at h; subst h; rwa [Nat.zero_add]
  | succ j ih =>
    obtain ⟨v, hv, h⟩ := runsTo_succ.1 h
    rw [Nat.succ_add]
    exact runsTo_succ.2 ⟨v, hv, ih h⟩

/-- A run and one step more. -/
theorem runsTo_snoc {s u t : State} {k : Nat} (h : s.RunsTo k u) (h' : step u = .next t) :
    s.RunsTo (k + 1) t :=
  runsTo_trans h (runsTo_succ.2 ⟨t, h', runsTo_zero.2 rfl⟩)

end Sys2Proof.Machine
end

