-- ==== Sys2Proof/Laws/Tick.lean ====
section
/-! SUPPORT. A tick by its cases (10_state.md R60 to R63), from what holds before it: which agent
phase 2 runs, and what an engine does with the tick. Stated on the state phase 1 left, so that no
proof unfolds `step`. -/

namespace Sys2Proof.Machine

/-- The environment, the queue, the response and the tick are no part of the invariant. -/
theorem State.Inv.inputs {s : State} (h : s.Inv) (t : Nat) (r : Option Response) (c : List HostCmd)
    (e : List (List Byte)) : ({ s with t := t, resp := r, cmds := c, env := e } : State).Inv :=
  ⟨h.1, h.2, h.3, h.4, h.5, h.6, h.7, h.8, h.9, h.10, h.11, h.12, h.13, h.14, h.15, h.16, h.17,
    h.18, h.19⟩

theorem step_eq_tick {s : State} (hc : s.cfg.WF) : step s = s.tick := if_pos hc

/-- A tick whose phase 2 gives a state gives that state, one tick later. -/
theorem step_next {s u : State} (hc : s.cfg.WF) (h : s.phase1.phase2 = .next u) :
    step s = .next u.endTick := by
  rw [step_eq_tick hc, State.tick, h]

theorem phase2_rx {p : State} (h : p.rxSt ≠ .idle) : p.phase2 = finish p.rxAdvance := if_pos h

theorem phase2_tx {p : State} (hr : p.rxSt = .idle) (ht : p.txSt ≠ .idle) :
    p.phase2 = finish p.txAdvance := by
  rw [State.phase2, if_neg (not_not.2 hr), if_pos ht]

theorem phase2_dispatch {p : State} (hr : p.rxSt = .idle) (ht : p.txSt = .idle) (hp : p.pend = true)
    (hi : p.ie = true) : p.phase2 = finish p.dispatch := by
  rw [State.phase2, if_neg (not_not.2 hr), if_neg (not_not.2 ht), if_pos (by rw [hp, hi]; rfl)]

theorem phase2_host {p : State} (hr : p.rxSt = .idle) (ht : p.txSt = .idle)
    (h : p.pend = false ∨ p.ie = false) : p.phase2 = p.hostStep := by
  have : (p.pend && p.ie) = false := by rcases h with h | h <;> simp [h]
  simp [State.phase2, hr, ht, this]

theorem dispatch_none {p : State} (h : p.active = none) :
    p.dispatch = .ok { p with pend := false } := by
  unfold State.dispatch State.takeInterrupt
  rw [h]

theorem dispatch_some {p : State} {l : LinkId} (h : p.active = some l) :
    p.dispatch = State.rxWait .entry p.cfg.latEntry State.rxEntryExpire
      { p with pend := false, ie := false, rxL := l } := by
  unfold State.dispatch State.takeInterrupt
  rw [h]

/-- The receive engine's last tick of a wait performs the expiry. -/
theorem rxAdvance_last {p : State} (h : p.dly = 1) :
    p.rxAdvance = State.rxExpire { p with dly := 0 } := by
  unfold State.rxAdvance
  rw [h]
  rfl

theorem rxAdvance_count {p : State} {k : Nat} (h : p.dly = k + 2) :
    p.rxAdvance = .ok { p with dly := k + 1 } := by
  unfold State.rxAdvance
  rw [h]
  rfl

/-- The transmit engine's last tick of a wait performs the expiry. -/
theorem txAdvance_last {p : State} (h : p.dly = 1) :
    p.txAdvance = State.txExpire { p with dly := 0 } := by
  unfold State.txAdvance
  rw [h]
  rfl

theorem txAdvance_count {p : State} {k : Nat} (h : p.dly = k + 2) :
    p.txAdvance = .ok { p with dly := k + 1 } := by
  unfold State.txAdvance
  rw [h]
  rfl

/-- Phase 1 samples each port and leaves the rest of it. -/
theorem phase1_port {s : State} {k : Nat} {r : PortRegs} (h : s.ports[k]? = some r) :
    s.phase1.ports[k]? = some (r.sample (envLevel s.t (s.env.headD []) k)) := by
  change (samplePorts _ _ _)[k]? = _
  rw [samplePorts_getElem?, h]
  simp

end Sys2Proof.Machine
end

