-- ==== Sys2Proof/Tests/Slice0.lean ====
section
/-! SUPPORT. Tests on single steps, expected values from spec/95_test_vectors.md and the rules'
own examples; and, for every obligation with hypotheses, a named witness that meets them. -/

namespace Sys2Proof.Tests

open Sys2Proof Sys2Proof.Machine Sys2Proof.Claims

/-! ### Helpers -/

def nextOf : Host.Outcome State Fault Refusal → Option State
  | .next s => some s
  | .fault _ => none
  | .refused _ => none

/-- The state an outcome gives, where it is a next state. -/
def after (o : Host.Outcome State Fault Refusal) : State := (nextOf o).getD State.reset

/-- Status code and result of the response an outcome delivers. -/
def answer (o : Host.Outcome State Fault Refusal) : Option (Nat × Nat) :=
  (nextOf o).bind fun t => t.resp.map fun r => (r.status.code.toNat, r.result.toNat)

theorem next_with {o : Host.Outcome State Fault Refusal} (p : State → Bool)
    (h : (nextOf o).any p = true) : ∃ t, o = .next t ∧ p t = true := by
  cases o with
  | next t => exact ⟨t, rfl, h⟩
  | fault f => cases h
  | refused r => cases h

theorem exists_of {s : State} {l : LinkId} (h : s.hasLink l = true) : LinkExists s l := by
  unfold LinkExists
  simpa [State.hasLink, State.linkInRange] using h

theorem missing_of {s : State} {l : LinkId} (h : s.hasLink l = false) : ¬ LinkExists s l := by
  intro ⟨h1, h2⟩
  simp [State.hasLink, State.linkInRange, h1, h2] at h

/-- Zero timing constants, as a Bool. -/
def disabled (r : LinkRegs) : Bool := decide (r.rxc = 0 ∧ r.rxi = 0 ∧ r.rxs = 0 ∧ r.txd = 0)

/-- A configured register set, as a Bool. -/
def createdOk (c : Config) (l : LinkId) (r : LinkRegs) : Bool :=
  decide (l.toNat < c.nLinks) && pinsUsable c r.rxpin r.txpin && (r.init || disabled r) &&
  (disabled r || decide (∃ row ∈ timingRom c, r.rxc = row.rxCenter ∧ r.rxi = row.rxIntra ∧
    r.rxs = row.rxStop ∧ r.txd = row.txDelay))

/-- The invariant as a Bool. -/
def invCheck (s : State) : Bool :=
  decide s.cfg.WF && decide (s.head < s.cfg.rxBufSize) && decide (s.tail < s.cfg.rxBufSize) &&
  decide (∀ l, s.active = some l → s.hasLink l = true) &&
  decide (s.rxSt = .idle ∨ s.txSt = .idle) &&
  decide (s.ie = true ↔ s.rxSt = .idle ∧ s.txSt = .idle) &&
  decide (s.txSt ≠ .idle → s.hostSt = .write ∧ s.txL = s.wnL ∧ s.txSie = true) &&
  decide (∀ l, (s.link l).exists_ = true → createdOk s.cfg l (s.link l) = true) &&
  decide (∀ l, (s.link l).exists_ = false →
    (s.link l).init = false ∧ disabled (s.link l) = true ∧ (s.link l).ovf = false) &&
  decide (s.ports.length = s.cfg.nPorts) && decide (s.rxSt ≠ .idle → s.active = some s.rxL) &&
  decide (s.hostSt = .write → s.active = some s.wnL ∧ (s.link s.wnL).txd ≠ 0) &&
  decide (s.rxSt ≠ .idle ∨ s.txSt ≠ .idle → 0 < s.dly) && decide (s.hostSt = .delay → 0 < s.hdly) &&
  decide (s.hostSt = .write → s.txSt = .idle → s.wnQ ≠ []) &&
  decide (s.hostSt = .write →
    s.wnSum.toNat + s.wnQ.length + (if s.txSt = .idle then 0 else 1) ≤ 65535) &&
  s.rxbuf.wf && decide (∀ c ∈ s.rxbuf, c.1 < s.cfg.rxBufSize) &&
  decide (s.active = none → s.head = 0 ∧ s.tail = 0 ∧ s.pend = false ∧ ∀ p ∈ s.ports, p.pcmsk = 0)

theorem disabled_of {r : LinkRegs} (h : disabled r = true) : r.Disabled := by
  unfold LinkRegs.Disabled
  simpa only [disabled, decide_eq_true_eq] using h

theorem created_of {c : Config} {l : LinkId} {r : LinkRegs} (h : createdOk c l r = true) :
    r.Created c l := by
  simp only [createdOk, Bool.and_eq_true, Bool.or_eq_true, decide_eq_true_eq] at h
  obtain ⟨⟨⟨h1, h2⟩, h3⟩, h4⟩ := h
  exact ⟨h1, h2, h4.imp disabled_of id,
    fun hf => h3.elim (fun ht => absurd (ht.symm.trans hf) (by decide)) disabled_of⟩

theorem inv_of {s : State} (h : invCheck s = true) : s.Inv := by
  simp only [invCheck, Bool.and_eq_true, decide_eq_true_eq] at h
  obtain ⟨⟨⟨⟨⟨⟨⟨⟨⟨⟨⟨⟨⟨⟨⟨⟨⟨⟨h1, h2⟩, h3⟩, h4⟩, h5⟩, h6⟩, h7⟩, h8⟩, h9⟩, h10⟩, h11⟩, h12⟩, h13⟩,
    h14⟩, h15⟩, h16⟩, h17⟩, h18⟩, h19⟩ := h
  exact ⟨h1, h2, h3, h4, h5, h6, h7, fun l hl => created_of (h8 l hl),
    fun l hl => ⟨(h9 l hl).1, disabled_of (h9 l hl).2.1, (h9 l hl).2.2⟩,
    h10, h11, h12, h13, h14, h15, h16, h17, h18, h19⟩

/-! ### Small states -/

/-- Reset in T1, every input line high for some ticks, with commands to offer. -/
def idle (cmds : List HostCmd) : State :=
  { State.reset with cmds := cmds, env := List.replicate 4 [0xFF] }

/-- After `CREATE L0, P0, P1` (V-PIN1), and after `CREATE L1, P2, P3` too (V-PIN2). -/
def pin1 : State := after (exec (.create 0 0 1) (idle []))
def pin2 : State := after (exec (.create 1 2 3) pin1)

/-- Setup S0 (95_test_vectors.md section 0) at tick 2, P0 high, nothing being answered. -/
def s0 : State :=
  { after (exec (.begin 0 9600) pin1) with
    t := 2, resp := none, ports := [⟨0x02, 0x02, 0xFF, 0xFF, 0x01⟩] }

/-- Setup S0 and a second link (V-REG2, V-REG3). -/
def s0b : State := { after (exec (.create 1 2 3) s0) with resp := none }

/-- Setup S0 with its FIFO indices and receive RAM. -/
def fifo (head tail : Nat) (ram : Memory) : State := { s0 with head := head, tail := tail, rxbuf := ram }

/-- Setup S0 with L0's overflow flag set. -/
def ovf0 (s : State) : State := s.setOvf 0 true

/-- Setup S0 with the receive engine, the transmit engine, or a DELAY running. -/
def receiving (st : RxSt) (i : Fin 8) (d : Byte) (dly : Nat) : State :=
  { s0 with rxSt := st, rxI := i, rxD := d, dly := dly, ie := false }
def sending (st : TxSt) (i : Fin 8) (q : List Byte) (dly : Nat) : State :=
  { s0 with txSt := st, txI := i, txD := 0x41, txSie := true, ie := false, dly := dly,
            hostSt := .write, wnQ := q }
/-- Between two frames of a WRITEN. -/
def between : State := { sending .idle 0 [0x69] 0 with ie := true }
def delaying (s : State) (n : Nat) : State := { s with hostSt := .delay, hdly := n }

/-- P0 low in the coming tick. -/
def low (s : State) : State := { s with env := [[0xFE]] }
/-- P0 low in the coming tick and every delay 0 ticks. -/
def allLow (s : State) : State :=
  { low s with cfg := { s.cfg with delaySegs := [⟨0, 0, 0⟩] } }

/-- Setup S0 with a configuration changed: a frame then starts, or the line is checked, at once or
later. -/
def with_ (s : State) (f : Config → Config) : State := { s with cfg := f s.cfg }

/-! ### WellFormed -/

theorem test_wf_refuses_long_writen :
    (Instr.writen 0 (List.replicate 65536 0)).wellFormed = false := by
  rw [Instr.wellFormed, List.length_replicate]
  rfl

/-- The longest list the encoding admits. -/
theorem witness_DecodeInvertsEncode :
    (Instr.writen 0 (List.replicate 65535 0)).wellFormed = true := by
  rw [Instr.wellFormed, List.length_replicate]
  rfl

/-! ### Decode: words written out from 30_encoding.md R102 and R115, 95_test_vectors.md -/

theorem test_decode_create : decode ⟨0b0001_0000_00000000_00000001_00000000, []⟩ = .ok (.create 0 0 1) := by
  decide
theorem test_decode_create_fields :
    decode ⟨0b0001_1111_11111110_00000111_00000000, []⟩ = .ok (.create 15 254 7) := by decide
theorem test_decode_begin :
    decode ⟨0b0010_0000_00000000_00000000_00000000, [9600]⟩ = .ok (.begin 0 9600) := by decide
theorem test_decode_write :
    decode ⟨0b0011_0000_00000000_00000000_01000001, []⟩ = .ok (.write 0 0x41) := by decide
theorem test_decode_writen : decode ⟨0x40000005, [0x04030201, 0x00000005]⟩ =
    .ok (.writen 0 [1, 2, 3, 4, 5]) := by decide
/-- V-ENC23: the slack bytes are ignored. -/
theorem test_decode_writen_slack : decode ⟨0x40000001, [0xFFFFFF41]⟩ = .ok (.writen 0 [0x41]) := by
  decide
theorem test_decode_read :
    decode ⟨0b0101_0010_00000000_00000000_00000000, []⟩ = .ok (.read 2) := by decide
theorem test_decode_avail : decode ⟨0x61000000, []⟩ = .ok (.avail 1) := by decide
theorem test_decode_flush : decode ⟨0x70000000, []⟩ = .ok (.flush 0) := by decide
theorem test_decode_activate : decode ⟨0x81000000, []⟩ = .ok (.activate 1) := by decide
theorem test_decode_ovfl : decode ⟨0x9F000000, []⟩ = .ok (.ovfl 15) := by decide
theorem test_decode_delay :
    decode ⟨0b1010_0000_00000000_00000000_00010100, []⟩ = .ok (.delay 20) := by decide

/-- V-ENC1, 2, 3: reserved opcodes. -/
theorem test_decode_reserved_opcode : decode ⟨0x00000000, []⟩ = .error .reservedOpcode ∧
    decode ⟨0xB0000000, []⟩ = .error .reservedOpcode ∧
    decode ⟨0xF1234567, []⟩ = .error .reservedOpcode := by decide
/-- V-ENC7, 10, 18, 20, 21: reserved bits. -/
theorem test_decode_reserved_bits : decode ⟨0x50000001, []⟩ = .error .reservedBits ∧
    decode ⟨0x10000101, []⟩ = .error .reservedBits ∧ decode ⟨0x40010000, []⟩ = .error .reservedBits ∧
    decode ⟨0x30000141, []⟩ = .error .reservedBits ∧ decode ⟨0xA1000000, []⟩ = .error .reservedBits := by
  decide
/-- V-ENC14, 15, 17: operand words. -/
theorem test_decode_operand_count : decode ⟨0x20000000, []⟩ = .error .operandCount ∧
    decode ⟨0x20000000, [0x2580, 0]⟩ = .error .operandCount ∧
    decode ⟨0x40000005, [0]⟩ = .error .operandCount := by decide
/-- spec/opcode_table.json's numbering: the operand word stands above the command word. -/
theorem test_decode_table_word :
    decodeTableWord 64 0x0000258020000000 = some (.begin 0 9600) ∧
    decodeTableWord 32 0x40000005 = some (.writen 0 [0, 0, 0, 0, 0]) ∧
    decodeTableWord 32 0xB0000000 = none := by decide

/-- V-PIN and assembler vectors of section 2.1, E5 and E6. -/
theorem test_assemble_noteon :
    (assemble (.noteOn 0 1 60 100)).toOption.map encode = some ⟨0x40000003, [0x00643C91]⟩ := by decide
theorem test_assemble_mastervol : (assemble (.masterVol127 0)).toOption.map encode =
    some ⟨0x40000008, [0x047F7FF0, 0xF77F0001]⟩ := by decide
theorem test_assemble_print :
    assembleText ['P', 'R', 'I', 'N', 'T', ' ', 'L', '0', ',', ' ', asmQuote, 'H', 'i', asmQuote] =
      .ok (some ⟨0x40000002, [0x00006948]⟩) := by decide
/-- R115, R116: a WRITEN of no byte; a byte and a link that do not fit. -/
theorem test_assemble_writen :
    (assemble (.writen 15 [])).toOption.map encode = some ⟨0x4F000000, []⟩ ∧
    assemble (.writen 0 [255, 256]) = .error .byteValue ∧
    assemble (.ovfl 16) = .error .linkNumber := by decide
theorem test_assemble_link_range :
    assemble (.create 16 0 1) = .error .linkNumber ∧
    assembleText ['C', 'R', 'E', 'A', 'T', 'E', ' ', 'L', '2', ',', 'P', '0', ',', 'P', '1'] =
      .ok (some ⟨0x12000100, []⟩) := by decide

/-! ### Instructions -/

/-- V-PIN1, V-PIN2. -/
theorem test_create : answer (exec (.create 0 0 1) (idle [])) = some (0, 0) ∧
    pin1.ports.map (fun p => (p.dir, p.out)) = [(0x02, 0x02)] ∧
    pin1.link 0 = ⟨true, false, 0, 1, 0, 0, 0, 0, false⟩ ∧
    pin2.ports.map (fun p => (p.dir, p.out)) = [(0x0A, 0x0A)] := by decide
/-- V-ENC6, 9, 11, 12, 13. -/
theorem test_create_checks : answer (exec (.create 0 0 1) pin1) = some (3, 0) ∧
    answer (exec (.create 1 0 0) pin1) = some (4, 0) ∧
    answer (exec (.create 1 2 8) pin1) = some (4, 0) ∧
    answer (exec (.create 2 0 1) pin1) = some (2, 0) := by decide
/-- V-PIN3. -/
theorem test_begin : answer (exec (.begin 0 9600) pin1) = some (0, 0) ∧
    s0.link 0 = ⟨true, true, 0, 1, 5, 10, 10, 10, false⟩ ∧ s0.active = some 0 ∧
    (after (exec (.begin 0 9600) pin1)).ports.map (·.pcmsk) = [0x01] := by decide
/-- V-PIN4, V-PIN5: a repeated BEGIN, an unsupported baud. -/
theorem test_begin_ignored : (after (exec (.begin 0 4800) s0)).link 0 = s0.link 0 ∧
    (after (exec (.begin 1 1234) pin2)).link 1 = ⟨true, true, 2, 3, 0, 0, 0, 0, false⟩ ∧
    (after (exec (.begin 1 1234) pin2)).ports.map (·.pcmsk) = [0x00] ∧
    (after (exec (.begin 1 1234) pin2)).active = some 1 := by decide
/-- V-TX1: the start bit is driven in the accepting tick, `IE` is 0, no response yet. -/
theorem test_write : answer (exec (.write 0 0x41) s0) = none ∧
    (after (exec (.write 0 0x41) s0)).drivenLevel 1 = some false ∧
    (after (exec (.write 0 0x41) s0)).ie = false ∧
    (after (exec (.write 0 0x41) s0)).dly = 10 := by decide
/-- V-PIN7: no transmit delay, so no frame and no activation. -/
theorem test_write_noop :
    answer (exec (.write 1 0x55) pin2) = some (0, 0) ∧
    (after (exec (.write 1 0x55) pin2)).drivenLevel 3 = some true ∧
    (after (exec (.write 1 0x55) pin2)).active = none := by decide
/-- V-TX2: the first byte's frame starts, the second waits; V-ENC19: no byte. -/
theorem test_writen : (after (exec (.writen 0 [0x48, 0x69]) s0)).wnQ = [0x69] ∧
    (after (exec (.writen 0 [0x48, 0x69]) s0)).txD = 0x48 ∧
    answer (exec (.writen 0 []) s0) = some (0, 0) := by decide
/-- R236: a no-op counts `NOOP_WRITE_RESULT` a byte. -/
theorem test_writen_noop : answer (exec (.writen 1 [1, 2, 3]) pin2) = some (0, 0) ∧
    answer (exec (.writen 1 [1, 2, 3]) (with_ pin2 fun c => { c with noopWriteResult := 1 })) =
      some (0, 3) := by decide
/-- V-RX6. -/
theorem test_read : answer (exec (.read 0) (fifo 3 0 [(3, 0x41)])) = some (0, 0x41) ∧
    (after (exec (.read 0) (fifo 3 0 [(3, 0x41)]))).head = 0 ∧
    answer (exec (.read 0) (fifo 0 0 [(3, 0x41)])) = some (0, 0xFFFFFFFF) := by decide
/-- V-REG2: the switch discards. -/
theorem test_read_switch :
    answer (exec (.read 1) { s0b with head := 1, tail := 3 }) = some (0, 0xFFFFFFFF) ∧
    (after (exec (.read 1) { s0b with head := 1, tail := 3 })).tail = 0 := by decide
/-- V-RX5, V-RX6. -/
theorem test_avail : answer (exec (.avail 0) (fifo 3 1 [])) = some (0, 2) ∧
    answer (exec (.avail 0) (fifo 3 0 [])) = some (0, 1) ∧
    answer (exec (.avail 0) (fifo 0 3 [])) = some (0, 3) := by decide
/-- V-RX6. -/
theorem test_flush : answer (exec (.flush 0) (fifo 1 3 [])) = some (0, 0) ∧
    (after (exec (.flush 0) (fifo 1 3 []))).head = 0 ∧
    (after (exec (.flush 0) (fifo 1 3 []))).tail = 0 := by decide
/-- R203: FLUSH keeps the active link's overflow flag. -/
theorem test_flush_keeps_ovf : ((after (exec (.flush 0) (ovf0 s0))).link 0).ovf = true := by decide
/-- V-REG1. -/
theorem test_activate : answer (exec (.activate 0) pin2) = some (0, 1) ∧
    answer (exec (.activate 0) (after (exec (.activate 0) pin2))) = some (0, 0) := by decide
/-- V-REG3. -/
theorem test_activate_ovf :
    let s := (ovf0 s0b).setOvf 1 true
    let t := after (exec (.activate 1) s)
    answer (exec (.activate 1) s) = some (0, 1) ∧ answer (exec (.ovfl 0) t) = some (0, 1) ∧
      answer (exec (.ovfl 1) t) = some (0, 0) := by decide
/-- V-REG4: neither READ of the active link nor OVFL clears the flag. -/
theorem test_ovfl : answer (exec (.ovfl 0) (after (exec (.read 0) (ovf0 s0)))) = some (0, 1) ∧
    ((after (exec (.ovfl 0) (ovf0 s0))).link 0).ovf = true := by decide
/-- V-ENC24. -/
theorem test_ovfl_no_link : answer (exec (.ovfl 0) (idle [])) = some (2, 0) := by decide
/-- V-DLY1, V-DLY3. -/
theorem test_delay : (after (exec (.delay 20) (idle []))).hdly = 20 ∧
    answer (exec (.delay 20) (idle [])) = none ∧
    answer (exec (.delay 0) (idle [])) = some (0, 0) := by decide
/-- V-DLY2: the last tick answers. -/
theorem test_delay_last : answer (step (delaying (idle []) 1)) = some (0, 0) ∧
    answer (step (delaying (idle []) 2)) = none := by decide

/-! ### The tick -/

/-- V-ENC5, V-RST2 through a step; V-ENC1. -/
theorem test_step_reset : answer (step (idle [⟨0, ⟨0x50000000, []⟩⟩])) = some (2, 0) ∧
    answer (step (idle [⟨0, ⟨0x00000000, []⟩⟩])) = some (1, 0) ∧
    answer (step (idle [⟨1, ⟨0x50000000, []⟩⟩])) = none := by decide
theorem test_step_fetched :
    (nextOf (step (State.reset.withFetchWord 32 0xA0000014))).map (fun t => (t.hdly, t.hostSt)) =
      some (20, .delay) ∧
    answer (step (State.reset.withFetchWord 32 0x90000000)) = some (2, 0) := by decide
/-- V-RX1 at tick 100: the falling edge is dispatched and the start bit found in one tick. -/
theorem test_dispatch :
    (nextOf (step (low s0))).map (fun t => (t.rxSt, t.dly, t.ie)) = some (.center, 5, false) := by decide
/-- V-RX1 at ticks 190 and 195: a commit. -/
theorem test_commit : (nextOf (step (receiving .stop 7 0x41 1))).map
    (fun t => (t.rxbuf, t.tail, t.ie, t.rxSt)) = some ([(0, 0x41)], 1, true, .idle) := by decide
/-- V-RX4 at tick 495: the fourth byte of a FIFO of three is dropped. -/
theorem test_overflow : (nextOf (step { receiving .stop 7 4 1 with tail := 3 })).map
    (fun t => (t.rxbuf, t.tail, (t.link 0).ovf)) = some ([], 3, true) := by decide
/-- V-TX1 at tick 102. -/
theorem test_frame_end : answer (step (sending .stop 7 [] 1)) = some (0, 1) ∧
    (nextOf (step (sending .stop 7 [] 1))).map (·.ie) = some true := by decide
/-- V-PIN9: a driven pin reads back its level whatever the environment gives. -/
theorem test_readback :
    ({ pin1 with env := [[0x00]] } : State).phase1.ports.map (·.inp) = [0x02] := by decide
/-- V-INT4, V-INT3: no change at tick 0, none on an unarmed pin. -/
theorem test_no_edge : ({ low s0 with t := 0 } : State).phase1.pend = false ∧
    (low { pin1 with t := 5 }).phase1.pend = false ∧ (low s0).phase1.pend = true := by decide

/-! ### Witnesses: the hypotheses of the obligations can be met, clause by clause -/

theorem inv_idle : (idle []).Inv := inv_of (by decide)
theorem inv_pin2 : pin2.Inv := inv_of (by decide)
theorem inv_s0 : s0.Inv := inv_of (by decide)
theorem inv_s0b : s0b.Inv := inv_of (by decide)

theorem witness_EncodeInvertsDecode :
    decode ⟨0x40000001, [0xFFFFFF41]⟩ = .ok (.writen 0 [0x41]) ∧
    decode ⟨0x21000000, [0xFFFFFFFF]⟩ = .ok (.begin 1 0xFFFFFFFF) := by decide

theorem witness_IllegalRecordsAreAnsweredIllegal : (idle []).hostSt = .free ∧
    ¬ FitsTable ⟨0x00000000, []⟩ ∧ ¬ FitsTable ⟨0x20000000, []⟩ ∧ ¬ FitsTable ⟨0x50000001, []⟩ := by
  refine ⟨rfl, ?_, ?_, ?_⟩ <;> simp [FitsTable, tableRows]

/-- One record for each clause of FieldsAreUnsignedBitsOfTheWord, fields at their largest. -/
theorem witness_FieldsAreUnsignedBitsOfTheWord :
    decode ⟨0x1FFFFF00, []⟩ = .ok (.create 15 255 255) ∧
    decode ⟨0x2F000000, [0xFFFFFFFF]⟩ = .ok (.begin 15 0xFFFFFFFF) ∧
    decode ⟨0x3F0000FF, []⟩ = .ok (.write 15 0xFF) ∧
    decode ⟨0x4F000001, [0x000000FF]⟩ = .ok (.writen 15 [0xFF]) ∧
    decode ⟨0x5F000000, []⟩ = .ok (.read 15) ∧ decode ⟨0xA000FFFF, []⟩ = .ok (.delay 0xFFFF) := by
  decide

theorem witness_PayloadIsLittleEndianInWords :
    decode ⟨0x40000005, [0x04030201, 0x00000005]⟩ = .ok (.writen 0 [1, 2, 3, 4, 5]) := by decide

/-- Both clauses: a record that decodes, one that does not, each offered now. -/
theorem witness_StepRunsDecodedInstruction (r : CmdRecord) :
    (idle [⟨0, r⟩]).cfg.WF ∧ (idle [⟨0, r⟩]).phase1.Ready ∧ (idle [⟨0, r⟩]).cmds = ⟨0, r⟩ :: [] ∧
    decode ⟨0xA0000014, []⟩ = .ok (.delay 20) ∧ decode ⟨0, []⟩ = .error .reservedOpcode :=
  ⟨(inv_idle).cfgWF, ⟨rfl, rfl, .inl rfl, rfl⟩, rfl, by decide, by decide⟩

theorem witness_PlacedWordRunsNext : (receiving .bit 3 0 5).cfg.WF ∧
    decodeTableWord 32 0xA0000014 = some (.delay 20) := by decide

/-- The four clauses. -/
theorem witness_PhaseTwoPrecedence : s0.cfg.WF ∧ (receiving .bit 3 0 5).phase1.rxSt ≠ .idle ∧
    (sending .bit 3 [] 5).phase1.txSt ≠ .idle ∧
    ((low s0).phase1.pend = true ∧ (low s0).phase1.ie = true) ∧ s0.phase1.pend = false := by decide

/-- A command taken, and one that waits; a ready core with no command and with one for the next
tick. -/
theorem witness_OfferedCommandWaitsUntilAccepted :
    (∃ t, step (idle [⟨0, ⟨0xA0000000, []⟩⟩]) = .next t ∧ decide (t.cmds = []) = true) ∧
    (∃ t, step (idle [⟨1, ⟨0xA0000000, []⟩⟩]) = .next t ∧ decide (t.cmds ≠ []) = true) ∧
    s0.cfg.WF ∧ (s0.phase1.Ready ∧ s0.phase1.hostOffers = false) ∧
    (idle []).cfg.WF ∧ (idle [⟨1, ⟨0xA0000000, []⟩⟩]).phase1.Ready ∧
    (idle [⟨1, ⟨0xA0000000, []⟩⟩]).phase1.hostOffers = false :=
  ⟨next_with _ (by decide), next_with _ (by decide), by decide,
    ⟨⟨rfl, rfl, .inl (by decide), rfl⟩, by decide⟩, by decide,
    ⟨rfl, rfl, .inl (by decide), rfl⟩, by decide⟩

theorem witness_AtomicCommandsCompleteAtOnce :
    ∃ t, exec (.ovfl 0) s0 = .next t ∧ decide (t.resp.isSome) = true := next_with _ (by decide)

/-- A driven bit and one that is not. -/
theorem witness_DrivenBitsReadBack :
    s0.ports[0]? = some ⟨0x02, 0x02, 0xFF, 0xFF, 0x01⟩ ∧ bitAt 0x02 1 = true ∧ bitAt 0x02 7 = false := by
  decide

/-- Pins at both ends of a port; P1 is driven. -/
theorem witness_PinWriteSetsOneOutputBit : pinEntry s0.cfg 7 = some ⟨7, 0, 7⟩ ∧
    pinEntry s0.cfg 1 = some ⟨1, 0, 1⟩ ∧ (s0.ports[0]?).map (fun r => bitAt r.dir 1) = some true := by
  decide

theorem witness_ArmedPinsStayArmed :
    (∃ t, step s0 = .next t ∧ decide (t.t = 3) = true) ∧
    (s0.ports[0]?).map (fun r => bitAt r.pcmsk 0) = some true := ⟨next_with _ (by decide), by decide⟩

/-- A baud that has a row, and one next to it that has none (E1). -/
theorem witness_LookupIsExactMatch : Config.t1.WF ∧
    (⟨9600, 5, 10, 10, 10⟩ ∈ timingRom Config.t1) ∧
    (∀ row ∈ timingRom Config.t1, row.baud ≠ (9601 : Word)) := by decide

theorem witness_DelayBlocksTheHost : delayTicks s0.cfg 0 = 0 ∧ delayTicks s0.cfg 65535 = 65535 := by
  decide

/-- A host step that ends the delay, one that does not, and ticks that are not the host's. -/
theorem witness_DelayCountsHostStepsOnly :
    (∃ t, step (delaying s0 1) = .next t ∧ decide (t.hdly = 0) = true) ∧
    (∃ t, step (delaying s0 2) = .next t ∧ decide (t.hdly = 1) = true) ∧
    (∃ t, step (delaying (low s0) 2) = .next t ∧ decide (t.hdly = 2) = true) ∧
    (delaying (low s0) 2).phase1.pend = true ∧ (delaying s0 2).phase1.pend = false :=
  ⟨next_with _ (by decide), next_with _ (by decide), next_with _ (by decide), by decide, by decide⟩

theorem witness_UndisturbedDelayLastsItsTicks (n : Nat) (h : 0 < n) :
    (delaying (idle []) n).Inv ∧ (delaying (idle []) n).hostSt = .delay ∧
    (delaying (idle []) n).rxSt = .idle ∧ (delaying (idle []) n).pend = false ∧
    ∀ p ∈ (delaying (idle []) n).ports, p.pcmsk = 0 := by
  have hi := inv_idle
  exact ⟨⟨hi.1, hi.2, hi.3, hi.4, hi.5, hi.6, fun h => absurd rfl h, hi.8, hi.9, hi.10, hi.11,
    nofun, hi.13, fun _ => h, nofun, nofun, hi.17, hi.18, hi.19⟩, rfl, rfl, rfl,
    (hi.beforeActive rfl).2.2.2⟩

/-- The four clauses, at the first link id out of range and the last in it. -/
theorem witness_CreateConfiguresLink :
    s0b.cfg.nLinks ≤ (2 : LinkId).toNat ∧
    ((1 : LinkId).toNat < s0b.cfg.nLinks ∧ (s0b.link 1).exists_ = true) ∧
    ((1 : LinkId).toNat < s0.cfg.nLinks ∧ (s0.link 1).exists_ = false) ∧
    (pinEntry s0.cfg 8 = none ∧ pinEntry s0.cfg 7 = some ⟨7, 0, 7⟩ ∧ pinEntry s0.cfg 6 = some ⟨6, 0, 6⟩) ∧
    s0.cfg.WF ∧ s0.ports.length = s0.cfg.nPorts := by decide

/-- No link, a link begun, and a link to begin while another is active, with a matching baud. -/
theorem witness_BeginConfiguresTiming : ¬ LinkExists s0b 2 ∧
    (LinkExists s0b 0 ∧ (s0b.link 0).init = true) ∧
    (s0b.Inv ∧ LinkExists s0b 1 ∧ (s0b.link 1).init = false ∧ s0b.active ≠ some 1) ∧
    (⟨4800, 10, 20, 20, 20⟩ ∈ timingRom s0b.cfg) ∧ (∀ row ∈ timingRom s0b.cfg, row.baud ≠ (0 : Word)) :=
  ⟨missing_of (by decide), ⟨exists_of (by decide), by decide⟩,
    ⟨inv_s0b, exists_of (by decide), by decide, by decide⟩, by decide, by decide⟩

/-- A link already active when it is first begun. -/
theorem witness_BeginConfiguresTiming_active :
    let s := after (exec (.activate 1) s0b)
    LinkExists s 1 ∧ (s.link 1).init = false ∧ s.active = some 1 ∧ s.Inv :=
  ⟨exists_of (by decide), by decide, by decide, inv_of (by decide)⟩

/-- For ACTIVATE, OVFL, READ, AVAIL and FLUSH: no link, the active link, another link. -/
theorem witness_RegistryCommands : ¬ LinkExists s0b 2 ∧
    (LinkExists s0b 0 ∧ s0b.active = some 0) ∧ (LinkExists s0b 1 ∧ s0b.active ≠ some 1) :=
  ⟨missing_of (by decide), ⟨exists_of (by decide), by decide⟩, exists_of (by decide), by decide⟩

/-- READ of the active link, from an empty FIFO and from one that is full and wraps. -/
theorem witness_ReadTakesTheOldestByte : (fifo 3 3 []).head = (fifo 3 3 []).tail ∧
    (fifo 3 2 []).head ≠ (fifo 3 2 []).tail ∧ (fifo 3 2 []).head < (fifo 3 2 []).cfg.rxBufSize ∧
    (fifo 3 2 []).active = some 0 ∧ (fifo 3 2 []).hasLink 0 = true := by decide

theorem witness_AvailCountsTheFifo :
    ((fifo 3 2 []).tail + (fifo 3 2 []).cfg.rxBufSize - (fifo 3 2 []).head) %
      (fifo 3 2 []).cfg.rxBufSize = 3 := by decide

theorem witness_ActiveNeverReturnsToNone :
    ∃ t, step s0 = .next t ∧ decide (s0.active ≠ none) = true := next_with _ (by decide)

/-- A flag that is set, and one that is cleared. -/
theorem witness_OverflowFlagIsSticky :
    (({ receiving .stop 7 4 1 with tail := 3 } : State).Inv ∧
      ∃ t, step { receiving .stop 7 4 1 with tail := 3 } = .next t ∧
        decide ((t.link 0).ovf = true ∧ (s0.link 0).ovf = false) = true) ∧
    (({ s0b.setOvf 1 true with cmds := [⟨0, ⟨0x81000000, []⟩⟩] } : State).Inv ∧
      ∃ t, step { s0b.setOvf 1 true with cmds := [⟨0, ⟨0x81000000, []⟩⟩] } = .next t ∧
        decide ((t.link 1).ovf = false) = true) :=
  ⟨⟨inv_of (by decide), next_with _ (by decide)⟩, inv_of (by decide), next_with _ (by decide)⟩

/-- Room for a byte, none, and an empty FIFO. -/
theorem witness_FifoIsAQueue : (fifo 3 1 [(0, 8), (3, 7)]).Inv ∧
    (fifo 3 1 [(0, 8), (3, 7)]).fifo = [7, 8] ∧ (fifo 3 2 []).Inv ∧ (fifo 3 2 []).fifo = [0, 0, 0] ∧
    (fifo 3 3 []).Inv ∧ (fifo 3 3 []).fifo = [] ∧
    LinkExists (fifo 3 1 [(0, 8), (3, 7)]) 0 ∧ (fifo 3 1 [(0, 8), (3, 7)]).active = some 0 :=
  ⟨inv_of (by decide), by decide, inv_of (by decide), by decide, inv_of (by decide), by decide,
    exists_of (by decide), by decide⟩

/-- A step in which the running engine commits, one that dispatches and commits at once (R204), and
one that does not commit. -/
theorem witness_OnlyTheCommitWritesTheRam :
    (∃ t, step (receiving .stop 7 0x41 1) = .next t ∧ decide (t.rxbuf.read 0 = 0x41) = true) ∧
    (∃ t, step (allLow s0) = .next t ∧ decide (t.rxbuf.read 0 = t.rxD ∧ t.tail = 1) = true) ∧
    (∃ t, step s0 = .next t ∧ decide (t.rxbuf = []) = true) ∧
    (receiving .stop 7 0x41 1).rxbuf.wf = true :=
  ⟨next_with _ (by decide), next_with _ (by decide +kernel), next_with _ (by decide), by decide⟩

/-- A pending interrupt with an active link and with none; the entry latency 0 and not. -/
theorem witness_DispatchTakesTheInterrupt : s0.cfg.WF ∧ (low s0).phase1.pend = true ∧
    (low s0).ie = true ∧ (low s0).active = some 0 ∧ s0.cfg.latEntry = 0 ∧
    ({ idle [] with pend := true } : State).phase1.pend = true ∧ (idle []).active = none ∧
    (with_ (low s0) fun c => { c with latEntry := 3 }).cfg.WF := by
  refine ⟨by decide, by decide, by decide, by decide, by decide, by decide, by decide, by decide⟩

/-- A line that is high, one that is low. -/
theorem witness_LineCheckSortsSpuriousEdges :
    (receiving .entry 0 0 1).Inv ∧ (low (receiving .entry 0 0 1)).Inv ∧
    (receiving .entry 0 0 1).phase1.pinRead 0 = .ok true ∧
    (low (receiving .entry 0 0 1)).phase1.pinRead 0 = .ok false ∧
    0 < s0.cfg.ovhRxStart + delayTicks s0.cfg (s0.link 0).rxc := by
  refine ⟨inv_of (by decide), inv_of (by decide), ?_, ?_, by decide⟩ <;> rfl

/-- The centering point, the first bit, the last. -/
theorem witness_BitsAreSampledLsbFirst : (receiving .center 0 0 1).Inv ∧ (receiving .bit 0 0 1).Inv ∧
    (receiving .bit 7 0x41 1).Inv ∧ 0 < delayTicks s0.cfg (s0.link 0).rxi + s0.cfg.ovhRxBit ∧
    0 < delayTicks s0.cfg (s0.link 0).rxs + s0.cfg.ovhRxStop :=
  ⟨inv_of (by decide), inv_of (by decide), inv_of (by decide), by decide, by decide⟩

/-- Room for the byte, and none. -/
theorem witness_CommitStoresOrDrops : (receiving .stop 7 0x41 1).Inv ∧
    ({ receiving .stop 7 4 1 with tail := 3 } : State).Inv ∧ (0 + 1) % s0.cfg.rxBufSize ≠ s0.head ∧
    (3 + 1) % s0.cfg.rxBufSize = s0.head :=
  ⟨inv_of (by decide), inv_of (by decide), by decide, by decide⟩

/-- A step inside a frame and the step that returns. -/
theorem witness_NoNestedDispatch :
    ((receiving .bit 3 0 5).Inv ∧ ∃ t, step (receiving .bit 3 0 5) = .next t ∧ decide (t.ie = false) = true) ∧
    ((receiving .stop 7 0x41 1).Inv ∧
      ∃ t, step (receiving .stop 7 0x41 1) = .next t ∧ decide (t.ie = true) = true) :=
  ⟨⟨inv_of (by decide), next_with _ (by decide)⟩, inv_of (by decide), next_with _ (by decide)⟩

/-- A spurious edge (the dispatch is pending from before), and a start bit; room in the FIFO and
none; and both between two frames of a WRITEN. -/
theorem witness_ReceiveFrameSampleInstants :
    (({ s0 with pend := true } : State).Inv ∧ ({ s0 with pend := true } : State).phase1.pend = true ∧
      lineLevel { s0 with pend := true } ⟨0, 0, 0⟩ 0 = true) ∧
    ((low s0).Inv ∧ (low s0).phase1.pend = true ∧ lineLevel (low s0) ⟨0, 0, 0⟩ 0 = false) ∧
    pinEntry s0.cfg (s0.link 0).rxpin = some ⟨0, 0, 0⟩ ∧ s0.active = some 0 ∧
    ((0 + 1) % s0.cfg.rxBufSize ≠ s0.head ∧ (3 + 1) % s0.cfg.rxBufSize = s0.head) ∧
    (({ between with pend := true } : State).Inv ∧
      ({ between with pend := true } : State).phase1.pend = true ∧
      lineLevel { between with pend := true } ⟨0, 0, 0⟩ 0 = true) ∧
    (low between).Inv ∧ (low between).phase1.pend = true ∧
    lineLevel (low between) ⟨0, 0, 0⟩ 0 = false :=
  ⟨⟨inv_of (by decide), by decide, by decide⟩, ⟨inv_of (by decide), by decide, by decide⟩,
    by decide, by decide, by decide, ⟨inv_of (by decide), by decide, by decide⟩,
    inv_of (by decide), by decide, by decide⟩

/-- A link that can transmit, one that cannot, none; the start overhead 0 and not; a period of 0. -/
theorem witness_WriteStartsAFrame : ¬ LinkExists s0b 2 ∧
    (LinkExists s0b 1 ∧ (s0b.link 1).txd = 0) ∧
    (s0b.Inv ∧ LinkExists s0b 0 ∧ (s0b.link 0).txd ≠ 0 ∧ s0b.cfg.ovhTxStart = 0 ∧
      0 < delayTicks s0b.cfg (s0b.link 0).txd + s0b.cfg.ovhTxBit) ∧
    (with_ s0b fun c => { c with ovhTxStart := 2 }).Inv ∧
    (let z := with_ s0b fun c => { c with delaySegs := [⟨0, 0, 0⟩] }
     z.Inv ∧ delayTicks z.cfg (z.link 0).txd + z.cfg.ovhTxBit = 0) :=
  ⟨missing_of (by decide), ⟨exists_of (by decide), by decide⟩,
    ⟨inv_s0b, exists_of (by decide), by decide, by decide, by decide⟩, inv_of (by decide),
    inv_of (by decide), by decide⟩

/-- A byte due in a host step of a WRITEN; the other clauses as for WRITE. -/
theorem witness_WritenSendsOneFramePerByte :
    between.cfg.WF ∧ between.rxSt = .idle ∧
    between.txSt = .idle ∧ between.phase1.pend = false ∧
    between.hostSt = .write ∧ between.wnQ = 0x69 :: [] := by
  decide

/-- The spelled-out frame start: the invariant holds, with the start overhead 0 and not, and with a
period of 0. -/
theorem witness_WritenNextFrame : between.Inv ∧ between.cfg.ovhTxStart = 0 ∧
    0 < delayTicks between.cfg (between.link between.wnL).txd + between.cfg.ovhTxBit ∧
    (with_ between fun c => { c with ovhTxStart := 2 }).Inv ∧
    (let z := with_ between fun c => { c with delaySegs := [⟨0, 0, 0⟩] }
     z.Inv ∧ delayTicks z.cfg (z.link z.wnL).txd + z.cfg.ovhTxBit = 0) :=
  ⟨inv_of (by decide), by decide, by decide, inv_of (by decide), inv_of (by decide), by decide⟩

/-- Accepting, a frame between others, the last frame's end. -/
theorem witness_WriteAnswersItsNumberOfBytes :
    (s0.Inv ∧ LinkExists s0 0 ∧ (s0.link 0).txd ≠ 0) ∧
    (∃ t, step between = .next t ∧ decide (framesOf t = 1 ∧ t.hostSt = .write) = true) ∧
    ∃ t, step (sending .stop 7 [] 1) = .next t ∧ decide (t.resp = some ⟨.ok, 1⟩) = true :=
  ⟨⟨inv_s0, exists_of (by decide), by decide⟩, next_with _ (by decide), next_with _ (by decide)⟩

/-- Setup S0 sending, with a bit period of 0 ticks. -/
def quick (st : TxSt) (i : Fin 8) (q : List Byte) : State :=
  with_ (sending st i q 1) fun c => { c with delaySegs := [⟨0, 0, 0⟩] }

/-- Each part of a frame, the first and the last data bit; a period of 0, the last frame of a
command and not. -/
theorem witness_FrameIsDrivenLsbFirst : (sending .pre 0 [] 1).Inv ∧ (sending .start 0 [] 1).Inv ∧
    (sending .bit 0 [] 1).Inv ∧ (sending .bit 6 [] 1).Inv ∧ (sending .bit 7 [] 1).Inv ∧
    0 < delayTicks s0.cfg (s0.link 0).txd + s0.cfg.ovhTxBit ∧
    ((quick .pre 0 []).Inv ∧ (quick .pre 0 [0x69]).Inv ∧ (quick .bit 3 []).Inv) ∧
    delayTicks (quick .pre 0 []).cfg ((quick .pre 0 []).link 0).txd +
      (quick .pre 0 []).cfg.ovhTxBit = 0 :=
  ⟨inv_of (by decide), inv_of (by decide), inv_of (by decide), inv_of (by decide), inv_of (by decide),
    by decide, ⟨inv_of (by decide), inv_of (by decide), inv_of (by decide)⟩, by decide⟩

/-- R134, R232 to R234: the expiry of `PRE` with a period of 0 ends the frame in the tick. -/
theorem test_frame_in_one_tick :
    (nextOf (step (quick .pre 0 []))).map (fun t => (t.txSt, t.ie, t.ports.map (·.out))) =
      some (.idle, true, [0x02]) ∧
    answer (step (quick .pre 0 [])) = some (0, 1) ∧ answer (step (quick .pre 0 [0x69])) = none := by
  decide

theorem witness_FrameEndRestoresInterrupts : (sending .stop 7 [] 1).cfg.WF ∧
    (sending .stop 7 [] 1).txSt = .stop ∧ (sending .stop 7 [] 1).dly = 1 ∧
    (sending .stop 7 [] 1).wnQ = [] ∧ (sending .stop 7 [0x69] 1).wnQ ≠ [] := by decide

theorem witness_TransmitSuppressesReception : (low (sending .bit 3 [] 5)).Inv ∧
    ∃ t, step (low (sending .bit 3 [] 5)) = .next t ∧ decide (t.pend = true) = true :=
  ⟨inv_of (by decide), next_with _ (by decide)⟩

theorem witness_TransmitWaveform : s0.Inv ∧ LinkExists s0 0 ∧ (s0.link 0).txd ≠ 0 ∧
    s0.hostSt = .free ∧ pinEntry s0.cfg (s0.link 0).txpin = some ⟨1, 0, 1⟩ ∧
    (s0.ports[0]?).map (fun r => bitAt r.dir 1) = some true ∧
    0 < delayTicks s0.cfg (s0.link 0).txd + s0.cfg.ovhTxBit :=
  ⟨inv_s0, exists_of (by decide), by decide, by decide, by decide, by decide, by decide⟩

/-- Setup S0 with a bit period of 1 tick and no other delay, and a frame of 0x41 on P0. -/
def loop : State :=
  { with_ s0 (fun c => { c with delaySegs := [⟨0, 0, 0⟩], ovhRxBit := 1 }) with
    env := [[0xFE], [0xFF], [0xFE], [0xFE], [0xFE], [0xFE], [0xFE], [0xFF], [0xFE]] }

/-- A bit period of 1: every sample at the first tick of its cell. -/
theorem witness_LoopbackReproducesTheByte : loop.Inv ∧ loop.rxSt = .idle ∧ loop.txSt = .idle ∧
    0 < loop.t ∧ loop.active = some 0 ∧ pinEntry loop.cfg (loop.link 0).rxpin = some ⟨0, 0, 0⟩ ∧
    loop.ports[0]? = some ⟨0x02, 0x02, 0xFF, 0xFF, 0x01⟩ ∧ bitAt 0x01 0 = true ∧ bitAt 0xFF 0 = true ∧
    (∀ j, j ≤ 8 → lineLevel loop ⟨0, 0, 0⟩ j = waveform true 0x41 0 1 j) ∧ loop.cfg.latEntry < 1 ∧
    (delayTicks loop.cfg (loop.link 0).rxi + loop.cfg.ovhRxBit = 1 ∧
      delayTicks loop.cfg (loop.link 0).rxc = 0 ∧
      delayTicks loop.cfg (loop.link 0).rxs + loop.cfg.ovhRxStop = 0) ∧
    (∀ i, i < 8 → (i + 1) * 1 ≤ 0 + (i + 1) * 1 ∧ 0 + (i + 1) * 1 < (i + 2) * 1) ∧
    (loop.tail + 1) % loop.cfg.rxBufSize ≠ loop.head :=
  ⟨inv_of (by decide), by decide, by decide, by decide, by decide, by decide, by decide, by decide,
    by decide, by decide, by decide, by decide, by decide, by decide⟩

/-- Setup S0 with a bit period of 2 ticks, an entry latency of 1 and no other delay, and a frame of
0x41 on P0. -/
def loopLate : State :=
  { with_ s0 (fun c => { c with delaySegs := [⟨0, 0, 0⟩], ovhRxBit := 2, latEntry := 1 }) with
    env := [0xFE, 0xFF, 0xFE, 0xFE, 0xFE, 0xFE, 0xFE, 0xFF, 0xFE].flatMap fun r => [[r], [r]] }

/-- The other end of the cell: the line check and every sample in the last tick of theirs. -/
theorem witness_LoopbackAtTheLastTick : loopLate.Inv ∧ loopLate.rxSt = .idle ∧
    loopLate.txSt = .idle ∧ 0 < loopLate.t ∧ loopLate.active = some 0 ∧
    pinEntry loopLate.cfg (loopLate.link 0).rxpin = some ⟨0, 0, 0⟩ ∧
    loopLate.ports[0]? = some ⟨0x02, 0x02, 0xFF, 0xFF, 0x01⟩ ∧
    (∀ j, j ≤ 17 → lineLevel loopLate ⟨0, 0, 0⟩ j = waveform true 0x41 0 2 j) ∧
    loopLate.cfg.latEntry + 1 = 2 ∧
    (delayTicks loopLate.cfg (loopLate.link 0).rxi + loopLate.cfg.ovhRxBit = 2 ∧
      loopLate.cfg.latEntry + loopLate.cfg.ovhRxStart +
        delayTicks loopLate.cfg (loopLate.link 0).rxc = 1 ∧
      delayTicks loopLate.cfg (loopLate.link 0).rxs + loopLate.cfg.ovhRxStop = 0) ∧
    (∀ i, i < 8 → (i + 1) * 2 ≤ 1 + (i + 1) * 2 ∧ 1 + (i + 1) * 2 + 1 = (i + 2) * 2) ∧
    (loopLate.tail + 1) % loopLate.cfg.rxBufSize ≠ loopLate.head :=
  ⟨inv_of (by decide), by decide, by decide, by decide, by decide, by decide, by decide, by decide,
    by decide, by decide, by decide, by decide⟩

/-- A command that completes with an error, with OK, and one that does not complete. -/
theorem witness_ErrorStatusChangesNothing : s0.resp = none ∧ s0.hostSt = .free ∧
    answer (s0.accept ⟨0x51000000, []⟩) = some (2, 0) ∧ answer (s0.accept ⟨0, []⟩) = some (1, 0) ∧
    answer (s0.accept ⟨0x50000000, []⟩) = some (0, 0xFFFFFFFF) ∧
    answer (s0.accept ⟨0x30000000, []⟩) = none := by decide

theorem witness_ChecksAreMadeInOrder : ¬ LinkExists s0 1 ∧ ¬ FitsTable ⟨0xC2000000, []⟩ :=
  ⟨missing_of (by decide), by simp [FitsTable, tableRows]⟩

/-- Every instruction answers a next state somewhere: the premise of the frames. -/
theorem witness_Frames :
    (∃ t, exec (.activate 1) s0b = .next t ∧ decide (t.active = some 1) = true) ∧
    (∃ t, exec (.create 1 2 3) s0 = .next t ∧ decide ((t.link 1).exists_) = true) ∧
    (∃ t, exec (.begin 1 9600) s0b = .next t ∧ decide ((t.link 1).init) = true) ∧
    (∃ t, exec (.write 0 0x41) s0 = .next t ∧ decide (t.txSt = .start) = true) ∧
    (∃ t, exec (.writen 0 [1, 2]) s0 = .next t ∧ decide (t.wnQ = [2]) = true) ∧
    ∃ t, exec (.delay 3) s0 = .next t ∧ decide (t.hdly = 3) = true :=
  ⟨next_with _ (by decide), next_with _ (by decide), next_with _ (by decide), next_with _ (by decide),
    next_with _ (by decide), next_with _ (by decide)⟩

/-- ConfigurationIsFixed, ExistsAndInitAreSticky and StepKeepsTheInvariant: a step from the
invariant, of a link that exists and is begun. -/
theorem witness_Steps : s0.Inv ∧ (∃ t, step s0 = .next t ∧ decide (t.t = 3) = true) ∧
    (s0.link 0).exists_ = true ∧ (s0.link 0).init = true :=
  ⟨inv_s0, next_with _ (by decide), by decide, by decide⟩

theorem witness_ResetEventReachesReset : s0.ports.length = s0.cfg.nPorts ∧ s0.rxbuf.wf = true ∧
    ∀ c ∈ s0.rxbuf, c.1 < s0.cfg.rxBufSize := by decide

/-- NoRunTimeFault: the invariant holds with an engine running, a DELAY and a WRITEN under way. -/
theorem witness_NoRunTimeFault : (receiving .bit 7 0 1).Inv ∧ (sending .stop 7 [0x69] 1).Inv ∧
    between.Inv ∧ (delaying s0 1).Inv :=
  ⟨inv_of (by decide), inv_of (by decide), inv_of (by decide), inv_of (by decide)⟩

/-- A receive RAM of one slot (R12). -/
theorem witness_IllFormedConfigurationIsRefused :
    ¬ ({ s0 with cfg := { s0.cfg with rxBufSize := 1 } } : State).cfg.WF := by decide

end Sys2Proof.Tests
end

section
/-! PROOFS. Every step keeps the configuration and counts one tick (00_scope.md R10,
10_state.md R60); an ill-formed configuration has no runs (00_scope.md R12). -/

namespace Sys2Proof.Claims

open Sys2Proof Sys2Proof.Machine

/-- A transmit engine started on a loaded frame keeps the configuration and the tick counter. -/
theorem txRun_loadFrame_cfg_t {s u : State} {l : LinkId} {v : Byte}
    (h : TxRun (s.loadFrame l v) u) : u.cfg = s.cfg ∧ u.t = s.t := by
  obtain ⟨hcfg, ht, -⟩ := h.same
  exact ⟨hcfg.trans (loadFrame_cfg s l v), ht.trans (loadFrame_t s l v)⟩

/-- No command writes the configuration or the tick counter. -/
theorem cmdRun_cfg_t {i : Instr} {s u : State} (h : CmdRun i s u) :
    u.cfg = s.cfg ∧ u.t = s.t := by
  cases h with
  | begins => simp
  | sends _ _ _ _ _ _ _ hu =>
    obtain ⟨hcfg, ht⟩ := txRun_loadFrame_cfg_t hu
    exact ⟨hcfg, ht⟩
  | answers | switches | takes | flushes | delays | creates => exact ⟨rfl, rfl⟩

/-- No agent step writes the configuration or the tick counter: the counter moves at the end of the
tick only (10_state.md R60). -/
theorem agentStep_cfg_t {p u : State} (h : AgentStep p u) : u.cfg = p.cfg ∧ u.t = p.t := by
  cases h with
  | rx _ _ _ hu | starts _ _ _ _ _ _ _ hu =>
    obtain ⟨hcfg, ht, -⟩ := hu.same
    exact ⟨hcfg, ht⟩
  | tx _ _ _ _ hu =>
    obtain ⟨hcfg, ht, -⟩ := hu.same
    exact ⟨hcfg, ht⟩
  | nextFrame _ _ _ _ _ _ _ _ hu =>
    obtain ⟨hcfg, ht⟩ := txRun_loadFrame_cfg_t hu
    exact ⟨hcfg, ht⟩
  | accepts _ _ _ _ _ _ _ _ _ _ _ _ hu =>
    obtain ⟨hcfg, ht⟩ := cmdRun_cfg_t hu
    exact ⟨hcfg, ht⟩
  | rxReturn | unserved | spurious | enters | counts | delayEnds | idles | rejects =>
    exact ⟨rfl, rfl⟩

/-- Settles O51: a step is an agent step between phase 1 and the end of the tick, and only the end
of the tick writes `t`. -/
theorem configurationIsFixed : Obligations.ConfigurationIsFixed := by
  intro s t h
  obtain ⟨-, u, hu, rfl⟩ := step_cases h
  obtain ⟨hcfg, ht⟩ := agentStep_cfg_t hu
  exact ⟨hcfg, congrArg (· + 1) ht⟩

/-- Settles O57: the configuration is checked before the tick begins. -/
theorem illFormedConfigurationIsRefused : Obligations.IllFormedConfigurationIsRefused :=
  fun _ hc => if_neg hc

end Sys2Proof.Claims
end

section
/-! PROOFS. Every step keeps the invariant of 10_state.md R54: one lemma per operation an agent step
is made of, then the commands, then the agent steps. -/

namespace Sys2Proof.Machine

/-! ### The decoder's part -/

/-- A payload has no more bytes than the count asks for (30_encoding.md R104). -/
theorem payload_length_le (ops : List Word) (n : Nat) : (payload ops n).length ≤ n :=
  List.length_take_le _ _

/-- An operation's instruction can be encoded: `CNT`, the length of a WRITEN list, is 16 bits
(30_encoding.md R101). -/
theorem opcode_instr_wellFormed (o : Opcode) (r : CmdRecord) : (o.instr r).wellFormed = true := by
  cases o with
  | writen =>
    have hle := payload_length_le r.ops (cntField r.word).toNat
    have hlt := (cntField r.word).isLt
    exact decide_eq_true (by omega)
  | create | begin | write | read | avail | flush | activate | ovfl | delay => rfl

/-- What decodes can be encoded (R110). -/
theorem decode_wellFormed {r : CmdRecord} {i : Instr} (h : decode r = .ok i) :
    i.wellFormed = true := by
  unfold decode at h
  split at h
  · cases h
  · rename_i o _
    split at h
    · cases h
    · split at h
      · cases h
      · cases h
        exact opcode_instr_wellFormed o r

/-! ### Dispatch and return (60_exceptions.md R266, R267) -/

/-- A dispatch with no link to serve clears `PEND` only. -/
theorem State.Inv.clearPend {s : State} (h : s.Inv) : ({ s with pend := false } : State).Inv :=
  { h with
    beforeActive := fun hn =>
      have ⟨hhead, htail, _, hports⟩ := h.beforeActive hn
      ⟨hhead, htail, rfl, hports⟩ }

/-- A dispatch to the active link leaves a running receive engine, its counter not yet loaded. -/
theorem State.Inv.enterInterrupt {s : State} (h : s.Inv) (ht : s.txSt = .idle) {l : LinkId}
    (ha : s.active = some l) :
    ({ s with pend := false, ie := false, rxL := l, rxSt := .entry } : State).RxLive := by
  have hrun : RxSt.entry ≠ .idle := by decide
  exact ⟨hrun, { h with
    oneEngine := .inr ht
    ieIff := iff_of_false Bool.false_ne_true fun hidle => hrun hidle.1
    rxServes := fun _ => ha
    engineCounts := fun _ => Nat.one_pos
    beforeActive := fun hn => absurd (ha.symm.trans hn) (Option.some_ne_none l) }⟩

/-! ### The host's counters and the FIFO's indices -/

/-- `HDLY` may hold anything but 0 in a DELAY, and anything outside one. -/
theorem State.Inv.setHdly {s : State} (h : s.Inv) (n : Nat) (hn : s.hostSt = .delay → 0 < n) :
    ({ s with hdly := n } : State).Inv :=
  { h with delayCounts := hn }

/-- A DELAY with ticks to count begins outside a frame (40_timing_delay.md R137). -/
theorem State.Inv.startDelay {s : State} (h : s.Inv) (ht : s.txSt = .idle) {n : Nat} (hn : 0 < n) :
    ({ s with hdly := n, hostSt := .delay } : State).Inv :=
  { h with
    txHost := fun hrun => absurd ht hrun
    writeActive := fun hw => nomatch hw
    delayCounts := fun _ => hn
    frameDue := fun hw => nomatch hw
    writeCount := fun hw => nomatch hw }

/-- The indices of the active link's FIFO may stand on any slots (20_memory.md R94). -/
theorem State.Inv.setFifo {s : State} (h : s.Inv) {l : LinkId} (ha : s.active = some l)
    {hd tl : Nat} (hhd : hd < s.cfg.rxBufSize) (htl : tl < s.cfg.rxBufSize) :
    ({ s with head := hd, tail := tl } : State).Inv :=
  { h with
    headLt := hhd
    tailLt := htl
    beforeActive := fun hn => absurd (ha.symm.trans hn) (Option.some_ne_none l) }

/-! ### Frame starts (44_transmit.md R231) -/

/-- Each of the transmit engine's outcomes overwrites `TX_ST`: its value before does not matter. -/
theorem TxRun.restate {s u : State} (h : TxRun s u) (st : TxSt) :
    TxRun { s with txSt := st } u := by
  cases h with
  | waits st' k i ps hst hk hps => exact .waits st' k i ps hst hk hps
  | completed i ps hq hps => exact .completed i ps hq hps
  | frameEnded i ps hq hps => exact .frameEnded i ps hq hps

/-- A frame started with both engines idle, and run as far as its tick goes, ends in a state of the
invariant. -/
theorem State.Inv.frameStarted {s u : State} (h : s.Inv) (hr : s.rxSt = .idle) (ht : s.txSt = .idle)
    {l : LinkId} (hl : s.hasLink l = true) (hx : (s.link l).txd ≠ 0) {q : List Byte} {n : Word}
    (hn : n.toNat + q.length + 1 ≤ 65535) {v : Byte}
    (hu : TxRun
      (({ s with wnL := l, wnQ := q, wnSum := n, hostSt := .write } : State).loadFrame l v) u) :
    u.Inv :=
  (hu.restate .pre).inv (h.loadFrame hr ht hl hx q n hn v)

/-! ### CREATE and BEGIN (41_pins_links.md R154, R155) -/

/-- A change of output latches and directions arms no pin. -/
theorem DriveOnly.pcmsk_zero {ps ps' : List PortRegs} (h : DriveOnly ps ps')
    (hz : ∀ p ∈ ps, p.pcmsk = 0) : ∀ p ∈ ps', p.pcmsk = 0 := by
  intro p hp
  have hmem := List.mem_map_of_mem (f := fun r : PortRegs => { r with out := 0, dir := 0 }) hp
  rw [h] at hmem
  obtain ⟨q, hq, heq⟩ := List.mem_map.1 hmem
  exact (congrArg PortRegs.pcmsk heq).symm.trans (hz q hq)

/-- A register set CREATE has just configured: its constants are the zeros of reset (R154). -/
theorem LinkRegs.Untouched.create {r : LinkRegs} (h : r.Untouched) {c : Config} {l : LinkId}
    {rx tx : PinId} (hr : l.toNat < c.nLinks) (hp : pinsUsable c rx tx = true) :
    ({ r with rxpin := rx, txpin := tx, exists_ := true } : LinkRegs).Created c l :=
  ⟨hr, hp, .inl h.disabled, fun _ => h.disabled⟩

/-- CREATE's writes keep the invariant. -/
theorem State.Inv.create {s : State} (h : s.Inv) (hh : s.hostSt = .free) {l : LinkId}
    {rx tx : PinId} {ps : List PortRegs} (hr : s.linkInRange l = true)
    (hn : (s.link l).exists_ = false) (hp : pinsUsable s.cfg rx tx = true)
    (hps : DriveOnly s.ports ps) :
    ({ s.setLink l { s.link l with rxpin := rx, txpin := tx, exists_ := true } with
      ports := ps } : State).Inv := by
  have hlink := setLink_link s l { s.link l with rxpin := rx, txpin := tx, exists_ := true }
  refine { h with
    activeExists := fun k hk => ?_, created := fun k => ?_, untouched := fun k => ?_
    portCount := hps.length.trans h.portCount
    writeActive := fun hw => nomatch hh.symm.trans hw
    beforeActive := fun ha => ?_ }
  · have hne : k ≠ l := by
      rintro rfl
      exact Bool.false_ne_true (hn.symm.trans (hasLink_exists (h.activeExists k hk)))
    have hk' := h.activeExists k hk
    simp only [State.hasLink, Bool.and_eq_true] at hk' ⊢
    exact ⟨hk'.1, (congrArg LinkRegs.exists_ ((hlink k).trans (if_neg hne))).trans hk'.2⟩
  · change ((s.setLink l _).link k).exists_ = true → ((s.setLink l _).link k).Created s.cfg k
    rw [hlink]
    split
    · subst k
      exact fun _ => (h.untouched l hn).create (of_decide_eq_true hr) hp
    · exact h.created k
  · change ((s.setLink l _).link k).exists_ = false → ((s.setLink l _).link k).Untouched
    rw [hlink]
    split
    · exact fun he => nomatch he
    · exact h.untouched k
  · obtain ⟨hhead, htail, hpend, hports⟩ := h.beforeActive ha
    exact ⟨hhead, htail, hpend, hps.pcmsk_zero hports⟩

/-- A register set that has just been begun: its constants are one row's, or zero (R155, R131). -/
theorem LinkRegs.Created.begin {c : Config} {l : LinkId} {r : LinkRegs} (h : r.Created c l)
    (baud : Word) : ({ r with
      init := true, rxc := (lookup c baud).rxCenter, rxi := (lookup c baud).rxIntra,
      rxs := (lookup c baud).rxStop, txd := (lookup c baud).txDelay } : LinkRegs).Created c l := by
  refine ⟨h.inRange, h.pins, ?_, fun hf => nomatch hf⟩
  rcases lookup_cases c baud with ⟨row, hrow, -, heq⟩ | ⟨-, heq⟩ <;> rw [heq]
  · exact .inr ⟨row, hrow, rfl, rfl, rfl, rfl⟩
  · exact .inl ⟨rfl, rfl, rfl, rfl⟩

/-- BEGIN's constants and arming, with its link active, keep the invariant. -/
theorem State.Inv.setTiming {s : State} (h : s.Inv) (hr : s.rxSt = .idle) (hh : s.hostSt = .free)
    {l : LinkId} (hl : s.hasLink l = true) (baud : Word) {ps : List PortRegs}
    (hps : ArmOnly s.ports ps) :
    ({ s.setTiming l (lookup s.cfg baud) with ports := ps, active := some l } : State).Inv := by
  have hlink := setTiming_link s l (lookup s.cfg baud)
  have hex := hasLink_exists hl
  refine { h with
    activeExists := ?_, created := fun k => ?_, untouched := fun k => ?_
    portCount := hps.length.trans h.portCount
    rxServes := fun hrun => absurd hr hrun
    writeActive := fun hw => nomatch hh.symm.trans hw
    beforeActive := fun ha => nomatch ha }
  · rintro k ⟨⟩
    exact (setTiming_hasLink s l _ l).trans hl
  · change ((s.setTiming l _).link k).exists_ = true → ((s.setTiming l _).link k).Created s.cfg k
    rw [hlink]
    split
    · subst k
      exact fun _ => (h.created l hex).begin baud
    · exact h.created k
  · change ((s.setTiming l _).link k).exists_ = false → ((s.setTiming l _).link k).Untouched
    rw [hlink]
    split
    · exact fun he => nomatch hex.symm.trans he
    · exact h.untouched k

/-- A first BEGIN keeps the invariant: the arming comes with an activation, so nothing is armed
while no link is active (R155, R157). -/
theorem State.Inv.begin {s : State} (h : s.Inv) (hr : s.rxSt = .idle) (hh : s.hostSt = .free)
    {l : LinkId} (hl : s.hasLink l = true) (baud : Word) {ps : List PortRegs}
    (hps : ArmOnly s.ports ps) :
    (({ s.setTiming l (lookup s.cfg baud) with ports := ps } : State).activate l).1.Inv := by
  have hset := h.setTiming hr hh hl baud hps
  have hhas : ({ s.setTiming l (lookup s.cfg baud) with ports := ps } : State).hasLink l = true :=
    (setTiming_hasLink s l _ l).trans hl
  have hw : s.hostSt ≠ .write := by rw [hh]; decide
  rcases activate_cases ({ s.setTiming l (lookup s.cfg baud) with ports := ps } : State) l with
    ⟨ha, he⟩ | ⟨-, he⟩ <;> rw [he]
  · rw [← ha] at hset
    exact hset
  · exact hset.install hhas hr hw

/-! ### Commands and agent steps -/

/-- A command keeps the invariant: it is accepted with both engines idle and the host free
(10_state.md R62, R63). -/
theorem CmdRun.inv {i : Instr} {s u : State} (hc : CmdRun i s u) (h : s.Inv) (hr : s.rxSt = .idle)
    (ht : s.txSt = .idle) (hh : s.hostSt = .free) (hwf : i.wellFormed = true) : u.Inv := by
  have hw : s.hostSt ≠ .write := by rw [hh]; decide
  cases hc with
  | answers st r => exact h.respond ht st r
  | switches l r _ hl => exact (h.install hl hr hw).respond ht _ _
  | takes l _ _ ha => exact (h.setFifo ha (h.nextSlot_lt _) h.tailLt).respond ht _ _
  | flushes l _ _ ha =>
    have hpos : 0 < s.cfg.rxBufSize := (Nat.zero_le _).trans_lt h.headLt
    exact (h.setFifo ha hpos hpos).respond ht _ _
  | delays cnt _ hk => exact h.startDelay ht hk
  | creates l rx tx ps _ hrange hn hp hps => exact (h.create hh hrange hn hp hps).respond ht _ _
  | begins l baud ps _ hl _ hps =>
    exact (h.begin hr hh hl baud hps).respond ((activate_txSt _ l).trans ht) _ _
  | sends l v q _ hl hx hi hu =>
    have hlen : q.length + 1 ≤ 65535 := by
      rcases hi with ⟨-, rfl⟩ | rfl
      · decide
      · exact of_decide_eq_true hwf
    exact h.frameStarted hr ht hl hx (n := 0) (by simpa using hlen) hu

/-- The next frame of a WRITEN keeps the invariant: a byte was due, and its frame takes the place of
the byte in the count (44_transmit.md R236). -/
theorem State.Inv.nextFrame {s u : State} (h : s.Inv) (hr : s.rxSt = .idle) (ht : s.txSt = .idle)
    (hh : s.hostSt = .write) {v : Byte} {q : List Byte} (hq : s.wnQ = v :: q)
    (hu : TxRun (({ s with wnQ := q } : State).loadFrame s.wnL v) u) : u.Inv := by
  obtain ⟨hact, hx⟩ := h.writeActive hh
  have hcount := h.writeCount hh
  rw [hq, if_pos ht, List.length_cons] at hcount
  have hs : ({ s with wnQ := q } : State) =
      { s with wnL := s.wnL, wnQ := q, wnSum := s.wnSum, hostSt := .write } := by rw [← hh]
  rw [hs] at hu
  exact h.frameStarted hr ht (h.activeExists _ hact) hx (by omega) hu

/-- Every agent step keeps the invariant (10_state.md R62). -/
theorem AgentStep.inv {p u : State} (ha : AgentStep p u) (h : p.Inv) : u.Inv := by
  cases ha with
  | rxReturn hr => exact (h.rxLive hr 0).return_inv
  | rx hr _ _ hu => exact hu.inv (h.rxLive hr 0)
  | tx _ ht _ _ hu => exact hu.inv (h.txLive ht 0)
  | unserved => exact h.clearPend
  | enters _ ht _ _ l hl k hk => exact (h.enterInterrupt ht hl).2.recount k hk
  | spurious _ ht _ _ l hl => exact (h.enterInterrupt ht hl).return_inv
  | starts _ ht _ _ l hl _ hu => exact hu.inv (h.enterInterrupt ht hl)
  | counts _ _ _ _ k _ h0 => exact h.setHdly k fun _ => h0
  | delayEnds _ ht => exact (h.respond ht .ok 0).setHdly 0 fun hd => nomatch hd
  | nextFrame hr ht _ hh v q hq _ hu => exact h.nextFrame hr ht hh hq hu
  | idles => exact h
  | accepts hr ht _ hh c rest _ _ i hd _ _ hu =>
    exact hu.inv (h.inputs p.t p.resp rest p.env) hr ht hh (decode_wellFormed hd)
  | rejects _ ht _ _ c rest => exact (h.inputs p.t p.resp rest p.env).respond ht _ _

end Sys2Proof.Machine

namespace Sys2Proof.Claims

open Sys2Proof Sys2Proof.Machine

/-- Settles O55: phase 1, the agent step and the end of the tick each keep the invariant. -/
theorem stepKeepsTheInvariant : Obligations.StepKeepsTheInvariant := by
  intro s t h hstep
  obtain ⟨-, u, hu, rfl⟩ := step_cases hstep
  exact (hu.inv h.phase1).inputs (u.t + 1) u.resp u.cmds u.env

end Sys2Proof.Claims
end

section
/-! PROOFS. The tick (10_state.md R60 to R63): which agent phase 2 runs, when a command is taken,
and what phase 1 does to the ports. -/

namespace Sys2Proof.Machine

open Sys2Proof.Claims

/-! ### The tick of a well-formed configuration -/

/-- A step is phase 2 on what phase 1 left, and the end of the tick (10_state.md R60). -/
theorem step_eq_ticked {s : State} (hc : s.cfg.WF) : step s = ticked s.phase1.phase2 := by
  rw [step_eq_tick hc, State.tick]
  cases s.phase1.phase2 <;> rfl

/-- Phase 2 of a ready core is the host step of a free host (R62). -/
theorem State.Ready.phase2 {p : State} (h : p.Ready) : p.phase2 = p.hostStep := by
  obtain ⟨hr, ht, hn, -⟩ := h
  exact phase2_host hr ht hn

/-- A free host that is offered a command accepts it (R63). -/
theorem hostStep_offered {p : State} (hh : p.hostSt = .free) {c : HostCmd} {rest : List HostCmd}
    (hc : p.cmds = c :: rest) (ho : c.notBefore ≤ p.t) :
    p.hostStep = State.accept { p with cmds := rest } c.record := by
  simp only [State.hostStep, hh, hc, ho, if_true]

/-- A free host that is offered no command does nothing (R63). -/
theorem hostStep_idle {p : State} (hh : p.hostSt = .free) (ho : p.hostOffers = false) :
    p.hostStep = .next p := by
  unfold State.hostOffers at ho
  cases hc : p.cmds with
  | nil => simp only [State.hostStep, hh, hc]
  | cons c rest =>
    rw [hc] at ho
    simp only [State.hostStep, hh, hc, of_decide_eq_false ho, if_false]

theorem accept_decoded {s : State} {r : CmdRecord} {i : Instr} (h : decode r = .ok i) :
    s.accept r = exec i s := by
  simp only [State.accept, h]

theorem accept_rejected {s : State} {r : CmdRecord} {e : DecodeError} (h : decode r = .error e) :
    s.accept r = .next (s.raise .illegal) := by
  simp only [State.accept, h]

/-- A ready core that is offered a command accepts it on the state phase 1 left. -/
theorem step_of_offered {s : State} (hc : s.cfg.WF) (hready : s.phase1.Ready) {c : HostCmd}
    {rest : List HostCmd} (hcmds : s.cmds = c :: rest) (ho : c.notBefore ≤ s.t) :
    step s = ticked (State.accept { s.phase1 with cmds := rest } c.record) := by
  obtain ⟨-, -, -, hfree⟩ := id hready
  rw [step_eq_ticked hc, hready.phase2, hostStep_offered hfree hcmds ho]

/-! ### The host's queue -/

/-- No command writes the host's queue. -/
theorem CmdRun.cmds {i : Instr} {s u : State} (h : CmdRun i s u) : u.cmds = s.cmds := by
  cases h with
  | begins => simp
  | sends _ _ _ _ _ _ _ hu =>
    obtain ⟨-, -, hcmds, -⟩ := hu.same
    exact hcmds.trans (loadFrame_cmds _ _ _)
  | answers | switches | takes | flushes | delays | creates => rfl

/-- The host's queue loses its oldest command where it is accepted, and nothing otherwise. -/
theorem AgentStep.cmds {p u : State} (h : AgentStep p u) :
    u.cmds = p.cmds ∨ ∃ c, p.cmds = c :: u.cmds ∧ c.notBefore ≤ p.t ∧ p.Ready := by
  cases h with
  | rx _ _ _ hu | starts _ _ _ _ _ _ _ hu =>
    obtain ⟨-, -, hcmds, -⟩ := hu.same
    exact .inl hcmds
  | tx _ _ _ _ hu =>
    obtain ⟨-, -, hcmds, -⟩ := hu.same
    exact .inl hcmds
  | nextFrame _ _ _ _ _ _ _ _ hu =>
    obtain ⟨-, -, hcmds, -⟩ := hu.same
    exact .inl (hcmds.trans (loadFrame_cmds _ _ _))
  | accepts hr ht hn hh c rest hc ho _ _ _ _ hu =>
    exact .inr ⟨c, hu.cmds.symm ▸ hc, ho, hr, ht, hn, hh⟩
  | rejects hr ht hn hh c rest hc ho => exact .inr ⟨c, hc, ho, hr, ht, hn, hh⟩
  | rxReturn | unserved | spurious | enters | counts | delayEnds | idles => exact .inl rfl

/-! ### A placed command (notes/assumptions/12.md) -/

/-- A port whose environment holds its settled level reads that level again. -/
theorem PortRegs.settled_sampled (r : PortRegs) :
    r.settled.sampled r.settled.inp = r.settled.inp := by
  apply BitVec.eq_of_getLsbD_eq
  intro i hi
  have hbit (b : Fin 8) : bitAt (r.settled.sampled r.settled.inp) b = bitAt r.settled.inp b := by
    have hinp : bitAt r.settled.inp b = if bitAt r.dir b then bitAt r.out b else bitAt r.inp b :=
      bitAt_sampled r r.inp b
    rw [bitAt_sampled, hinp]
    change (if bitAt r.dir b then bitAt r.out b else _) = _
    split <;> rfl
  simpa only [bitAt_eq] using hbit ⟨i, hi⟩

/-- A settled port that is sampled with its own level has not changed. -/
theorem PortRegs.settled_unchanged (r : PortRegs) :
    (r.settled.sample r.settled.inp).changed = false := by
  have hinp : (r.settled.sample r.settled.inp).inp = (r.settled.sample r.settled.inp).prev :=
    r.settled_sampled
  rw [PortRegs.changed, hinp, BitVec.xor_self, BitVec.zero_and]
  rfl

/-- No interrupt becomes pending in the tick for which a command was placed. -/
theorem placeCommand_phase1_pend (s : State) (r : CmdRecord) :
    (s.placeCommand r).phase1.pend = false := by
  have hstill : ((s.placeCommand r).phase1.ports).any PortRegs.changed = false := by
    rw [List.any_eq_false]
    intro p hp
    obtain ⟨k, hk⟩ := List.mem_iff_getElem?.1 hp
    rw [phase1_ports, samplePorts_getElem?] at hk
    obtain ⟨q, hq, rfl⟩ := Option.map_eq_some_iff.1 hk
    obtain ⟨a, ha, rfl⟩ := Option.map_eq_some_iff.1 (List.getElem?_map.symm.trans hq)
    have hlev : envLevel s.t (s.ports.map fun p => p.settled.inp) k = a.settled.inp := by
      simp only [envLevel, List.getElem?_map, ha, Option.map_some]
    simpa [State.placeCommand, hlev] using a.settled_unchanged
  rw [phase1_pend, ← phase1_ports, hstill, Bool.and_false]
  rfl

/-- A placed command finds the core ready. -/
theorem placeCommand_ready (s : State) (r : CmdRecord) : (s.placeCommand r).phase1.Ready :=
  ⟨rfl, rfl, .inl (placeCommand_phase1_pend s r), rfl⟩

theorem decodeTableWord_some {nbits w : Nat} {i : Instr} (h : decodeTableWord nbits w = some i) :
    decode (recordOfBits nbits w) = .ok i := by
  unfold decodeTableWord at h
  split at h
  · cases h
    assumption
  · cases h

end Sys2Proof.Machine

namespace Sys2Proof.Claims

open Sys2Proof Sys2Proof.Machine

/-- Settles O11: only an accepted command leaves the queue, and a host that is offered none leaves
the state phase 1 left. -/
theorem offeredCommandWaitsUntilAccepted : Obligations.OfferedCommandWaitsUntilAccepted := by
  constructor
  · intro s t h
    obtain ⟨-, u, hu, rfl⟩ := step_cases h
    exact hu.cmds
  · intro s hc hready ho
    obtain ⟨-, -, -, hfree⟩ := id hready
    exact step_next hc (hready.phase2.trans (hostStep_idle hfree ho))

/-- Settles O13: phase 1 samples every port by R153 and writes nothing else but `PEND`. -/
theorem drivenBitsReadBack : Obligations.DrivenBitsReadBack := by
  intro s
  refine ⟨rfl, samplePorts_length _ _ _, fun k p hp => ?_⟩
  exact ⟨_, phase1_port hp, rfl, bitAt_sampled p _⟩

/-- Settles O8: the step of a ready core that is offered a command is its acceptance. -/
theorem stepRunsDecodedInstruction : Obligations.StepRunsDecodedInstruction := by
  intro s c rest hc hready hcmds ho
  rw [step_of_offered hc hready hcmds ho]
  exact ⟨fun i hi => by rw [accept_decoded hi], fun e he => by rw [accept_rejected he]; rfl⟩

/-- Settles O9: a placed command is offered to a ready core. -/
theorem placedWordRunsNext : Obligations.PlacedWordRunsNext := by
  intro s nbits w i hc hw
  have hready := placeCommand_ready s (recordOfBits nbits w)
  refine ⟨hready, ?_⟩
  obtain ⟨hruns, -⟩ := stepRunsDecodedInstruction (s.withFetchWord nbits w)
    ⟨s.t, recordOfBits nbits w⟩ s.cmds hc hready rfl (Nat.le_refl s.t)
  exact hruns i (decodeTableWord_some hw)

/-- Settles O10: the four cases of phase 2, in its order. -/
theorem phaseTwoPrecedence : Obligations.PhaseTwoPrecedence := by
  intro s hc
  rw [step_eq_ticked hc]
  exact ⟨fun hr => congrArg ticked (phase2_rx hr),
    fun hr ht => congrArg ticked (phase2_tx hr ht),
    fun hr ht hp hi => congrArg ticked (phase2_dispatch hr ht hp hi),
    fun hr ht hn => congrArg ticked (phase2_host hr ht hn)⟩

end Sys2Proof.Claims
end

section
/-! PROOFS. What commands and steps leave unchanged: the atomic commands' frame (10_state.md R53,
R64), and what no step takes from a link (R32, R33, 41_pins_links.md R154). -/

namespace Sys2Proof.Machine

/-! ### Links never lose what they were given -/

/-- `r'` has what `r` had of the elements that are never taken back: a link that exists exists with
the same pins, and one that was begun is begun. -/
structure LinkRegs.Keeps (r r' : LinkRegs) : Prop where
  exists_ : r.exists_ = true → r'.exists_ = true ∧ r'.rxpin = r.rxpin ∧ r'.txpin = r.txpin
  init : r.init = true → r'.init = true

theorem LinkRegs.Keeps.refl (r : LinkRegs) : r.Keeps r := ⟨fun h => ⟨h, rfl, rfl⟩, id⟩

theorem LinkRegs.Keeps.trans {a b c : LinkRegs} (h : a.Keeps b) (h' : b.Keeps c) : a.Keeps c where
  exists_ he :=
    have ⟨hb, hrx, htx⟩ := h.exists_ he
    have ⟨hc, hrx', htx'⟩ := h'.exists_ hb
    ⟨hc, hrx'.trans hrx, htx'.trans htx⟩
  init hi := h'.init (h.init hi)

/-- A change of the overflow flag keeps a register set. -/
theorem LinkRegs.keeps_ovf (r : LinkRegs) (v : Bool) : r.Keeps { r with ovf := v } :=
  ⟨fun h => ⟨h, rfl, rfl⟩, id⟩

/-- CREATE sets the pins of a link that did not exist, and leaves INIT. -/
theorem LinkRegs.keeps_create {r : LinkRegs} (h : r.exists_ = false) (rx tx : PinId) :
    r.Keeps { r with rxpin := rx, txpin := tx, exists_ := true } :=
  ⟨fun he => absurd (h.symm.trans he) Bool.false_ne_true, id⟩

/-- BEGIN keeps a register set's existence and pins. -/
theorem LinkRegs.keeps_begin (r : LinkRegs) (tm : Timing) : r.Keeps { r with
    init := true, rxc := tm.rxCenter, rxi := tm.rxIntra, rxs := tm.rxStop, txd := tm.txDelay } :=
  ⟨fun h => ⟨h, rfl, rfl⟩, fun _ => rfl⟩

/-- A write of one link's register set that keeps it keeps every link. -/
theorem keeps_setLink {s : State} {l : LinkId} {r : LinkRegs} (h : (s.link l).Keeps r)
    (k : LinkId) : (s.link k).Keeps ((s.setLink l r).link k) := by
  rw [setLink_link]
  split
  · subst k
    exact h
  · exact .refl _

theorem keeps_activate (s : State) (l k : LinkId) :
    (s.link k).Keeps ((s.activate l).1.link k) := by
  rcases activate_cases s l with ⟨-, he⟩ | ⟨-, he⟩ <;> rw [he]
  · exact .refl _
  · exact keeps_setLink ((s.link l).keeps_ovf false) k

theorem RxRun.keeps {s u : State} (h : RxRun s u) (k : LinkId) : (s.link k).Keeps (u.link k) := by
  rcases h.link k with he | ⟨he, -⟩ <;> rw [he]
  · exact .refl _
  · exact (s.link k).keeps_ovf true

/-- A frame start is an activation and a run of the transmit engine, which writes no link. -/
theorem TxRun.keeps_of_loadFrame {s u : State} {l : LinkId} {v : Byte}
    (h : TxRun (s.loadFrame l v) u) (k : LinkId) : (s.link k).Keeps (u.link k) := by
  rw [h.link k]
  exact keeps_activate s l k

theorem CmdRun.keeps {i : Instr} {s u : State} (h : CmdRun i s u) (k : LinkId) :
    (s.link k).Keeps (u.link k) := by
  cases h with
  | answers | takes | flushes | delays => exact .refl _
  | switches l => exact keeps_setLink ((s.link l).keeps_ovf false) k
  | creates l rx tx _ _ _ hn => exact keeps_setLink (LinkRegs.keeps_create hn rx tx) k
  | begins l baud ps =>
    exact (keeps_setLink ((s.link l).keeps_begin (lookup s.cfg baud)) k).trans
      (keeps_activate { s.setTiming l (lookup s.cfg baud) with ports := ps } l k)
  | sends _ _ _ _ _ _ _ hu => exact hu.keeps_of_loadFrame k

theorem AgentStep.keeps {p u : State} (h : AgentStep p u) (k : LinkId) :
    (p.link k).Keeps (u.link k) := by
  cases h with
  | rx _ _ _ hu | starts _ _ _ _ _ _ _ hu => exact hu.keeps k
  | tx _ _ _ _ hu =>
    rw [hu.link k]
    exact .refl _
  | nextFrame _ _ _ _ _ _ _ _ hu => exact hu.keeps_of_loadFrame k
  | accepts _ _ _ _ _ _ _ _ _ _ _ _ hu => exact hu.keeps k
  | rxReturn | unserved | spurious | enters | counts | delayEnds | idles | rejects => exact .refl _

end Sys2Proof.Machine

namespace Sys2Proof.Claims

open Sys2Proof Sys2Proof.Machine

/-- Settles O12: what a command does at once writes links, ports and the FIFO's indices only; WRITE
and WRITEN start the transmit engine and DELAY the host's counter. -/
theorem atomicCommandsCompleteAtOnce : Obligations.AtomicCommandsCompleteAtOnce := by
  intro i s t h hwrite hwriten hdelay
  cases exec_run h with
  | answers | switches | takes | flushes | creates => exact ⟨rfl, rfl, by simp⟩
  | begins => exact ⟨rfl, rfl, by simp⟩
  | delays cnt hi => exact absurd hi (hdelay cnt)
  | sends l v q _ _ _ hi =>
    rcases hi with ⟨hi, -⟩ | hi
    · exact absurd hi (hwrite l v)
    · exact absurd hi (hwriten l (v :: q))

/-- Settles O52: every agent step keeps what a link has, and neither phase 1 nor the end of the tick
writes a link. -/
theorem existsAndInitAreSticky : Obligations.ExistsAndInitAreSticky := by
  intro s t h l
  obtain ⟨-, u, hu, rfl⟩ := step_cases h
  have hkeeps := hu.keeps l
  exact ⟨hkeeps.exists_, hkeeps.init⟩

end Sys2Proof.Claims
end

section
/-! PROOFS. The receive RAM and the FIFO in it (20_memory.md R80, R94): the FIFO is a queue, and only
the commit writes the RAM. -/

namespace Sys2Proof.Machine

open Sys2Proof.Claims

/-! ### The FIFO's count (43_receive.md R202) -/

theorem fifo_length (s : State) : s.fifo.length = s.fifoCount := by
  simp [State.fifo]

/-- With both indices in range (R54(a)), the count is the one number of slots below `RX_BUF_SIZE`
that leads from `HEAD` to `TAIL`. -/
theorem fifoCount_eq_iff_of_lt {s : State} (hh : s.head < s.cfg.rxBufSize)
    (ht : s.tail < s.cfg.rxBufSize) {k : Nat} (hk : k < s.cfg.rxBufSize) :
    s.fifoCount = k ↔ (s.head + k) % s.cfg.rxBufSize = s.tail := by
  have hcount : s.fifoCount =
      if s.head ≤ s.tail then s.tail - s.head else s.tail + s.cfg.rxBufSize - s.head := by
    unfold State.fifoCount
    split
    · rw [show s.tail + s.cfg.rxBufSize - s.head = s.tail - s.head + s.cfg.rxBufSize by omega,
        Nat.add_mod_right, Nat.mod_eq_of_lt (by omega)]
    · exact Nat.mod_eq_of_lt (by omega)
  rw [hcount, Nat.add_mod_eq_ite, Nat.mod_eq_of_lt hh, Nat.mod_eq_of_lt hk]
  split <;> split <;> omega

theorem State.Inv.fifoCount_lt {s : State} (h : s.Inv) : s.fifoCount < s.cfg.rxBufSize :=
  Nat.mod_lt _ (Nat.zero_lt_of_lt h.headLt)

/-- `k` slots on from `HEAD` is `TAIL` exactly where `k` bytes are held. -/
theorem State.Inv.fifoCount_eq_iff {s : State} (h : s.Inv) {k : Nat} (hk : k < s.cfg.rxBufSize) :
    s.fifoCount = k ↔ (s.head + k) % s.cfg.rxBufSize = s.tail :=
  fifoCount_eq_iff_of_lt h.headLt h.tailLt hk

theorem State.Inv.tail_slot {s : State} (h : s.Inv) :
    (s.head + s.fifoCount) % s.cfg.rxBufSize = s.tail :=
  (h.fifoCount_eq_iff h.fifoCount_lt).1 rfl

theorem State.Inv.fifoCount_zero_iff {s : State} (h : s.Inv) : s.fifoCount = 0 ↔ s.head = s.tail := by
  rw [h.fifoCount_eq_iff (Nat.zero_lt_of_lt h.headLt), Nat.add_zero, Nat.mod_eq_of_lt h.headLt]

/-- A full FIFO holds `RX_BUF_SIZE - 1` bytes: one slot stays free (R197). -/
theorem State.Inv.full_iff {s : State} (h : s.Inv) :
    s.nextSlot s.tail = s.head ↔ s.fifoCount = s.cfg.rxBufSize - 1 := by
  have hnext : s.nextSlot s.tail = (s.head + (s.fifoCount + 1)) % s.cfg.rxBufSize := by
    rw [State.nextSlot, ← h.tail_slot, Nat.mod_add_mod, Nat.add_assoc]
  have hlt := h.fifoCount_lt
  rw [hnext]
  constructor
  · intro he
    by_contra hne
    rw [Nat.add_mod_eq_ite, Nat.mod_eq_of_lt h.headLt, Nat.mod_eq_of_lt (by omega)] at he
    split at he <;> omega
  · intro he
    rw [he, Nat.sub_add_cancel (by omega), Nat.add_mod_right, Nat.mod_eq_of_lt h.headLt]

/-! ### The FIFO as a queue (20_memory.md R94) -/

/-- The state a commit with room leaves: the byte in the slot at `TAIL`, and `TAIL` moved on
(43_receive.md R195). -/
def State.pushed (s : State) (v : Byte) : State :=
  { s with rxbuf := s.rxbuf.write s.tail v, tail := s.nextSlot s.tail }

/-- The state with the byte at `HEAD` taken (R201). -/
def State.popped (s : State) : State := { s with head := s.nextSlot s.head }

@[simp] theorem respond_fifo (s : State) (st : Status) (r : Word) : (s.respond st r).fifo = s.fifo :=
  rfl

@[simp] theorem setOvf_fifo (s : State) (l : LinkId) (v : Bool) : (s.setOvf l v).fifo = s.fifo := rfl

theorem State.Inv.pushed_fifoCount {s : State} (h : s.Inv) (v : Byte)
    (hroom : s.nextSlot s.tail ≠ s.head) : (s.pushed v).fifoCount = s.fifoCount + 1 := by
  have hlt := h.fifoCount_lt
  have hne := mt h.full_iff.2 hroom
  refine (fifoCount_eq_iff_of_lt (s := s.pushed v) h.headLt (h.nextSlot_lt _)
    (show s.fifoCount + 1 < s.cfg.rxBufSize by omega)).2 ?_
  change (s.head + (s.fifoCount + 1)) % s.cfg.rxBufSize = (s.tail + 1) % s.cfg.rxBufSize
  rw [← h.tail_slot, Nat.mod_add_mod, Nat.add_assoc]

/-- A commit with room appends its byte. -/
theorem State.Inv.pushed_fifo {s : State} (h : s.Inv) (v : Byte)
    (hroom : s.nextSlot s.tail ≠ s.head) : (s.pushed v).fifo = s.fifo ++ [v] := by
  have hread (i : Nat) : (s.pushed v).rxbuf.read ((s.head + i) % s.cfg.rxBufSize) =
      if (s.head + i) % s.cfg.rxBufSize = s.tail then v
      else s.rxbuf.read ((s.head + i) % s.cfg.rxBufSize) := read_write h.ramWF _ _ _
  have hold : ∀ i ∈ List.range s.fifoCount,
      (s.pushed v).rxbuf.read ((s.head + i) % s.cfg.rxBufSize) =
        s.rxbuf.read ((s.head + i) % s.cfg.rxBufSize) := by
    intro i hi
    have hi' := List.mem_range.1 hi
    have hlt := h.fifoCount_lt
    rw [hread, if_neg (mt (h.fifoCount_eq_iff (by omega)).2 (by omega))]
  have hnew : (s.pushed v).rxbuf.read ((s.head + s.fifoCount) % s.cfg.rxBufSize) = v := by
    rw [hread, if_pos h.tail_slot]
  calc (s.pushed v).fifo
      = (List.range (s.fifoCount + 1)).map fun i =>
          (s.pushed v).rxbuf.read ((s.head + i) % s.cfg.rxBufSize) := by
        rw [← h.pushed_fifoCount v hroom]; rfl
    _ = s.fifo ++ [v] := by
        rw [List.range_succ, List.map_append, List.map_congr_left hold, List.map_singleton, hnew]
        rfl

theorem State.Inv.popped_fifoCount {s : State} (h : s.Inv) (hne : s.head ≠ s.tail) :
    s.fifoCount = s.popped.fifoCount + 1 := by
  have hlt := h.fifoCount_lt
  have hpos := mt h.fifoCount_zero_iff.1 hne
  have hcount : s.popped.fifoCount = s.fifoCount - 1 := by
    refine (fifoCount_eq_iff_of_lt (s := s.popped) (h.nextSlot_lt _) h.tailLt
      (show s.fifoCount - 1 < s.cfg.rxBufSize by omega)).2 ?_
    change ((s.head + 1) % s.cfg.rxBufSize + (s.fifoCount - 1)) % s.cfg.rxBufSize = s.tail
    rw [Nat.mod_add_mod, show s.head + 1 + (s.fifoCount - 1) = s.head + s.fifoCount by omega,
      h.tail_slot]
  omega

/-- The byte at `HEAD` is the oldest of a FIFO that is not empty; the rest stay. -/
theorem State.Inv.fifo_eq_cons {s : State} (h : s.Inv) (hne : s.head ≠ s.tail) :
    s.fifo = s.rxbuf.read s.head :: s.popped.fifo := by
  have hrest (i : Nat) : (s.head + (i + 1)) % s.cfg.rxBufSize =
      (s.nextSlot s.head + i) % s.cfg.rxBufSize := by
    rw [State.nextSlot, Nat.mod_add_mod, Nat.add_assoc, Nat.add_comm 1 i]
  rw [State.fifo, h.popped_fifoCount hne, List.range_succ_eq_map, List.map_cons, List.map_map,
    Nat.add_zero, Nat.mod_eq_of_lt h.headLt]
  exact congrArg _ (List.map_congr_left fun i _ => congrArg s.rxbuf.read (hrest i))

theorem State.Inv.fifo_eq_nil_iff {s : State} (h : s.Inv) : s.fifo = [] ↔ s.head = s.tail := by
  rw [← List.length_eq_zero_iff, fifo_length, h.fifoCount_zero_iff]

/-! ### The commit, READ and AVAIL by their cases -/

/-- A commit that finds room (43_receive.md R195). -/
theorem rxCommit_room {s : State} (hroom : s.nextSlot s.tail ≠ s.head)
    (hslot : s.tail < s.cfg.rxBufSize) : s.rxCommit = .ok (s.pushed s.rxD) := by
  simp only [State.rxCommit, if_pos hroom, State.memWrite, if_pos hslot, ok_bind]
  rfl

/-- A commit that finds the FIFO full (R196). -/
theorem rxCommit_full {s : State} (hfull : s.nextSlot s.tail = s.head) :
    s.rxCommit = .ok (s.setOvf s.rxL true) := by
  rw [State.rxCommit, if_neg (not_not.2 hfull)]

/-- A link command runs on a link that exists (60_exceptions.md R261). -/
theorem withLink_of_exists {s : State} {l : LinkId} (hl : LinkExists s l)
    (k : State → Host.Outcome State Fault Refusal) : s.withLink l k = k s := by
  obtain ⟨hrange, hexists⟩ := hl
  rw [State.withLink, if_pos (by simp [State.hasLink, State.linkInRange, hrange, hexists])]

/-- READ of the active link with the FIFO empty (43_receive.md R201). -/
theorem exec_read_empty {s : State} {l : LinkId} (hl : LinkExists s l) (ha : s.active = some l)
    (he : s.head = s.tail) : exec (.read l) s = .next (s.respond .ok noByte) := by
  simp [exec, execRead, withLink_of_exists hl, activate_same ha, he]

theorem takeByte_in_range {s : State} (hslot : s.head < s.cfg.rxBufSize) :
    s.takeByte = .ok (s.popped.respond .ok ((s.rxbuf.read s.head).zeroExtend 32)) := by
  rw [State.takeByte, State.memRead, if_pos hslot]
  rfl

/-- READ of the active link with a byte held (R201). -/
theorem exec_read_takes {s : State} {l : LinkId} (hl : LinkExists s l) (ha : s.active = some l)
    (hne : s.head ≠ s.tail) (hslot : s.head < s.cfg.rxBufSize) : exec (.read l) s =
      .next (s.popped.respond .ok ((s.rxbuf.read s.head).zeroExtend 32)) := by
  simp [exec, execRead, withLink_of_exists hl, activate_same ha, hne, takeByte_in_range hslot]

/-- AVAIL of the active link (R202). -/
theorem exec_avail_active {s : State} {l : LinkId} (hl : LinkExists s l) (ha : s.active = some l) :
    exec (.avail l) s = .next (s.respond .ok (countWord s.fifoCount)) := by
  simp [exec, execAvail, withLink_of_exists hl, activate_same ha]

/-! ### What a step does to the receive RAM (20_memory.md R80) -/

/-- From `s` to `t` the receive engine has returned with a commit that found room. -/
def CommitsByte (s t : State) : Prop :=
  t.rxSt = .idle ∧ t.ie = true ∧ s.nextSlot s.tail ≠ s.head ∧ t.tail = s.nextSlot s.tail ∧
  s.tail < s.cfg.rxBufSize ∧ t.rxbuf = s.rxbuf.write s.tail t.rxD

theorem RxRun.rxbuf {s u : State} (h : RxRun s u) : u.rxbuf = s.rxbuf ∨ CommitsByte s u := by
  cases h with
  | waits | dropped => exact .inl rfl
  | stored i d hroom hslot => exact .inr ⟨rfl, rfl, hroom, rfl, hslot, rfl⟩

/-- No command writes the receive RAM. -/
theorem CmdRun.rxbuf {i : Instr} {s u : State} (h : CmdRun i s u) : u.rxbuf = s.rxbuf := by
  cases h with
  | answers | switches | takes | flushes | delays | creates => rfl
  | begins => simp
  | sends _ _ _ _ _ _ _ hu =>
    obtain ⟨-, -, -, -, hram, -⟩ := hu.same
    exact hram.trans (loadFrame_rxbuf _ _ _)

/-- An agent step writes the receive RAM only where the receive engine runs, or is dispatched to an
active link, and commits. -/
theorem AgentStep.rxbuf {p u : State} (h : AgentStep p u) : u.rxbuf = p.rxbuf ∨
    (p.rxSt ≠ .idle ∨ p.txSt = .idle ∧ p.pend = true ∧ p.ie = true ∧ p.active ≠ none) ∧
      CommitsByte p u := by
  cases h with
  | rxReturn | unserved | enters | spurious | counts | delayEnds | idles | rejects => exact .inl rfl
  | rx hr _ _ hu => exact hu.rxbuf.imp_right fun hc => ⟨.inl hr, hc⟩
  | starts _ ht hp hi l ha _ hu =>
    exact hu.rxbuf.imp_right fun hc =>
      ⟨.inr ⟨ht, hp, hi, fun hn => Option.some_ne_none l (ha.symm.trans hn)⟩, hc⟩
  | tx _ _ _ _ hu =>
    obtain ⟨-, -, -, -, hram, -⟩ := hu.same
    exact .inl hram
  | nextFrame _ _ _ _ _ _ _ _ hu =>
    obtain ⟨-, -, -, -, hram, -⟩ := hu.same
    exact .inl (hram.trans (loadFrame_rxbuf _ _ _))
  | accepts _ _ _ _ _ _ _ _ _ _ _ _ hu => exact .inl hu.rxbuf

end Sys2Proof.Machine

namespace Sys2Proof.Claims

open Sys2Proof Sys2Proof.Machine

/-- Settles O31: a commit with room pushes, one without keeps the queue, READ pops, and the count is
the queue's length. -/
theorem fifoIsAQueue : Obligations.FifoIsAQueue := by
  intro s h
  have hlt := h.fifoCount_lt
  rw [fifo_length]
  refine ⟨by omega, ?_, fun l hl ha => ⟨fun he => ?_, fun v rest hv => ?_, fun hfits => ?_⟩⟩
  · by_cases hfull : s.nextSlot s.tail = s.head
    · have hcount := h.full_iff.1 hfull
      exact ⟨_, rxCommit_full hfull, fun hroom => absurd hcount (Nat.ne_of_lt hroom),
        fun _ => ⟨setOvf_fifo s _ _, rfl, rfl, rfl, by rw [setOvf_link, if_pos rfl]⟩⟩
    · exact ⟨_, rxCommit_room hfull h.tailLt, fun _ => ⟨h.pushed_fifo s.rxD hfull, rfl⟩,
        fun hcount => absurd (h.full_iff.2 hcount) hfull⟩
  · exact exec_read_empty hl ha (h.fifo_eq_nil_iff.1 he)
  · have hne : s.head ≠ s.tail :=
      mt h.fifo_eq_nil_iff.2 (hv ▸ List.cons_ne_nil v rest)
    obtain ⟨rfl, rfl⟩ := List.cons.inj ((h.fifo_eq_cons hne).symm.trans hv)
    exact ⟨_, exec_read_takes hl ha hne h.headLt, rfl, respond_fifo _ _ _⟩
  · rw [exec_avail_active hl ha, countWord, if_pos hfits]
    rfl

/-- Settles O32: phase 1 and the end of the tick leave the RAM, and an agent step writes it only by
a commit. -/
theorem onlyTheCommitWritesTheRam : Obligations.OnlyTheCommitWritesTheRam := by
  intro s t hstep hwf
  obtain ⟨-, u, hu, rfl⟩ := step_cases hstep
  rcases hu.rxbuf with hsame | ⟨hengine, hidle, hie, hroom, htail, hslot, hram⟩
  · exact .inl fun a => congrArg (·.read a) hsame
  · have hread (a : Nat) : u.rxbuf.read a = if a = s.tail then u.rxD else s.rxbuf.read a :=
      (congrArg (·.read a) hram).trans (read_write hwf _ _ _)
    exact .inr ⟨hengine, hidle, hie, hroom, htail, hslot, (hread s.tail).trans (if_pos rfl),
      fun a ha => (hread a).trans (if_neg ha)⟩

end Sys2Proof.Claims
end

section
/-! PROOFS. The command encoding by arithmetic (30_encoding.md R101, R102, R105, R110): the fields of
a word, the words the encoder writes, what a record that decodes looks like; and the statements that
decoding and encoding undo each other. -/

namespace Sys2Proof

/-! ### The fields of a command word (R101) -/

@[simp] theorem opcField_toNat (w : Word) : (opcField w).toNat = w.toNat / 2 ^ 28 % 2 ^ 4 := by
  simp [opcField, BitVec.extractLsb'_toNat, Nat.shiftRight_eq_div_pow]

@[simp] theorem lnkField_toNat (w : Word) : (lnkField w).toNat = w.toNat / 2 ^ 24 % 2 ^ 4 := by
  simp [lnkField, BitVec.extractLsb'_toNat, Nat.shiftRight_eq_div_pow]

@[simp] theorem rxpField_toNat (w : Word) : (rxpField w).toNat = w.toNat / 2 ^ 16 % 2 ^ 8 := by
  simp [rxpField, BitVec.extractLsb'_toNat, Nat.shiftRight_eq_div_pow]

@[simp] theorem txpField_toNat (w : Word) : (txpField w).toNat = w.toNat / 2 ^ 8 % 2 ^ 8 := by
  simp [txpField, BitVec.extractLsb'_toNat, Nat.shiftRight_eq_div_pow]

@[simp] theorem datField_toNat (w : Word) : (datField w).toNat = w.toNat % 2 ^ 8 := by
  simp [datField, BitVec.extractLsb'_toNat]

@[simp] theorem cntField_toNat (w : Word) : (cntField w).toNat = w.toNat % 2 ^ 16 := by
  simp [cntField, BitVec.extractLsb'_toNat]

/-! ### The words the encoder writes, one for each format (R102, R115) -/

theorem toNat_append_mul {n m : Nat} (x : BitVec n) (y : BitVec m) :
    (x ++ y).toNat = x.toNat * 2 ^ m + y.toNat := by
  rw [BitVec.toNat_append, Nat.shiftLeft_eq, Nat.mul_comm, Nat.two_pow_add_eq_or_of_lt y.isLt]

theorem linkWord_toNat (o : Opcode) (l : LinkId) :
    (linkWord o l).toNat = o.code.toNat * 2 ^ 28 + l.toNat * 2 ^ 24 := by
  simp only [linkWord, toNat_append_mul, BitVec.toNat_ofNat]
  omega

theorem encode_create_toNat (l : LinkId) (rx tx : PinId) : (encode (.create l rx tx)).word.toNat =
    Opcode.create.code.toNat * 2 ^ 28 + l.toNat * 2 ^ 24 + rx.toNat * 2 ^ 16 + tx.toNat * 2 ^ 8 := by
  simp only [encode, toNat_append_mul, BitVec.toNat_ofNat]
  omega

theorem encode_write_toNat (l : LinkId) (dat : Byte) : (encode (.write l dat)).word.toNat =
    Opcode.write.code.toNat * 2 ^ 28 + l.toNat * 2 ^ 24 + dat.toNat := by
  simp only [encode, toNat_append_mul, BitVec.toNat_ofNat]
  omega

theorem encode_writen_toNat (l : LinkId) {bytes : List Byte} (h : bytes.length ≤ 65535) :
    (encode (.writen l bytes)).word.toNat =
      Opcode.writen.code.toNat * 2 ^ 28 + l.toNat * 2 ^ 24 + bytes.length := by
  simp only [encode, toNat_append_mul, BitVec.toNat_ofNat]
  omega

theorem encode_delay_toNat (cnt : Count) :
    (encode (.delay cnt)).word.toNat = Opcode.delay.code.toNat * 2 ^ 28 + cnt.toNat := by
  simp only [encode, toNat_append_mul, BitVec.toNat_ofNat]
  omega

/-! ### The decoder's checks (R110) -/

/-- A record passes the decoder's checks as operation `o`: its opcode, no reserved bit set, and the
operand words the operation asks for. -/
structure CmdRecord.Passes (r : CmdRecord) (o : Opcode) : Prop where
  opcode : opcField r.word = o.code
  reserved : r.word &&& o.format.resMask = 0
  operands : r.ops.length = o.nops (cntField r.word)

theorem decode_of_passes {r : CmdRecord} {o : Opcode} (h : r.Passes o) :
    decode r = .ok (o.instr r) := by
  simp [decode, h.opcode, h.reserved, h.operands]

@[simp] theorem opcode_instr_opcode (o : Opcode) (r : CmdRecord) : (o.instr r).opcode = o := by
  cases o <;> rfl

/-- A record decodes to the instruction of the operation whose checks it passes, and to no other. -/
theorem decode_ok_iff {r : CmdRecord} {i : Instr} :
    decode r = .ok i ↔ r.Passes i.opcode ∧ i.opcode.instr r = i := by
  constructor
  · intro h
    unfold decode at h
    split at h
    · cases h
    · rename_i o ho
      split at h
      · cases h
      · rename_i hres
        split at h
        · cases h
        · rename_i hops
          obtain rfl := Except.ok.inj h
          rw [opcode_instr_opcode]
          exact ⟨⟨(opcode_ofBits_iff _ _).1 ho, not_not.1 hres, not_not.1 hops⟩, rfl⟩
  · rintro ⟨hpasses, hi⟩
    rw [decode_of_passes hpasses, hi]

/-! ### Reserved bits (R108) -/

/-- A word's opcode and the 28 bits below it determine the word. -/
theorem word_eq_iff {x y : Word} :
    x = y ↔ opcField x = opcField y ∧ x.extractLsb' 0 28 = y.extractLsb' 0 28 := by
  refine ⟨fun h => h ▸ ⟨rfl, rfl⟩, fun ⟨hopc, hlow⟩ => BitVec.eq_of_toNat_eq ?_⟩
  have hopc := congrArg BitVec.toNat hopc
  have hlow := congrArg BitVec.toNat hlow
  simp only [opcField_toNat, BitVec.extractLsb'_toNat, Nat.shiftRight_zero] at hopc hlow
  omega

/-- A field that lies in a mask is zero where the mask finds no bit. -/
theorem div_mod_zero_of_and_mask {w m : Word} {s k : Nat} (hw : w &&& m = 0)
    (hm : m.extractLsb' s k = BitVec.allOnes k) : w.toNat / 2 ^ s % 2 ^ k = 0 := by
  have hz : w.extractLsb' s k = 0 := by
    have hand := congrArg (BitVec.extractLsb' s k) hw
    simpa [BitVec.extractLsb'_and, hm] using hand
  simpa [Nat.shiftRight_eq_div_pow] using congrArg BitVec.toNat hz

theorem opcField_div {w : Word} {o : Opcode} (h : opcField w = o.code) :
    w.toNat / 2 ^ 28 = o.code.toNat := by
  have hcode := opcField_toNat w
  rw [h] at hcode
  omega

/-! ### The record of an instruction (R102) -/

/-- What the encoder writes passes the decoder's checks. -/
theorem encode_passes {i : Instr} (h : i.wellFormed = true) : (encode i).Passes i.opcode := by
  have hstate : Laws.Encodes.Statement i := by
    cases i with
    | create l rx tx => exact Laws.Encodes.create l rx tx
    | begin l baud => exact Laws.Encodes.begin l baud
    | write l dat => exact Laws.Encodes.write l dat
    | writen l bytes => exact Laws.Encodes.writen l bytes
    | read l => exact Laws.Encodes.read l
    | avail l => exact Laws.Encodes.avail l
    | flush l => exact Laws.Encodes.flush l
    | activate l => exact Laws.Encodes.activate l
    | ovfl l => exact Laws.Encodes.ovfl l
    | delay cnt => exact Laws.Encodes.delay cnt
  obtain ⟨hopc, hres, hops⟩ := hstate h
  exact ⟨hopc, hres, hops⟩

theorem lnkField_linkWord (o : Opcode) (l : LinkId) : lnkField (linkWord o l) = l :=
  (Laws.Encodes.linkWord_fields o l).2.1

/-- The decoder reads back from an encoded record the operands it was made of. -/
theorem opcode_instr_encode {i : Instr} (h : i.wellFormed = true) :
    i.opcode.instr (encode i) = i := by
  cases i with
  | create l rx tx =>
    have hw := encode_create_toNat l rx tx
    have hl : lnkField (encode (.create l rx tx)).word = l :=
      BitVec.eq_of_toNat_eq (by rw [lnkField_toNat, hw]; omega)
    have hrx : rxpField (encode (.create l rx tx)).word = rx :=
      BitVec.eq_of_toNat_eq (by rw [rxpField_toNat, hw]; omega)
    have htx : txpField (encode (.create l rx tx)).word = tx :=
      BitVec.eq_of_toNat_eq (by rw [txpField_toNat, hw]; omega)
    exact congr (congrArg₂ Instr.create hl hrx) htx
  | begin l baud => exact congrArg (Instr.begin · baud) (lnkField_linkWord _ l)
  | write l dat =>
    have hw := encode_write_toNat l dat
    exact congrArg₂ Instr.write
      (BitVec.eq_of_toNat_eq (by rw [lnkField_toNat, hw]; omega))
      (BitVec.eq_of_toNat_eq (by rw [datField_toNat, hw]; omega))
  | writen l bytes =>
    have hlen : bytes.length ≤ 65535 := of_decide_eq_true h
    have hw := encode_writen_toNat l hlen
    have hcnt : (cntField (encode (.writen l bytes)).word).toNat = bytes.length := by
      rw [cntField_toNat, hw]
      omega
    refine congrArg₂ Instr.writen (BitVec.eq_of_toNat_eq (by rw [lnkField_toNat, hw]; omega)) ?_
    rw [hcnt]
    exact payload_packBytes bytes
  | read l => exact congrArg Instr.read (lnkField_linkWord _ l)
  | avail l => exact congrArg Instr.avail (lnkField_linkWord _ l)
  | flush l => exact congrArg Instr.flush (lnkField_linkWord _ l)
  | activate l => exact congrArg Instr.activate (lnkField_linkWord _ l)
  | ovfl l => exact congrArg Instr.ovfl (lnkField_linkWord _ l)
  | delay cnt =>
    refine congrArg Instr.delay (BitVec.eq_of_toNat_eq ?_)
    rw [cntField_toNat, encode_delay_toNat]
    omega

/-! ### The instruction of a record (R110) -/

/-- A payload has as many bytes as the count asks for, where the words hold that many (R104). -/
theorem payload_length {ops : List Word} {n : Nat} (h : n ≤ 4 * ops.length) :
    (payload ops n).length = n := by
  rw [payload, List.length_take, flatMap_wordBytes_length, Nat.min_eq_left h]

/-- The words a WRITEN asks for hold its payload (R105). -/
theorem CmdRecord.Passes.payload_length {r : CmdRecord} (h : r.Passes .writen) :
    (payload r.ops (cntField r.word).toNat).length = (cntField r.word).toNat := by
  have hops : r.ops.length = ((cntField r.word).toNat + 3) / 4 := h.operands
  exact Sys2Proof.payload_length (by omega)

theorem linkWord_lnkField {w : Word} {o : Opcode} (hopc : opcField w = o.code)
    (hres : w &&& 0x00FFFFFF = 0) : linkWord o (lnkField w) = w := by
  have hdiv := opcField_div hopc
  have hz := div_mod_zero_of_and_mask (s := 0) (k := 24) hres (by decide)
  apply BitVec.eq_of_toNat_eq
  rw [linkWord_toNat, lnkField_toNat]
  omega

/-- The encoder writes the word of a record that passes again: every bit is in a field of the
instruction, in the opcode, or reserved and zero (R102). -/
theorem CmdRecord.Passes.encode_word {r : CmdRecord} {o : Opcode} (h : r.Passes o) :
    (encode (o.instr r)).word = r.word := by
  have hdiv := opcField_div h.opcode
  cases o with
  | create =>
    have hz := div_mod_zero_of_and_mask (s := 0) (k := 8) h.reserved (by decide)
    refine BitVec.eq_of_toNat_eq ((encode_create_toNat _ _ _).trans ?_)
    rw [lnkField_toNat, rxpField_toNat, txpField_toNat]
    omega
  | write =>
    have hz := div_mod_zero_of_and_mask (s := 8) (k := 16) h.reserved (by decide)
    refine BitVec.eq_of_toNat_eq ((encode_write_toNat _ _).trans ?_)
    rw [lnkField_toNat, datField_toNat]
    omega
  | writen =>
    have hz := div_mod_zero_of_and_mask (s := 16) (k := 8) h.reserved (by decide)
    have hlen := h.payload_length
    rw [cntField_toNat] at hlen
    refine BitVec.eq_of_toNat_eq ((encode_writen_toNat _ (by rw [cntField_toNat]; omega)).trans ?_)
    rw [lnkField_toNat, cntField_toNat, hlen]
    omega
  | delay =>
    have hz := div_mod_zero_of_and_mask (s := 16) (k := 12) h.reserved (by decide)
    refine BitVec.eq_of_toNat_eq ((encode_delay_toNat _).trans ?_)
    rw [cntField_toNat]
    omega
  | begin | read | avail | flush | activate | ovfl => exact linkWord_lnkField h.opcode h.reserved

theorem CmdRecord.Passes.encode_ops_length {r : CmdRecord} {o : Opcode} (h : r.Passes o) :
    (encode (o.instr r)).ops.length = r.ops.length := by
  have hops := (encode_passes (Machine.opcode_instr_wellFormed o r)).operands
  rw [hops, h.operands, h.encode_word, opcode_instr_opcode]

/-- A record with one operand word has the word its head. -/
theorem ops_eq_of_begin {r : CmdRecord} (h : r.Passes .begin) : r.ops = [r.ops.headD 0] := by
  obtain ⟨baud, hops⟩ := List.length_eq_one_iff.1 h.operands
  rw [hops]
  rfl

/-- Only a WRITEN's operand words can differ from the record's, in the slack (R104). -/
theorem CmdRecord.Passes.encode_ops {r : CmdRecord} {o : Opcode} (h : r.Passes o)
    (ho : o ≠ .writen) : (encode (o.instr r)).ops = r.ops := by
  cases o with
  | writen => exact absurd rfl ho
  | begin => exact (ops_eq_of_begin h).symm
  | create | write | read | avail | flush | activate | ovfl | delay =>
    exact (List.eq_nil_of_length_eq_zero h.operands).symm

end Sys2Proof

namespace Sys2Proof.Claims

open Sys2Proof Sys2Proof.Machine

/-- Settles O1: the encoded record passes the checks of the instruction's operation, and its fields
are the operands. -/
theorem decodeInvertsEncode : Obligations.DecodeInvertsEncode :=
  fun _ h => decode_ok_iff.2 ⟨encode_passes h, opcode_instr_encode h⟩

/-- Settles O2: a record that passes has no bit outside the fields. -/
theorem encodeInvertsDecode : Obligations.EncodeInvertsDecode := by
  intro r i h
  obtain ⟨hpasses, hi⟩ := decode_ok_iff.1 h
  refine ⟨decode_wellFormed h, hi ▸ hpasses.encode_word, ?_, ?_, ?_⟩
  · rw [← hi]
    exact hpasses.encode_ops_length
  · rintro l bs rfl
    obtain rfl : payload r.ops (cntField r.word).toNat = bs := by
      injection hi
    have hsame := congrArg (payload r.ops) hpasses.payload_length
    exact ⟨hsame, (payload_packBytes _).trans hsame.symm⟩
  · intro hn
    rw [← hi]
    refine hpasses.encode_ops fun ho => ?_
    cases i with
    | writen l bs => exact hn l bs rfl
    | create | begin | write | read | avail | flush | activate | ovfl | delay => cases ho

end Sys2Proof.Claims
end

section
/-! PROOFS. The opcode table, malformed records, and the fields and payload of a decoded command
(30_encoding.md R101 to R111). -/

namespace Sys2Proof.Machine

open Sys2Proof.Claims

/-! ### The opcode table (spec/opcode_table.json) -/

/-- The operand words the table's row of an operation asks for. -/
def tableOps : Opcode → Nat → Nat
  | .begin => fun _ => 1
  | .writen => fun cnt => (cnt + 3) / 4
  | _ => fun _ => 0

/-- The table's row of an operation, from the opcode map and the formats (30_encoding.md R106, R110). -/
def tableRow (o : Opcode) : Word × Word × (Nat → Nat) :=
  (o.code ++ 0#28, 0xF0000000 ||| o.format.resMask, tableOps o)

/-- The table has one row for each operation, and no other. -/
theorem mem_tableRows_iff {row : Word × Word × (Nat → Nat)} :
    row ∈ tableRows ↔ ∃ o, row = tableRow o := by
  have hrows : tableRows = [Opcode.create, .begin, .write, .writen, .read, .avail, .flush,
      .activate, .ovfl, .delay].map tableRow := rfl
  rw [hrows, List.mem_map]
  refine ⟨fun ⟨o, _, ho⟩ => ⟨o, ho.symm⟩, fun ⟨o, ho⟩ => ⟨o, ?_, ho.symm⟩⟩
  cases o <;> decide

theorem tableOps_eq_nops (o : Opcode) (w : Word) :
    tableOps o (w.toNat % 65536) = o.nops (cntField w) := by
  cases o with
  | writen => exact congrArg (fun n => (n + 3) / 4) (cntField_toNat w).symm
  | create | begin | write | read | avail | flush | activate | ovfl | delay => rfl

/-- No format reserves an opcode bit (R102). -/
theorem opcField_resMask (f : Format) : opcField f.resMask = 0 := by
  cases f <;> decide

/-- A row's match under its mask is its opcode and zero reserved bits (R107, R108). -/
theorem and_tableMask_iff (w : Word) (o : Opcode) :
    w &&& (0xF0000000 ||| o.format.resMask) = o.code ++ 0#28 ↔
      opcField w = o.code ∧ w &&& o.format.resMask = 0 := by
  have hmask : BitVec.extractLsb' 28 4 o.format.resMask = 0 := opcField_resMask o.format
  have hall : ∀ x : BitVec 4, x &&& 15#4 = x := by decide
  have hcode : BitVec.extractLsb' 28 4 (o.code ++ 0#28) = o.code := extract_high o.code 0#28
  have hzero : BitVec.extractLsb' 0 28 (o.code ++ 0#28) = 0 := extract_part o.code 0#28
  rw [word_eq_iff, word_eq_iff (y := 0)]
  simp [opcField, BitVec.extractLsb'_and, BitVec.extractLsb'_or, hmask, hall, hcode, hzero]

/-- A record fits the table where it passes the checks of some operation. -/
theorem fitsTable_iff {r : CmdRecord} : FitsTable r ↔ ∃ o, r.Passes o := by
  constructor
  · rintro ⟨row, hrow, hmatch, hops⟩
    obtain ⟨o, rfl⟩ := mem_tableRows_iff.1 hrow
    obtain ⟨hopc, hres⟩ := (and_tableMask_iff r.word o).1 hmatch
    exact ⟨o, hopc, hres, hops.trans (tableOps_eq_nops o r.word)⟩
  · rintro ⟨o, hopc, hres, hops⟩
    exact ⟨tableRow o, mem_tableRows_iff.2 ⟨o, rfl⟩, (and_tableMask_iff r.word o).2 ⟨hopc, hres⟩,
      hops.trans (tableOps_eq_nops o r.word).symm⟩

/-! ### The payload (R104) -/

/-- Byte `j` of a payload is byte `j mod 4` of operand word `j div 4`. -/
theorem payload_getElem? {ops : List Word} {n j : Nat} (hj : j < n) (hops : j < 4 * ops.length) :
    ∃ w, ops[j / 4]? = some w ∧ (payload ops n)[j]? = some (w.extractLsb' (8 * (j % 4)) 8) := by
  have hword : j / 4 < ops.length := by omega
  refine ⟨ops[j / 4], List.getElem?_eq_getElem hword, ?_⟩
  rw [payload, List.getElem?_take_of_lt hj, flatMap_wordBytes_getElem? ops j hops,
    List.getD_eq_getElem ops 0 hword]

theorem extract_byte_toNat (w : Word) (s : Nat) :
    (w.extractLsb' s 8).toNat = w.toNat / 2 ^ s % 256 := by
  rw [BitVec.extractLsb'_toNat, Nat.shiftRight_eq_div_pow]

end Sys2Proof.Machine

namespace Sys2Proof.Claims

open Sys2Proof Sys2Proof.Machine

/-- Settles O3: a row of the table is the decoder's checks of its operation. -/
theorem recordsOfTheTableDecode : Obligations.RecordsOfTheTableDecode := by
  intro r
  rw [fitsTable_iff]
  exact ⟨fun ⟨i, hi⟩ => ⟨i.opcode, (decode_ok_iff.1 hi).1⟩,
    fun ⟨o, ho⟩ => ⟨o.instr r, decode_of_passes ho⟩⟩

/-- Settles O4: a record that fits no row is rejected, and the rejection is a response only. -/
theorem illegalRecordsAreAnsweredIllegal : Obligations.IllegalRecordsAreAnsweredIllegal := by
  intro s r hfree hfits
  cases hdec : decode r with
  | ok i => exact absurd ((recordsOfTheTableDecode r).1 ⟨i, hdec⟩) hfits
  | error e =>
    rw [accept_rejected hdec, State.raise, State.respond, ← hfree]

/-- Settles O5: a decoded instruction is made of the fields of its word. -/
theorem fieldsAreUnsignedBitsOfTheWord : Obligations.FieldsAreUnsignedBitsOfTheWord := by
  intro r i h
  obtain ⟨hpasses, hi⟩ := decode_ok_iff.1 h
  have hlnk := lnkField_toNat r.word
  refine ⟨?_, ?_, ?_, ?_, ?_, ?_⟩
  · rintro l rx tx rfl
    injection hi with hl hrx htx
    subst hl hrx htx
    exact ⟨hlnk, rxpField_toNat r.word, txpField_toNat r.word⟩
  · rintro l baud rfl
    injection hi with hl hbaud
    subst hl hbaud
    exact ⟨hlnk, ops_eq_of_begin hpasses⟩
  · rintro l dat rfl
    injection hi with hl hdat
    subst hl hdat
    exact ⟨hlnk, datField_toNat r.word⟩
  · rintro l bs rfl
    injection hi with hl hbs
    subst hl hbs
    exact ⟨hlnk, hpasses.payload_length.trans (cntField_toNat r.word)⟩
  · rintro l (rfl | rfl | rfl | rfl | rfl) <;> injection hi with hl <;> exact hl ▸ hlnk
  · rintro cnt rfl
    injection hi with hcnt
    exact hcnt ▸ cntField_toNat r.word

/-- Settles O6: the operand words of a WRITEN hold its bytes in order. -/
theorem payloadIsLittleEndianInWords : Obligations.PayloadIsLittleEndianInWords := by
  intro r l bs h
  obtain ⟨hpasses, hi⟩ := decode_ok_iff.1 h
  obtain rfl : payload r.ops (cntField r.word).toNat = bs := by injection hi
  have hops : r.ops.length = ((cntField r.word).toNat + 3) / 4 := hpasses.operands
  rw [hpasses.payload_length]
  refine ⟨cntField_toNat r.word, fun j hj => ?_⟩
  obtain ⟨w, hw, hbyte⟩ := payload_getElem? hj (show j < 4 * r.ops.length by omega)
  exact ⟨_, w, hbyte, hw, extract_byte_toNat w _⟩

/-- Settles O7: each word is the encoded record of its command. -/
theorem sampleWordsDecode : Obligations.SampleWordsDecode :=
  ⟨decodeInvertsEncode (.create 0 0 1) rfl, decodeInvertsEncode (.begin 1 4800) rfl,
    decodeInvertsEncode (.write 0 0x41) rfl, decodeInvertsEncode (.writen 0 [0x91, 0x3C, 0x64]) rfl,
    decodeInvertsEncode (.read 0) rfl, decodeInvertsEncode (.avail 0) rfl,
    decodeInvertsEncode (.flush 0) rfl, decodeInvertsEncode (.activate 1) rfl,
    decodeInvertsEncode (.ovfl 0) rfl, decodeInvertsEncode (.delay 20) rfl⟩

end Sys2Proof.Claims
end

section
/-! PROOFS. The assembler (30_encoding.md R115, R116, R121): the operand ranges, the words of the ten
forms, and NOTEON. -/

namespace Sys2Proof.Machine

/-! ### Operands in range and out of it (R116) -/

/-- The assembler rejects. -/
def Rejects {α : Type} (x : Except AsmError α) : Prop := ∃ e, x = .error e

/-- Operands are read one after the other: where one is rejected, the line is. -/
theorem rejects_bind {α β : Type} {x : Except AsmError α} {f : α → Except AsmError β}
    (h : Rejects x ∨ ∀ a, Rejects (f a)) : Rejects (x >>= f) := by
  cases x with
  | error e => exact ⟨e, rfl⟩
  | ok a =>
    rcases h with ⟨e, he⟩ | hf
    · cases he
    · exact hf a

/-- A number that fits its field is the field's value. -/
theorem toNat_ofNat_fits {w n : Nat} (h : n < 2 ^ w) : (BitVec.ofNat w n).toNat = n :=
  (BitVec.toNat_ofNat n w).trans (Nat.mod_eq_of_lt h)

theorem asmLink_fits {n : Nat} (h : n ≤ 15) : asmLink n = .ok (BitVec.ofNat 4 n) := if_pos h
theorem asmPin_fits {n : Nat} (h : n ≤ 255) : asmPin n = .ok (BitVec.ofNat 8 n) := if_pos h
theorem asmByte_fits {n : Nat} (h : n ≤ 255) : asmByte n = .ok (BitVec.ofNat 8 n) := if_pos h
theorem asmCount_fits {n : Nat} (h : n ≤ 65535) : asmCount n = .ok (BitVec.ofNat 16 n) := if_pos h
theorem asmBaud_fits {n : Nat} (h : n < 2 ^ 32) : asmBaud n = .ok (BitVec.ofNat 32 n) := if_pos h

theorem asmLink_rejects {n : Nat} (h : 15 < n) : Rejects (asmLink n) :=
  ⟨_, if_neg (Nat.not_le.2 h)⟩
theorem asmPin_rejects {n : Nat} (h : 255 < n) : Rejects (asmPin n) :=
  ⟨_, if_neg (Nat.not_le.2 h)⟩
theorem asmByte_rejects {n : Nat} (h : 255 < n) : Rejects (asmByte n) :=
  ⟨_, if_neg (Nat.not_le.2 h)⟩
theorem asmCount_rejects {n : Nat} (h : 65535 < n) : Rejects (asmCount n) :=
  ⟨_, if_neg (Nat.not_le.2 h)⟩
theorem asmBaud_rejects {n : Nat} (h : 2 ^ 32 ≤ n) : Rejects (asmBaud n) :=
  ⟨_, if_neg (Nat.not_lt.2 h)⟩

theorem mapM_asmByte_fits {ns : List Nat} (h : ∀ n ∈ ns, n ≤ 255) :
    ns.mapM asmByte = .ok (ns.map (BitVec.ofNat 8)) := by
  induction ns with
  | nil => rfl
  | cons n rest ih =>
    obtain ⟨hn, hrest⟩ := List.forall_mem_cons.1 h
    rw [List.mapM_cons, asmByte_fits hn, ih hrest]
    rfl

theorem mapM_asmByte_rejects {ns : List Nat} (h : ∃ n ∈ ns, 255 < n) :
    Rejects (ns.mapM asmByte) := by
  induction ns with
  | nil => simp at h
  | cons n rest ih =>
    rw [List.mapM_cons]
    rcases (List.exists_mem_cons_iff ..).1 h with hn | hrest
    · exact rejects_bind (.inl (asmByte_rejects hn))
    · exact rejects_bind (.inr fun _ => rejects_bind (.inl (ih hrest)))

theorem asmList_fits {ns : List Nat} (hlen : ns.length ≤ 65535) (h : ∀ n ∈ ns, n ≤ 255) :
    asmList asmByte ns = .ok (ns.map (BitVec.ofNat 8)) :=
  (if_pos hlen).trans (mapM_asmByte_fits h)

theorem asmList_rejects {ns : List Nat} (h : 65535 < ns.length ∨ ∃ n ∈ ns, 255 < n) :
    Rejects (asmList asmByte ns) := by
  unfold asmList
  split
  · rename_i hlen
    exact mapM_asmByte_rejects (h.resolve_left (Nat.not_lt.2 hlen))
  · exact ⟨_, rfl⟩

/-! ### The lines of the ten forms (R115) -/

theorem assemble_create {l rx tx : Nat} (hl : l ≤ 15) (hrx : rx ≤ 255) (htx : tx ≤ 255) :
    assemble (.create l rx tx) =
      .ok (.create (BitVec.ofNat 4 l) (BitVec.ofNat 8 rx) (BitVec.ofNat 8 tx)) := by
  rw [assemble, asmLink_fits hl, asmPin_fits hrx, asmPin_fits htx]
  rfl

theorem assemble_begin {l baud : Nat} (hl : l ≤ 15) (hb : baud < 2 ^ 32) :
    assemble (.begin l baud) = .ok (.begin (BitVec.ofNat 4 l) (BitVec.ofNat 32 baud)) := by
  rw [assemble, asmLink_fits hl, asmBaud_fits hb]
  rfl

theorem assemble_write {l b : Nat} (hl : l ≤ 15) (hb : b ≤ 255) :
    assemble (.write l b) = .ok (.write (BitVec.ofNat 4 l) (BitVec.ofNat 8 b)) := by
  rw [assemble, asmLink_fits hl, asmByte_fits hb]
  rfl

theorem assemble_writen {l : Nat} {bs : List Nat} (hl : l ≤ 15) (hlen : bs.length ≤ 65535)
    (hbs : ∀ b ∈ bs, b ≤ 255) :
    assemble (.writen l bs) = .ok (.writen (BitVec.ofNat 4 l) (bs.map (BitVec.ofNat 8))) := by
  rw [assemble, asmLink_fits hl, asmList_fits hlen hbs]
  rfl

theorem assemble_delay {n : Nat} (hn : n ≤ 65535) :
    assemble (.delay n) = .ok (.delay (BitVec.ofNat 16 n)) := by
  rw [assemble, asmCount_fits hn]
  rfl

/-- The five forms with a link operand and no other: a fitting link gives the command, whose record
is the opcode and the link. -/
theorem assemble_linkForm {l opc : Nat} {line : AsmLine}
    (h : (opc = 5 ∧ line = .read l) ∨ (opc = 6 ∧ line = .avail l) ∨ (opc = 7 ∧ line = .flush l) ∨
      (opc = 8 ∧ line = .activate l) ∨ (opc = 9 ∧ line = .ovfl l)) :
    ∃ (o : Opcode) (mk : LinkId → Instr), opc = o.code.toNat ∧
      assemble line = (asmLink l >>= fun k => .ok (mk k)) ∧
      ∀ k, encode (mk k) = ⟨linkWord o k, []⟩ := by
  rcases h with ⟨rfl, rfl⟩ | ⟨rfl, rfl⟩ | ⟨rfl, rfl⟩ | ⟨rfl, rfl⟩ | ⟨rfl, rfl⟩
  · exact ⟨.read, .read, rfl, rfl, fun _ => rfl⟩
  · exact ⟨.avail, .avail, rfl, rfl, fun _ => rfl⟩
  · exact ⟨.flush, .flush, rfl, rfl, fun _ => rfl⟩
  · exact ⟨.activate, .activate, rfl, rfl, fun _ => rfl⟩
  · exact ⟨.ovfl, .ovfl, rfl, rfl, fun _ => rfl⟩

/-- Byte `j` of a packed list is byte `j mod 4` of word `j div 4` (R104). -/
theorem packBytes_getElem? {bs : List Byte} {j : Nat} {b : Byte} (h : bs[j]? = some b) :
    ∃ w, (packBytes bs)[j / 4]? = some w ∧ w.toNat / 2 ^ (8 * (j % 4)) % 256 = b.toNat := by
  obtain ⟨hj, -⟩ := List.getElem?_eq_some_iff.1 h
  have hlen := packBytes_length bs
  obtain ⟨w, hw, hbyte⟩ := payload_getElem? (ops := packBytes bs) hj (by omega)
  rw [payload_packBytes, h] at hbyte
  exact ⟨w, hw, (Option.some.inj hbyte ▸ extract_byte_toNat w _).symm⟩

/-- The three bytes of NOTEON, a status byte 0x9c and two data bytes below 0x80 (R121). -/
theorem noteOnBytes_eq (ch pitch vel : Nat) :
    noteOnBytes ch pitch vel = [0x90 + ch % 16, pitch % 128, vel % 128] := by
  have hstatus : 0x90 ||| ch % 16 = 0x90 + ch % 16 :=
    (Nat.two_pow_add_eq_or_of_lt (i := 4) (Nat.mod_lt ch (by decide)) 9).symm
  have hnibble : ch &&& 0x0F = ch % 16 := Nat.and_two_pow_sub_one_eq_mod ch 4
  have hdata (n : Nat) : n &&& 0x7F = n % 128 := Nat.and_two_pow_sub_one_eq_mod n 7
  rw [noteOnBytes, hnibble, hstatus, hdata, hdata]

end Sys2Proof.Machine

namespace Sys2Proof.Claims

open Sys2Proof Sys2Proof.Machine

/-- Settles O58: each form's operands are read in turn, and the encoder writes its word. -/
theorem assembledWordsAreTheForms : Obligations.AssembledWordsAreTheForms := by
  have hlink {l : Nat} (hl : l ≤ 15) : (BitVec.ofNat 4 l).toNat = l :=
    toNat_ofNat_fits (by omega)
  have hbyte {b : Nat} (hb : b ≤ 255) : (BitVec.ofNat 8 b).toNat = b :=
    toNat_ofNat_fits (by omega)
  refine ⟨fun l rx tx => ⟨fun hl hrx htx => ?_, fun h => ?_⟩,
    fun l baud => ⟨fun hl hb => ?_, fun h => ?_⟩, fun l b => ⟨fun hl hb => ?_, fun h => ?_⟩,
    fun l bs => ⟨fun hl hlen hbs => ?_, fun h => ?_⟩,
    fun l opc line hline => ?_, fun n => ⟨fun hn => ?_, fun h => ?_⟩⟩
  · refine ⟨_, assemble_create hl hrx htx, ?_, rfl⟩
    rw [encode_create_toNat, hlink hl, hbyte hrx, hbyte htx]
    rfl
  · exact rejects_bind (h.imp asmLink_rejects fun h _ =>
      rejects_bind (h.imp asmPin_rejects fun h _ => rejects_bind (.inl (asmPin_rejects h))))
  · refine ⟨_, assemble_begin hl hb, (linkWord_toNat _ _).trans ?_, ?_⟩
    · rw [hlink hl]
      rfl
    · exact congrArg (List.cons · []) (toNat_ofNat_fits hb)
  · exact rejects_bind (h.imp asmLink_rejects fun h _ => rejects_bind (.inl (asmBaud_rejects h)))
  · refine ⟨_, assemble_write hl hb, ?_, rfl⟩
    rw [encode_write_toNat, hlink hl, hbyte hb]
    rfl
  · exact rejects_bind (h.imp asmLink_rejects fun h _ => rejects_bind (.inl (asmByte_rejects h)))
  · have hmap : (bs.map (BitVec.ofNat 8)).length = bs.length := List.length_map _
    refine ⟨_, assemble_writen hl hlen hbs, ?_, ?_, fun j b hj => ?_⟩
    · rw [encode_writen_toNat _ (hmap.trans_le hlen), hlink hl, hmap]
      rfl
    · exact (packBytes_length _).trans (by rw [hmap])
    · have hj' : (bs.map (BitVec.ofNat 8))[j]? = some (BitVec.ofNat 8 b) := by
        rw [List.getElem?_map, hj]
        rfl
      obtain ⟨w, hw, hval⟩ := packBytes_getElem? hj'
      exact ⟨w, hw, hval.trans (hbyte (hbs b (List.mem_of_getElem? hj)))⟩
  · exact rejects_bind (h.imp asmLink_rejects fun h _ => rejects_bind (.inl (asmList_rejects h)))
  · obtain ⟨o, mk, rfl, hasm, henc⟩ := assemble_linkForm hline
    rw [hasm]
    refine ⟨fun hl => ?_, fun h => rejects_bind (.inl (asmLink_rejects h))⟩
    rw [asmLink_fits hl]
    refine ⟨_, rfl, ?_, by rw [henc]⟩
    rw [henc, linkWord_toNat, hlink hl]
  · refine ⟨_, assemble_delay hn, (encode_delay_toNat _).trans ?_, rfl⟩
    rw [toNat_ofNat_fits (Nat.lt_succ_of_le hn)]
    rfl
  · exact rejects_bind (.inl (asmCount_rejects h))

/-- Settles O59: the three bytes fit, so the line is the WRITEN of them. -/
theorem noteOnIsAThreeByteWriten : Obligations.NoteOnIsAThreeByteWriten := by
  intro l ch pitch vel hl
  have hbytes : ∀ n ∈ noteOnBytes ch pitch vel, n ≤ 255 := by
    simp [noteOnBytes_eq]
    omega
  refine ⟨BitVec.ofNat 8 (0x90 + ch % 16), BitVec.ofNat 8 (pitch % 128), BitVec.ofNat 8 (vel % 128),
    ?_, ?_, ?_, ?_⟩
  · calc assemble (.noteOn l ch pitch vel)
        = assemble (.writen l (noteOnBytes ch pitch vel)) := rfl
      _ = _ := assemble_writen hl (Nat.le_of_ble_eq_true rfl) hbytes
      _ = _ := by rw [noteOnBytes_eq]; rfl
  all_goals exact toNat_ofNat_fits (by omega)

end Sys2Proof.Claims
end

section
/-! PROOFS. The timing table's lookup and the delay timer (40_timing_delay.md R131 to R138): a DELAY
counts the host's own steps, and undisturbed ones are all the host's. -/

namespace Sys2Proof.Machine

open Sys2Proof.Claims

/-! ### The rows of the timing table (R131) -/

/-- A row of a well-formed table is known by its baud (00_scope.md R12). -/
theorem row_eq_of_baud_eq {rows : List TimingRow} (h : TableWF rows) {row row' : TimingRow}
    (hr : row ∈ rows) (hr' : row' ∈ rows) (hb : row.baud = row'.baud) : row = row' :=
  List.inj_on_of_nodup_map h.1 hr hr' hb

/-! ### `Wait` (R134) -/

theorem rxWait_pos {s : State} {st : RxSt} {k : Nat} {expire : State → Except Fault State}
    (hk : 0 < k) : s.rxWait st k expire = .ok { s with rxSt := st, dly := k } :=
  if_neg hk.ne'

theorem rxWait_zero (s : State) (st : RxSt) (expire : State → Except Fault State) :
    s.rxWait st 0 expire = expire { s with rxSt := st } :=
  if_pos rfl

theorem txWait_pos {s : State} {st : TxSt} {k : Nat} {expire : State → Except Fault State}
    (hk : 0 < k) : s.txWait st k expire = .ok { s with txSt := st, dly := k } :=
  if_neg hk.ne'

theorem txWait_zero (s : State) (st : TxSt) (expire : State → Except Fault State) :
    s.txWait st 0 expire = expire { s with txSt := st } :=
  if_pos rfl

/-! ### The ticks of a DELAY (R137, R138) -/

/-- Phase 2 is the host's: both engines idle and no interrupt to dispatch (10_state.md R62). -/
def State.HostTurn (p : State) : Prop :=
  p.rxSt = .idle ∧ p.txSt = .idle ∧ (p.pend = false ∨ p.ie = false)

/-- The host's turn in a DELAY counts `HDLY` (R63). -/
theorem State.HostTurn.phase2_delay {p : State} (h : p.HostTurn) (hh : p.hostSt = .delay) :
    p.phase2 = finish p.countDelay := by
  obtain ⟨hr, ht, hn⟩ := h
  rw [phase2_host hr ht hn, State.hostStep, hh]

/-- The host's turn with no tick to count faults: such a state is outside the invariant. -/
theorem State.HostTurn.phase2_underflow {p : State} (h : p.HostTurn) (hh : p.hostSt = .delay)
    (h0 : p.hdly = 0) : p.phase2 = .fault .counterUnderflow := by
  rw [h.phase2_delay hh, State.countDelay, h0]
  rfl

/-- The host's turn with one tick to count answers `(OK, 0)`. -/
theorem State.HostTurn.phase2_last {p : State} (h : p.HostTurn) (hh : p.hostSt = .delay)
    (hk : p.hdly = 1) : p.phase2 = .next (({ p with hdly := 0 } : State).respond .ok 0) := by
  rw [h.phase2_delay hh, State.countDelay, hk]
  rfl

/-- The host's turn with more ticks to count takes one from `HDLY`. -/
theorem State.HostTurn.phase2_more {p : State} (h : p.HostTurn) (hh : p.hostSt = .delay) {k : Nat}
    (hk : p.hdly = k + 2) : p.phase2 = .next { p with hdly := k + 1 } := by
  rw [h.phase2_delay hh, State.countDelay, hk]
  rfl

/-! ### What the receive engine's ticks leave of the host -/

theorem RxRun.sameHost {s u : State} (h : RxRun s u) : SameHost s u := by
  cases h <;> exact ⟨⟨rfl, rfl, rfl, rfl, rfl, rfl⟩, rfl⟩

/-- Outside the host's turn, and with the transmit engine idle, the tick is the receive engine's or
a dispatch's, which leave everything the host owns (60_exceptions.md R266). -/
theorem AgentStep.sameHost {p u : State} (h : AgentStep p u) (ht : p.txSt = .idle)
    (hturn : ¬ p.HostTurn) : SameHost p u := by
  cases h with
  | rxReturn | unserved | enters | spurious => exact ⟨⟨rfl, rfl, rfl, rfl, rfl, rfl⟩, rfl⟩
  | rx _ _ _ hu | starts _ _ _ _ _ _ _ hu => exact hu.sameHost
  | tx _ hrun => exact absurd ht hrun
  | counts hr _ hn | delayEnds hr _ hn | nextFrame hr _ hn | idles hr _ hn | accepts hr _ hn
  | rejects hr _ hn => exact absurd ⟨hr, ht, hn⟩ hturn

/-! ### An undisturbed DELAY -/

/-- A DELAY with `n` ticks to count that nothing can interrupt: no engine runs, nothing is pending
and no pin is armed. -/
structure State.QuietDelay (s : State) (n : Nat) : Prop where
  cfgWF : s.cfg.WF
  rxIdle : s.rxSt = .idle
  txIdle : s.txSt = .idle
  delays : s.hostSt = .delay
  hdly : s.hdly = n
  notPending : s.pend = false
  unarmed : ∀ p ∈ s.ports, p.pcmsk = 0

/-- A port with no armed bit never changes in the sense of R265. -/
theorem PortRegs.changed_of_unarmed {r : PortRegs} (h : r.pcmsk = 0) : r.changed = false := by
  simp [PortRegs.changed, h]

theorem phase1_unarmed {s : State} (h : ∀ p ∈ s.ports, p.pcmsk = 0) :
    ∀ p ∈ s.phase1.ports, p.pcmsk = 0 := by
  intro p hp
  obtain ⟨q, hq, -, -, hmask, -⟩ := mem_samplePorts hp
  exact hmask.trans (h q hq)

/-- With no pin armed, phase 1 sets no `PEND` (60_exceptions.md R265). -/
theorem phase1_pend_of_unarmed {s : State} (h : ∀ p ∈ s.ports, p.pcmsk = 0) :
    s.phase1.pend = s.pend := by
  have hstill : s.phase1.ports.any PortRegs.changed = false := by
    rw [List.any_eq_false]
    intro p hp
    rw [PortRegs.changed_of_unarmed (phase1_unarmed h p hp)]
    exact Bool.false_ne_true
  rw [phase1_pend, ← phase1_ports, hstill, Bool.and_false, Bool.or_false]

theorem State.QuietDelay.hostTurn {s : State} {n : Nat} (h : s.QuietDelay n) :
    s.phase1.HostTurn :=
  ⟨h.rxIdle, h.txIdle, .inl ((phase1_pend_of_unarmed h.unarmed).trans h.notPending)⟩

/-- A tick of a quiet DELAY that is not its last leaves a quiet DELAY. -/
theorem State.QuietDelay.next {s : State} {k : Nat} (h : s.QuietDelay (k + 2)) :
    ∃ t, step s = .next t ∧ t.QuietDelay (k + 1) :=
  ⟨_, step_next h.cfgWF (h.hostTurn.phase2_more h.delays h.hdly),
    { cfgWF := h.cfgWF
      rxIdle := h.rxIdle
      txIdle := h.txIdle
      delays := h.delays
      hdly := rfl
      notPending := (phase1_pend_of_unarmed h.unarmed).trans h.notPending
      unarmed := phase1_unarmed h.unarmed }⟩

/-- A quiet DELAY counts one delay tick each tick. -/
theorem State.QuietDelay.runs {s : State} {n : Nat} (h : s.QuietDelay n) {j : Nat} (hj : j < n) :
    ∃ t, s.RunsTo j t ∧ t.QuietDelay (n - j) := by
  induction j with
  | zero => exact ⟨s, runsTo_zero.2 rfl, h⟩
  | succ j ih =>
    obtain ⟨u, hrun, hu⟩ := ih (by omega)
    rw [show n - j = n - (j + 2) + 2 by omega] at hu
    obtain ⟨t, hstep, ht⟩ := hu.next
    rw [show n - (j + 2) + 1 = n - (j + 1) by omega] at ht
    exact ⟨t, runsTo_snoc hrun hstep, ht⟩

/-- After as many ticks as it counts, a quiet DELAY has answered. -/
theorem State.QuietDelay.completes {s : State} {n : Nat} (h : s.QuietDelay n) (hn : 0 < n) :
    ∃ t, s.RunsTo n t ∧ t.hostSt = .free ∧ t.resp = some ⟨.ok, 0⟩ := by
  obtain ⟨m, rfl⟩ := Nat.exists_eq_add_one.2 hn
  obtain ⟨u, hrun, hu⟩ := h.runs (Nat.lt_succ_self m)
  rw [Nat.add_sub_cancel_left] at hu
  exact ⟨_, runsTo_snoc hrun (step_next hu.cfgWF (hu.hostTurn.phase2_last hu.delays hu.hdly)),
    rfl, rfl⟩

/-- The invariant gives the transmit engine's idleness and the well-formed configuration. -/
theorem State.Inv.quietDelay {s : State} (h : s.Inv) (hh : s.hostSt = .delay)
    (hr : s.rxSt = .idle) (hp : s.pend = false) (hports : ∀ p ∈ s.ports, p.pcmsk = 0) :
    s.QuietDelay s.hdly where
  cfgWF := h.cfgWF
  rxIdle := hr
  txIdle := by
    by_contra hrun
    obtain ⟨hw, -⟩ := h.txHost hrun
    exact nomatch hh.symm.trans hw
  delays := hh
  hdly := rfl
  notPending := hp
  unarmed := hports

end Sys2Proof.Machine

namespace Sys2Proof.Claims

open Sys2Proof Sys2Proof.Machine

/-- Settles O17: a lookup finds a row of the baud or says there is none, and a well-formed table has
at most one. -/
theorem lookupIsExactMatch : Obligations.LookupIsExactMatch := by
  intro c baud hc
  have htable := timingRom_wf hc
  refine ⟨fun row hrow hbaud => ?_, fun hnone => ?_, fun row hrow row' hrow' =>
    row_eq_of_baud_eq htable hrow hrow'⟩
  · rcases lookup_cases c baud with ⟨row', hrow', hbaud', heq⟩ | ⟨hnone, -⟩
    · obtain rfl := row_eq_of_baud_eq htable hrow hrow' (hbaud.trans hbaud'.symm)
      exact heq
    · exact absurd hbaud (hnone row hrow)
  · rcases lookup_cases c baud with ⟨row, hrow, hbaud, -⟩ | ⟨-, heq⟩
    · exact absurd hbaud (hnone row hrow)
    · exact heq

/-- Settles O18: the two branches of `Wait`, for both engines. -/
theorem waitLoadsOrExpiresAtOnce : Obligations.WaitLoadsOrExpiresAtOnce :=
  fun s _ rs ts expire =>
    ⟨fun hk => ⟨rxWait_pos hk, txWait_pos hk⟩, rxWait_zero s rs expire, txWait_zero s ts expire⟩

/-- Settles O19: the two branches of DELAY. -/
theorem delayBlocksTheHost : Obligations.DelayBlocksTheHost :=
  fun _ _ => ⟨fun h0 => if_pos h0, fun hpos => if_neg hpos.ne'⟩

/-- Settles O20: the host's tick takes one from `HDLY`, the last one answering; any other agent's
tick leaves what the host owns. -/
theorem delayCountsHostStepsOnly : Obligations.DelayCountsHostStepsOnly := by
  intro s t hh hstep hosts
  obtain ⟨hc, u, hu, hend⟩ := step_cases hstep
  refine ⟨fun hturn => ?_, fun ht hturn => ?_⟩
  · replace hturn : s.phase1.HostTurn := hturn
    match hk : s.hdly with
    | 0 =>
      rw [step_eq_ticked hc, hturn.phase2_underflow hh hk] at hstep
      cases hstep
    | 1 =>
      cases (step_next hc (hturn.phase2_last hh hk)).symm.trans hstep
      exact ⟨rfl, fun _ => ⟨rfl, rfl⟩, fun hne => absurd rfl hne⟩
    | k + 2 =>
      cases (step_next hc (hturn.phase2_more hh hk)).symm.trans hstep
      exact ⟨rfl, fun h0 => absurd h0 (Nat.succ_ne_zero k), fun _ => ⟨hh, rfl⟩⟩
  · subst hend
    obtain ⟨⟨hhost, hhdly, -⟩, hresp⟩ := hu.sameHost ht hturn
    exact ⟨hhdly, hhost.trans hh, hresp⟩

/-- Settles O21: every tick of a quiet DELAY is the host's, so it counts one each. -/
theorem undisturbedDelayLastsItsTicks : Obligations.UndisturbedDelayLastsItsTicks := by
  rintro s n h hh rfl hr hp hports
  have hquiet := h.quietDelay hh hr hp hports
  refine ⟨fun j hj => ?_, hquiet.completes (h.delayCounts hh)⟩
  obtain ⟨t, hrun, ht⟩ := hquiet.runs hj
  exact ⟨t, hrun, ht.delays, ht.hdly⟩

end Sys2Proof.Claims
end

section
/-! PROOFS. What WRITE, WRITEN and DELAY leave unchanged where they answer a next state
(40_timing_delay.md R137, 44_transmit.md R231, R235, R236). -/

namespace Sys2Proof.Machine

/-- An activation changes nothing of a link but its overflow flag (42_registry.md R170). -/
theorem activate_link_self (s : State) (l : LinkId) :
    (s.activate l).1.link l = { s.link l with ovf := ((s.activate l).1.link l).ovf } := by
  rw [activate_link]
  split <;> rfl

theorem activate_link_other (s : State) {l k : LinkId} (h : k ≠ l) :
    (s.activate l).1.link k = s.link k := by
  rw [activate_link, if_neg fun hk => h hk.2]

/-- DELAY writes `HDLY`, `HOST_ST` and the response (R137). -/
theorem CmdRun.delay_frame {s t : State} {cnt : Count} (h : CmdRun (.delay cnt) s t) :
    t = { s with hdly := t.hdly, hostSt := t.hostSt, resp := t.resp } := by
  cases h with
  | answers | delays => rfl
  | switches _ _ hi => rcases hi with hi | hi | hi | hi <;> cases hi
  | takes _ hi | flushes _ hi | creates _ _ _ _ hi | begins _ _ _ hi => cases hi
  | sends _ _ _ _ _ _ hi => rcases hi with ⟨hi, -⟩ | hi <;> cases hi

/-- `t` is `s` but for what a WRITE or WRITEN on link `l` may write: the registry and the link's
overflow flag, output latches, the transmit engine with `DLY` and `IE`, and the host's registers but
`HDLY` (44_transmit.md R231, R235, R236). -/
structure WriteFrame (l : LinkId) (s t : State) : Prop where
  regs : t = { s with links := t.links, active := t.active, ie := t.ie, head := t.head,
                      tail := t.tail, ports := t.ports, dly := t.dly, txSt := t.txSt, txI := t.txI,
                      txD := t.txD, txL := t.txL, txSie := t.txSie, hostSt := t.hostSt,
                      wnL := t.wnL, wnQ := t.wnQ, wnSum := t.wnSum, resp := t.resp }
  others : ∀ k, k ≠ l → t.link k = s.link k
  named : t.link l = { s.link l with ovf := (t.link l).ovf }
  ports : OutOnly s.ports t.ports

theorem WriteFrame.respond (l : LinkId) (s : State) (st : Status) (r : Word) :
    WriteFrame l s (s.respond st r) :=
  ⟨rfl, fun _ _ => rfl, rfl, .refl _⟩

/-- A frame start, and the transmit engine's run in its tick, stay within the frame. -/
theorem TxRun.writeFrame {s u : State} {l : LinkId} {q : List Byte} {v : Byte}
    (h : TxRun ((s.loadWrite l q).loadFrame l v) u) : WriteFrame l s u where
  regs := by cases h <;> simp
  others k hk := (h.link k).trans (activate_link_other (s.loadWrite l q) hk)
  named := by
    rw [h.link l]
    exact activate_link_self (s.loadWrite l q) l
  ports := by
    obtain ⟨-, -, -, -, -, -, hports⟩ := h.same
    rwa [loadFrame_ports] at hports

theorem CmdRun.writeFrame {i : Instr} {s t : State} {l : LinkId} (h : CmdRun i s t)
    (hi : (∃ v, i = .write l v) ∨ ∃ bs, i = .writen l bs) : WriteFrame l s t := by
  cases h with
  | answers st r => exact .respond l s st r
  | sends l' v q _ _ _ hi' hu =>
    obtain rfl : l' = l := by
      rcases hi' with ⟨rfl, -⟩ | rfl <;> simpa using hi
    exact hu.writeFrame
  | switches _ _ hi' => rcases hi' with rfl | rfl | rfl | rfl <;> simp at hi
  | takes _ hi' | flushes _ hi' | delays _ hi' | creates _ _ _ _ hi' | begins _ _ _ hi' =>
    subst hi'
    simp at hi

end Sys2Proof.Machine

namespace Sys2Proof.Claims

open Sys2Proof Sys2Proof.Machine

/-- Settles O50: the frames of DELAY's and of the transmit commands' outcomes. -/
theorem blockingCommandsFrame : Obligations.BlockingCommandsFrame := by
  intro i s t hexec
  have hrun := exec_run hexec
  refine ⟨fun cnt hi => ?_, fun l hi => ?_⟩
  · subst hi
    exact hrun.delay_frame
  · obtain ⟨hregs, hothers, hnamed, hports⟩ := hrun.writeFrame hi
    exact ⟨hregs, hothers, hnamed, fun _ _ => hports.get, fun a => congrArg (·.read a) hrun.rxbuf⟩

end Sys2Proof.Claims
end

section
/-! PROOFS. The pins' registers (41_pins_links.md R152, R156): `PinWrite` sets one output bit, and no
step disarms a pin. -/

namespace Sys2Proof.Machine

open Sys2Proof.Claims

/-! ### One bit of one port (R150 to R152) -/

/-- A change of port `k` is a change of the registers at index `k` only. -/
theorem modify_port {ps : List PortRegs} {i : Nat} {r : PortRegs} (h : ps[i]? = some r) (k : Nat)
    (f : PortRegs → PortRegs) : (ps.modify k f)[i]? = some (if i = k then f r else r) := by
  simp only [List.getElem?_modify, h, Option.map_eq_map, Option.map_some, eq_comm]

@[simp] theorem bitAt_setOut (r : PortRegs) (v : Bool) (b c : Fin 8) :
    bitAt (r.setOut v b).out c = if c = b then v else bitAt r.out c :=
  bitAt_withBit r.out b c v

@[simp] theorem bitAt_setDir (r : PortRegs) (v : Bool) (b c : Fin 8) :
    bitAt (r.setDir v b).dir c = if c = b then v else bitAt r.dir c :=
  bitAt_withBit r.dir b c v

@[simp] theorem bitAt_arm (r : PortRegs) (b c : Fin 8) :
    bitAt (r.arm b).pcmsk c = if c = b then true else bitAt r.pcmsk c :=
  bitAt_withBit r.pcmsk b c true

/-- A register `reg` of which port `k`'s change `f` sets bit `b` to `v`: the bits of port `i`. -/
theorem bitAt_port_changed {reg : PortRegs → Byte} {f : PortRegs → PortRegs} {r : PortRegs}
    {b c : Fin 8} {v : Bool} (hf : bitAt (reg (f r)) c = if c = b then v else bitAt (reg r) c)
    (i k : Nat) : bitAt (reg (if i = k then f r else r)) c =
      if i = k ∧ c = b then v else bitAt (reg r) c := by
  by_cases hi : i = k
  · simpa only [hi, if_true, true_and] using hf
  · simp only [hi, if_false, false_and]

/-- The core drives a pin whose direction bit is 1, with its output bit (10_state.md R65). -/
theorem drivenLevel_of_output {s : State} {p : PinId} {e : PinEntry} {r : PortRegs}
    (he : pinEntry s.cfg p = some e) (hr : s.ports[e.port]? = some r)
    (hd : bitAt r.dir e.bit = true) : s.drivenLevel p = some (bitAt r.out e.bit) := by
  simp only [State.drivenLevel, he, hr, hd, if_true]

/-- A driven pin reads back its output bit after phase 1 (41_pins_links.md R153). -/
theorem phase1_pinRead_of_output {s : State} {p : PinId} {e : PinEntry} {r : PortRegs}
    (he : pinEntry s.cfg p = some e) (hr : s.ports[e.port]? = some r)
    (hd : bitAt r.dir e.bit = true) : s.phase1.pinRead p = .ok (bitAt r.out e.bit) := by
  rw [pinRead_eq (s := s.phase1) he (phase1_port hr)]
  exact congrArg Except.ok ((bitAt_sampled r _ _).trans (if_pos hd))

/-! ### No step disarms a pin (R156) -/

/-- From `ps` to `ps'` every port is there still, and every armed bit is armed still. -/
def StayArmed (ps ps' : List PortRegs) : Prop :=
  ∀ (k : Nat) (p : PortRegs), ps[k]? = some p →
    ∃ q : PortRegs, ps'[k]? = some q ∧ ∀ b, bitAt p.pcmsk b = true → bitAt q.pcmsk b = true

theorem StayArmed.refl (ps : List PortRegs) : StayArmed ps ps :=
  fun _ p hp => ⟨p, hp, fun _ => id⟩

theorem StayArmed.trans {a b c : List PortRegs} (h : StayArmed a b) (h' : StayArmed b c) :
    StayArmed a c := by
  intro k p hp
  obtain ⟨q, hq, hpq⟩ := h k p hp
  obtain ⟨r, hr, hqr⟩ := h' k q hq
  exact ⟨r, hr, fun b hb => hqr b (hpq b hb)⟩

theorem OutOnly.driveOnly {a b : List PortRegs} (h : OutOnly a b) : DriveOnly a b := by
  have hdir := congrArg (List.map fun r : PortRegs => { r with dir := 0 }) h
  rwa [List.map_map, List.map_map] at hdir

/-- A change of output latches and directions writes no `PCMSK`. -/
theorem DriveOnly.stayArmed {a b : List PortRegs} (h : DriveOnly a b) : StayArmed a b := by
  intro k p hp
  obtain ⟨q, hq, he⟩ := h.get hp
  have hmask : q.pcmsk = p.pcmsk := by rw [he]
  exact ⟨q, hq, fun _ hb => hmask ▸ hb⟩

theorem ArmOnly.stayArmed {a b : List PortRegs} (h : ArmOnly a b) : StayArmed a b := by
  intro k p hp
  obtain ⟨-, hk⟩ := h k
  obtain ⟨m, hm, harmed⟩ := hk p hp
  exact ⟨_, hm, harmed⟩

/-- Phase 1 writes the input registers only (10_state.md R61). -/
theorem phase1_stayArmed (s : State) : StayArmed s.ports s.phase1.ports :=
  fun _ _ hp => ⟨_, phase1_port hp, fun _ => id⟩

theorem TxRun.stayArmed {s u : State} (h : TxRun s u) : StayArmed s.ports u.ports := by
  obtain ⟨-, -, -, -, -, -, hports⟩ := h.same
  exact hports.driveOnly.stayArmed

theorem RxRun.stayArmed {s u : State} (h : RxRun s u) : StayArmed s.ports u.ports := by
  obtain ⟨-, -, -, -, -, hports, -⟩ := h.same
  exact hports ▸ .refl _

/-- A frame start's activation writes no port, and the transmit engine's run disarms none. -/
theorem TxRun.stayArmed_of_loadFrame {s u : State} {l : LinkId} {v : Byte}
    (h : TxRun (s.loadFrame l v) u) : StayArmed s.ports u.ports := by
  simpa using h.stayArmed

/-- Of the commands only BEGIN writes `PCMSK`, and it arms. -/
theorem CmdRun.stayArmed {i : Instr} {s u : State} (h : CmdRun i s u) :
    StayArmed s.ports u.ports := by
  cases h with
  | answers | switches | takes | flushes | delays => exact .refl _
  | creates _ _ _ _ _ _ _ _ hps => exact hps.stayArmed
  | begins _ _ _ _ _ _ hps => simpa using hps.stayArmed
  | sends _ _ _ _ _ _ _ hu => exact hu.stayArmed_of_loadFrame

theorem AgentStep.stayArmed {p u : State} (h : AgentStep p u) : StayArmed p.ports u.ports := by
  cases h with
  | rxReturn | unserved | enters | spurious | counts | delayEnds | idles | rejects => exact .refl _
  | rx _ _ _ hu | starts _ _ _ _ _ _ _ hu => exact hu.stayArmed
  | tx _ _ _ _ hu => exact hu.stayArmed
  | nextFrame _ _ _ _ _ _ _ _ hu => exact hu.stayArmed_of_loadFrame
  | accepts _ _ _ _ _ _ _ _ _ _ _ _ hu => exact hu.stayArmed

end Sys2Proof.Machine

namespace Sys2Proof.Claims

open Sys2Proof Sys2Proof.Machine

/-- Settles O15: the write is of one bit of one port, and the line update reads a driven bit back. -/
theorem pinWriteSetsOneOutputBit : Obligations.PinWriteSetsOneOutputBit := by
  intro s p v e r he hr
  obtain ⟨hlt, -⟩ := List.getElem?_eq_some_iff.1 hr
  have hport := (modify_port hr e.port (PortRegs.setOut v e.bit)).trans (by rw [if_pos rfl])
  have hlevel : bitAt (r.setOut v e.bit).out e.bit = v := by simp
  refine ⟨_, onPort_eq he hlt (PortRegs.setOut v), rfl, fun k q hq => ?_, fun hd => ?_⟩
  · exact ⟨_, modify_port hq _ _, by split <;> rfl,
      fun b => bitAt_port_changed (reg := PortRegs.out) (bitAt_setOut q v e.bit b) k e.port⟩
  · generalize s.ports.modify e.port (PortRegs.setOut v e.bit) = ps at hport ⊢
    rw [drivenLevel_of_output (s := { s with ports := ps }) he hport hd,
      phase1_pinRead_of_output (s := ({ s with ports := ps } : State).endTick) he hport hd, hlevel]
    exact ⟨rfl, rfl⟩

/-- Settles O16: neither phase 1 nor an agent step nor the end of the tick disarms a pin. -/
theorem armedPinsStayArmed : Obligations.ArmedPinsStayArmed := by
  intro s t h k p b hp hb
  obtain ⟨-, u, hu, rfl⟩ := step_cases h
  obtain ⟨q, hq, harmed⟩ := ((phase1_stayArmed s).trans hu.stayArmed) k p hp
  exact ⟨q, hq, harmed b hb⟩

end Sys2Proof.Claims
end

section
/-! PROOFS. Link configuration: what CREATE and BEGIN do, and what they leave unchanged
(41_pins_links.md R154 to R157, 60_exceptions.md R261). -/

namespace Sys2Proof.Machine

open Sys2Proof.Claims

/-! ### The checks (60_exceptions.md R261) -/

/-- Check 2 of a link command is the link's existence. -/
theorem hasLink_iff {s : State} {l : LinkId} : s.hasLink l = true ↔ LinkExists s l := by
  simp [State.hasLink, State.linkInRange, LinkExists]

/-- A link command of a link that does not exist is answered NO_LINK. -/
theorem withLink_of_missing {s : State} {l : LinkId} (hl : ¬ LinkExists s l)
    (k : State → Host.Outcome State Fault Refusal) :
    s.withLink l k = .next (answered s .noLink 0) :=
  if_neg (mt hasLink_iff.1 hl)

/-- CREATE refuses two pins where one is not mapped or they are the same (R154). -/
theorem pinsUsable_eq_false_iff {c : Config} {rx tx : PinId} : pinsUsable c rx tx = false ↔
    pinEntry c rx = none ∨ pinEntry c tx = none ∨ rx = tx := by
  simp [pinsUsable, pinMapped, Bool.and_eq_false_iff, or_assoc, -Bool.and_eq_false_imp]

/-- CREATE's checks in their order, and its writes (R261). -/
theorem exec_create (s : State) (l : LinkId) (rx tx : PinId) : exec (.create l rx tx) s =
    if s.cfg.nLinks ≤ l.toNat then .next (answered s .noLink 0)
    else if (s.link l).exists_ then .next (answered s .linkExists 0)
    else if pinEntry s.cfg rx = none ∨ pinEntry s.cfg tx = none ∨ rx = tx then
      .next (answered s .badPin 0)
    else finish (s.createLink l rx tx) := by
  simp only [← pinsUsable_eq_false_iff, ← Nat.not_lt, ← decide_eq_false_iff_not]
  rfl

/-! ### CREATE's writes (41_pins_links.md R154) -/

/-- The state CREATE leaves, with the ports `ps`. -/
def State.linkCreated (s : State) (l : LinkId) (rx tx : PinId) (ps : List PortRegs) : State :=
  ({ s.setLink l { s.link l with rxpin := rx, txpin := tx, exists_ := true } with
    ports := ps } : State).respond .ok 0

theorem linkCreated_link (s : State) (l : LinkId) (rx tx : PinId) (ps : List PortRegs)
    (k : LinkId) : (s.linkCreated l rx tx ps).link k =
      if k = l then { s.link l with exists_ := true, rxpin := rx, txpin := tx } else s.link k :=
  setLink_link s l _ k

/-- CREATE's writes, where its pins passed the checks. -/
theorem createLink_eq {s : State} (hc : s.cfg.WF) (hp : s.ports.length = s.cfg.nPorts) (l : LinkId)
    {rx tx : PinId} {er et : PinEntry} (hr : pinEntry s.cfg rx = some er)
    (ht : pinEntry s.cfg tx = some et) (hne : rx ≠ tx) :
    s.createLink l rx tx = .ok (s.linkCreated l rx tx (createdPorts s.ports er et)) := by
  have huse : pinsUsable s.cfg rx tx = true := by simp [pinsUsable, pinMapped, hr, ht, hne]
  obtain ⟨t, h⟩ := createLink_total hc hp (l := l) huse
  obtain ⟨er', et', hr', ht', rfl⟩ := createLink_ok h
  cases hr.symm.trans hr'
  cases ht.symm.trans ht'
  exact h

/-- A transmit pin's bit: an output that idles high. -/
def PortRegs.idleHigh (b : Fin 8) (r : PortRegs) : PortRegs := (r.setDir true b).setOut true b

theorem bitAt_idleHigh_dir (r : PortRegs) (b c : Fin 8) :
    bitAt (r.idleHigh b).dir c = if c = b then true else bitAt r.dir c :=
  bitAt_setDir r true b c

theorem bitAt_idleHigh_out (r : PortRegs) (b c : Fin 8) :
    bitAt (r.idleHigh b).out c = if c = b then true else bitAt r.out c :=
  bitAt_setOut (r.setDir true b) true b c

theorem setDir_out (r : PortRegs) (v : Bool) (b : Fin 8) : (r.setDir v b).out = r.out := rfl

/-- The transmit pin's bit is a high output, the receive pin's, another bit, an input, and every
other bit is as it was. -/
theorem createdPorts_port {ps : List PortRegs} {er et : PinEntry}
    (hne : ¬ (er.port = et.port ∧ er.bit = et.bit)) {k : Nat} {p : PortRegs} (hp : ps[k]? = some p) :
    ∃ q, (createdPorts ps er et)[k]? = some q ∧ q = { p with out := q.out, dir := q.dir } ∧
      ∀ b, bitAt q.dir b = (if k = et.port ∧ b = et.bit then true
          else if k = er.port ∧ b = er.bit then false else bitAt p.dir b) ∧
        bitAt q.out b = (if k = et.port ∧ b = et.bit then true else bitAt p.out b) := by
  obtain ⟨q, hq, hkeep⟩ := (createdPorts_driveOnly ps er et).get hp
  have hport := modify_port (modify_port hp et.port (PortRegs.idleHigh et.bit)) er.port
    (PortRegs.setDir false er.bit)
  obtain rfl := Option.some.inj (hq.symm.trans hport)
  refine ⟨_, hq, hkeep, fun b => ⟨?_, ?_⟩⟩
  · rw [bitAt_port_changed (reg := PortRegs.dir) (bitAt_setDir _ false er.bit b),
      bitAt_port_changed (reg := PortRegs.dir) (bitAt_idleHigh_dir p et.bit b)]
    have hother : k = er.port ∧ b = er.bit → ¬ (k = et.port ∧ b = et.bit) :=
      fun ⟨hkr, hbr⟩ ⟨hkt, hbt⟩ => hne ⟨hkr.symm.trans hkt, hbr.symm.trans hbt⟩
    exact ite_ite_comm _ _ _ _ hother
  · rw [apply_ite PortRegs.out, setDir_out, ite_self]
    exact bitAt_port_changed (reg := PortRegs.out) (bitAt_idleHigh_out p et.bit b) k et.port

/-! ### BEGIN's writes (R155 to R157) -/

/-- The registers of link `l` after a first BEGIN with the constants `tm`: a switching activation
clears its overflow flag. -/
def State.begunRegs (s : State) (l : LinkId) (tm : Timing) : LinkRegs :=
  { s.link l with
    init := true, rxc := tm.rxCenter, rxi := tm.rxIntra, rxs := tm.rxStop, txd := tm.txDelay
    ovf := if s.active = some l then (s.link l).ovf else false }

/-- The state a first BEGIN leaves, with the ports `ps`. -/
def State.linkBegun (s : State) (l : LinkId) (baud : Word) (ps : List PortRegs) : State :=
  (({ s.setTiming l (lookup s.cfg baud) with ports := ps } : State).activate l).1.respond .ok 0

theorem linkBegun_link (s : State) (l : LinkId) (baud : Word) (ps : List PortRegs) (k : LinkId) :
    (s.linkBegun l baud ps).link k =
      if k = l then s.begunRegs l (lookup s.cfg baud) else s.link k := by
  have hset (j : LinkId) : ({ s.setTiming l (lookup s.cfg baud) with ports := ps } : State).link j =
      _ := setTiming_link s l (lookup s.cfg baud) j
  rw [State.linkBegun, respond_link, activate_link, hset l, hset k, if_pos rfl, State.begunRegs]
  by_cases ha : s.active = some l
  · simp [ha]
  · by_cases hk : k = l <;> simp [ha, hk]

theorem linkBegun_ports (s : State) (l : LinkId) (baud : Word) (ps : List PortRegs) :
    (s.linkBegun l baud ps).ports = ps :=
  activate_ports _ l

theorem linkBegun_active (s : State) (l : LinkId) (baud : Word) (ps : List PortRegs) :
    (s.linkBegun l baud ps).active = some l :=
  activate_active _ l

theorem linkBegun_head (s : State) (l : LinkId) (baud : Word) (ps : List PortRegs) :
    (s.linkBegun l baud ps).head = if s.active = some l then s.head else 0 :=
  activate_head _ l

theorem linkBegun_tail (s : State) (l : LinkId) (baud : Word) (ps : List PortRegs) :
    (s.linkBegun l baud ps).tail = if s.active = some l then s.tail else 0 :=
  activate_tail _ l

/-- A first BEGIN writes the links, the ports, the registry and the response. -/
theorem linkBegun_eq (s : State) (l : LinkId) (baud : Word) (ps : List PortRegs) :
    s.linkBegun l baud ps = { s with
      links := (s.linkBegun l baud ps).links, ports := (s.linkBegun l baud ps).ports
      active := some l, head := (s.linkBegun l baud ps).head, tail := (s.linkBegun l baud ps).tail
      resp := some ⟨.ok, 0⟩, hostSt := .free } := by
  obtain ⟨ha, he⟩ | ⟨-, he⟩ :=
    activate_cases ({ s.setTiming l (lookup s.cfg baud) with ports := ps } : State) l
  · rw [State.linkBegun, he, ← ha]
    rfl
  · rw [State.linkBegun, he]
    rfl

/-- A first BEGIN's writes, where the receive pin is mapped. -/
theorem beginLink_eq {s : State} (hc : s.cfg.WF) (hp : s.ports.length = s.cfg.nPorts) {l : LinkId}
    (baud : Word) {e : PinEntry} (he : pinEntry s.cfg (s.link l).rxpin = some e) :
    s.beginLink l baud = .ok (s.linkBegun l baud (begunPorts s l baud e)) := by
  obtain ⟨t, h⟩ := beginLink_total hc hp (baud := baud) (pinMapped_iff.2 ⟨e, he⟩)
  obtain ⟨e', he', rfl⟩ := beginLink_ok h
  have hports : begunPorts s l baud e' = begunPorts s l baud e := by
    unfold begunPorts
    split
    · rename_i hm
      cases he.symm.trans (he' hm)
      rfl
    · rfl
  rw [hports] at h
  exact h

/-- BEGIN of a link that exists: a repeated one is answered and ignored, a first one writes (R155,
10_state.md R33). -/
theorem exec_begin_of_exists {s : State} {l : LinkId} (hl : LinkExists s l) (baud : Word) :
    exec (.begin l baud) s = if (s.link l).init then .next (answered s .ok 0)
      else finish (s.beginLink l baud) := by
  simp only [exec, execBegin, withLink_of_exists hl]
  rfl

/-- A lookup matches where a row has the baud (40_timing_delay.md R131). -/
theorem lookup_matched_iff (c : Config) (baud : Word) :
    (lookup c baud).matched = true ↔ ∃ row ∈ timingRom c, row.baud = baud := by
  rcases lookup_cases c baud with ⟨row, hrow, hbaud, heq⟩ | ⟨hnone, heq⟩ <;> rw [heq]
  · exact iff_of_true rfl ⟨row, hrow, hbaud⟩
  · exact iff_of_false Bool.false_ne_true fun ⟨row, hrow, hbaud⟩ => hnone row hrow hbaud

/-- The receive pin's bit is armed where a row matched and the pin can raise the interrupt, and no
other bit of any port changes (R155, R156). -/
theorem begunPorts_port {s : State} {k : Nat} {p : PortRegs} (hp : s.ports[k]? = some p)
    (l : LinkId) (baud : Word) (e : PinEntry) :
    ∃ q, (begunPorts s l baud e)[k]? = some q ∧ q = { p with pcmsk := q.pcmsk } ∧
      ∀ b, bitAt q.pcmsk b = true ↔ bitAt p.pcmsk b = true ∨
        ((∃ row ∈ timingRom s.cfg, row.baud = baud) ∧
          hasPcint s.cfg (s.link l).rxpin = true ∧ k = e.port ∧ b = e.bit) := by
  rw [← lookup_matched_iff]
  by_cases hm : ((lookup s.cfg baud).matched && hasPcint s.cfg (s.link l).rxpin) = true
  · rw [begunPorts, if_pos hm]
    obtain ⟨hmatched, hpcint⟩ := Bool.and_eq_true_iff.1 hm
    refine ⟨_, modify_port hp _ _, by split <;> rfl, fun b => ?_⟩
    rw [bitAt_port_changed (reg := PortRegs.pcmsk) (bitAt_arm p e.bit b)]
    simp [hmatched, hpcint, or_comm]
  · rw [begunPorts, if_neg hm]
    refine ⟨p, hp, rfl, fun b => ?_⟩
    exact (or_iff_left fun ⟨hmatched, hpcint, _⟩ =>
      hm (Bool.and_eq_true_iff.2 ⟨hmatched, hpcint⟩)).symm

/-! ### The outcomes of CREATE and BEGIN, seen from the command -/

/-- A CREATE that answers has responded only, or configured its link. -/
theorem CmdRun.create_cases {s t : State} {l : LinkId} {rx tx : PinId}
    (h : CmdRun (.create l rx tx) s t) : (∃ st r, t = s.respond st r) ∨
      ∃ ps, DriveOnly s.ports ps ∧ t = s.linkCreated l rx tx ps := by
  cases h with
  | answers st r => exact .inl ⟨st, r, rfl⟩
  | creates _ _ _ ps hi _ _ _ hps =>
    cases hi
    exact .inr ⟨ps, hps, rfl⟩
  | switches _ _ hi => rcases hi with hi | hi | hi | hi <;> cases hi
  | takes _ hi | flushes _ hi | delays _ hi | begins _ _ _ hi => cases hi
  | sends _ _ _ _ _ _ hi => rcases hi with ⟨hi, -⟩ | hi <;> cases hi

/-- A BEGIN that answers has responded only, or set its link's timing. -/
theorem CmdRun.begin_cases {s t : State} {l : LinkId} {baud : Word}
    (h : CmdRun (.begin l baud) s t) : (∃ st r, t = s.respond st r) ∨
      ∃ ps, ArmOnly s.ports ps ∧ t = s.linkBegun l baud ps := by
  cases h with
  | answers st r => exact .inl ⟨st, r, rfl⟩
  | begins _ _ ps hi _ _ hps =>
    cases hi
    exact .inr ⟨ps, hps, rfl⟩
  | switches _ _ hi => rcases hi with hi | hi | hi | hi <;> cases hi
  | takes _ hi | flushes _ hi | delays _ hi | creates _ _ _ _ hi => cases hi
  | sends _ _ _ _ _ _ hi => rcases hi with ⟨hi, -⟩ | hi <;> cases hi

/-- `t` is `s` but for what CREATE of link `l` may write: the link's pins and `EXISTS`, and
`PORT_OUT` and `PORT_DIR`. -/
structure CreateFrame (l : LinkId) (s t : State) : Prop where
  regs : t = { s with links := t.links, ports := t.ports, resp := t.resp, hostSt := .free }
  others : ∀ k, k ≠ l → t.link k = s.link k
  named : t.link l = { s.link l with exists_ := (t.link l).exists_, rxpin := (t.link l).rxpin,
                                     txpin := (t.link l).txpin }
  ports : DriveOnly s.ports t.ports

theorem CmdRun.createFrame {s t : State} {l : LinkId} {rx tx : PinId}
    (h : CmdRun (.create l rx tx) s t) : CreateFrame l s t := by
  rcases h.create_cases with ⟨st, r, rfl⟩ | ⟨ps, hps, rfl⟩
  · exact ⟨rfl, fun _ _ => rfl, rfl, rfl⟩
  · have hlink := linkCreated_link s l rx tx ps
    exact ⟨rfl, fun k hk => (hlink k).trans (if_neg hk), by rw [hlink, if_pos rfl], hps⟩

/-- `t` is `s` but for what BEGIN of link `l` may write: the link but its pins and `EXISTS`, the
registry, and `PCMSK`. -/
structure BeginFrame (l : LinkId) (s t : State) : Prop where
  regs : t = { s with links := t.links, active := t.active, head := t.head, tail := t.tail,
                      ports := t.ports, resp := t.resp, hostSt := .free }
  others : ∀ k, k ≠ l → t.link k = s.link k
  named : (t.link l).exists_ = (s.link l).exists_ ∧ (t.link l).rxpin = (s.link l).rxpin ∧
    (t.link l).txpin = (s.link l).txpin
  ports : ArmOnly s.ports t.ports

theorem CmdRun.beginFrame {s t : State} {l : LinkId} {baud : Word}
    (h : CmdRun (.begin l baud) s t) : BeginFrame l s t := by
  rcases h.begin_cases with ⟨st, r, rfl⟩ | ⟨ps, hps, rfl⟩
  · exact ⟨rfl, fun _ _ => rfl, ⟨rfl, rfl, rfl⟩, .refl _⟩
  · have hlink := linkBegun_link s l baud ps
    refine ⟨?_, fun k hk => (hlink k).trans (if_neg hk), ?_, ?_⟩
    · rw [linkBegun_active]
      exact linkBegun_eq s l baud ps
    · rw [hlink, if_pos rfl]
      exact ⟨rfl, rfl, rfl⟩
    · rw [linkBegun_ports]
      exact hps

end Sys2Proof.Machine

namespace Sys2Proof.Claims

open Sys2Proof Sys2Proof.Machine

/-- Settles O22: the checks in their order, then the writes, the two pins being different port
bits. -/
theorem createConfiguresLink : Obligations.CreateConfiguresLink := by
  intro s l rx tx
  rw [exec_create]
  refine ⟨fun hl => if_pos hl, fun hl hx => ?_, fun hl hx hpins => ?_,
    fun er et hc hports hl hx hr ht hne => ?_⟩
  · rw [if_neg (Nat.not_le.2 hl), if_pos hx]
  · rw [if_neg (Nat.not_le.2 hl), if_neg (Bool.eq_false_iff.1 hx), if_pos hpins]
  · have hpins : ¬ (pinEntry s.cfg rx = none ∨ pinEntry s.cfg tx = none ∨ rx = tx) := by
      simp [hr, ht, hne]
    have hbits : ¬ (er.port = et.port ∧ er.bit = et.bit) := fun ⟨hport, hbit⟩ =>
      hne (pinEntry_injective hc hr ht hport hbit)
    rw [if_neg (Nat.not_le.2 hl), if_neg (Bool.eq_false_iff.1 hx), if_neg hpins,
      createLink_eq hc hports l hr ht hne]
    exact ⟨_, rfl, rfl, linkCreated_link s l rx tx _, fun _ _ => createdPorts_port hbits⟩

/-- Settles O23: the frame of a link command, then a first BEGIN's writes with the constants of the
lookup (40_timing_delay.md R131). -/
theorem beginConfiguresTiming : Obligations.BeginConfiguresTiming := by
  intro s l baud
  refine ⟨fun hl => by rw [exec, execBegin, withLink_of_missing hl],
    fun hl hi => (exec_begin_of_exists hl baud).trans (if_pos hi), fun h hl hi => ?_⟩
  obtain ⟨e, he⟩ := pinMapped_iff.1 (h.rxpin (hasLink_iff.2 hl))
  have hexec : exec (.begin l baud) s = .next (s.linkBegun l baud (begunPorts s l baud e)) := by
    rw [exec_begin_of_exists hl, if_neg (Bool.eq_false_iff.1 hi),
      beginLink_eq h.cfgWF h.portCount baud he, finish_ok]
  have hself := (linkBegun_link s l baud (begunPorts s l baud e) l).trans (if_pos rfl)
  have hhead := linkBegun_head s l baud (begunPorts s l baud e)
  have htail := linkBegun_tail s l baud (begunPorts s l baud e)
  obtain ⟨hrow, hnone, -⟩ := lookupIsExactMatch s.cfg baud h.cfgWF
  refine ⟨_, e, hexec, he, linkBegun_eq s l baud _, ?_, fun row hr hb => ?_, fun hn => ?_,
    fun k hk => ?_, fun ha => ?_, fun ha => ?_, fun k p hp => ?_⟩
  · rw [hself]
    rfl
  · rw [hself, State.begunRegs, hrow row hr hb]
    exact ⟨rfl, rfl, rfl, rfl⟩
  · rw [hself, State.begunRegs, hnone hn]
    exact ⟨rfl, rfl, rfl, rfl⟩
  · exact (linkBegun_link s l baud _ k).trans (if_neg hk)
  · rw [hself, hhead, htail]
    exact ⟨if_pos ha, if_pos ha, if_pos ha⟩
  · rw [hself, hhead, htail]
    exact ⟨if_neg ha, if_neg ha, if_neg ha⟩
  · rw [linkBegun_ports]
    exact begunPorts_port hp l baud e

/-- Settles O49: the frames of CREATE's and of BEGIN's outcomes. -/
theorem linkConfigurationFrame : Obligations.LinkConfigurationFrame := by
  intro i l s t hi hexec
  have hrun := exec_run hexec
  rcases hi with ⟨rx, tx, rfl⟩ | ⟨baud, rfl⟩
  · obtain ⟨hregs, hothers, hnamed, hports⟩ := hrun.createFrame
    have hactive : t.active = s.active := by rw [hregs]
    have hhead : t.head = s.head := by rw [hregs]
    have htail : t.tail = s.tail := by rw [hregs]
    refine ⟨?_, hothers, fun a => congrArg (·.read a) hrun.rxbuf, fun k p hp => ?_,
      fun _ => ⟨hactive, hhead, htail, hnamed⟩, nofun⟩
    · rw [hactive, hhead, htail]
      exact hregs
    · obtain ⟨q, hq, he⟩ := hports.get hp
      rw [he] at hq
      exact ⟨_, hq, rfl, rfl, fun _ => rfl, nofun⟩
  · obtain ⟨hregs, hothers, hnamed, hports⟩ := hrun.beginFrame
    refine ⟨hregs, hothers, fun a => congrArg (·.read a) hrun.rxbuf, fun k p hp => ?_, nofun,
      fun _ => hnamed⟩
    obtain ⟨-, hk⟩ := hports k
    obtain ⟨m, hm, -⟩ := hk p hp
    exact ⟨_, hm, rfl, rfl, nofun, fun _ => ⟨rfl, rfl⟩⟩

end Sys2Proof.Claims
end

section
/-! PROOFS. The active-link registry (42_registry.md R170 to R175): what ACTIVATE and OVFL do, what
the registry and FIFO commands leave unchanged, and what a step can do to `ACTIVE` and the overflow
flags. -/

namespace Sys2Proof.Machine

open Sys2Proof.Claims

/-! ### ACTIVATE and OVFL of a link that exists (R170, R171, R173) -/

theorem exec_activate_of_exists {s : State} {l : LinkId} (hl : LinkExists s l) :
    exec (.activate l) s = .next ((s.activate l).1.respond .ok (boolWord (s.activate l).2)) := by
  rw [exec, execActivate, withLink_of_exists hl]

theorem exec_ovfl_of_exists {s : State} {l : LinkId} (hl : LinkExists s l) :
    exec (.ovfl l) s = .next (s.respond .ok (boolWord (s.link l).ovf)) := by
  rw [exec, execOvfl, withLink_of_exists hl]

/-- A switching activation and its response write the registry, the FIFO's indices and the link's
overflow flag (R170). -/
theorem install_switchedTo (s : State) (l : LinkId) (r : Word) :
    SwitchedTo s ((s.install l).respond .ok r) l r :=
  ⟨rfl, install_link s l⟩

/-! ### The frame of the registry and FIFO commands -/

/-- `t` is `s` but for what a registry or FIFO command of link `l` may write: `ACTIVE`, `HEAD`,
`TAIL` and the link's overflow flag (R170, 43_receive.md R201 to R203). -/
structure RegistryFrame (l : LinkId) (s t : State) : Prop where
  regs : t = { s with links := t.links, active := t.active, head := t.head, tail := t.tail,
                      resp := t.resp, hostSt := .free }
  others : ∀ k, k ≠ l → t.link k = s.link k
  named : t.link l = { s.link l with ovf := (t.link l).ovf }

/-- A change of the FIFO's indices, and a response, stay within the frame. -/
theorem RegistryFrame.setFifo (l : LinkId) (s : State) (hd tl : Nat) (st : Status) (r : Word) :
    RegistryFrame l s (({ s with head := hd, tail := tl } : State).respond st r) :=
  ⟨rfl, fun _ _ => rfl, rfl⟩

theorem RegistryFrame.install (l : LinkId) (s : State) (st : Status) (r : Word) :
    RegistryFrame l s ((s.install l).respond st r) where
  regs := rfl
  others k hk := (install_link s l k).trans (if_neg hk)
  named := by rw [respond_link, install_link, if_pos rfl]

theorem CmdRun.registryFrame {i : Instr} {s t : State} {l : LinkId} (h : CmdRun i s t)
    (hi : i = .activate l ∨ i = .ovfl l ∨ i = .read l ∨ i = .avail l ∨ i = .flush l) :
    RegistryFrame l s t := by
  cases h with
  | answers st r => exact .setFifo l s s.head s.tail st r
  | switches l' r hi' =>
    obtain rfl : l' = l := by
      rcases hi' with rfl | rfl | rfl | rfl <;> simpa using hi
    exact .install l' s .ok r
  | takes => exact .setFifo l s _ s.tail _ _
  | flushes => exact .setFifo l s 0 0 _ _
  | delays _ hi' | creates _ _ _ _ hi' | begins _ _ _ hi' =>
    subst hi'
    simp at hi
  | sends _ _ _ _ _ _ hi' => rcases hi' with ⟨rfl, -⟩ | rfl <;> simp at hi

/-- OVFL answers and does nothing else (R173). -/
theorem CmdRun.ovfl_answers {s t : State} {l : LinkId} (h : CmdRun (.ovfl l) s t) :
    ∃ st r, t = s.respond st r := by
  cases h with
  | answers st r => exact ⟨st, r, rfl⟩
  | switches _ _ hi => rcases hi with hi | hi | hi | hi <;> cases hi
  | takes _ hi | flushes _ hi | delays _ hi | creates _ _ _ _ hi | begins _ _ _ hi => cases hi
  | sends _ _ _ _ _ _ hi => rcases hi with ⟨hi, -⟩ | hi <;> cases hi

/-! ### What a step does to the registry (R170, R172, R175) -/

/-- `ACTIVE` and every overflow flag are the same. -/
def RegistryKept (s u : State) : Prop :=
  u.active = s.active ∧ ∀ k, (u.link k).ovf = (s.link k).ovf

/-- Link `l` is active, and its overflow flag is cleared where it was not before (R170). -/
def Activates (l : LinkId) (s u : State) : Prop :=
  u.active = some l ∧
  ∀ k, (u.link k).ovf = if s.active ≠ some l ∧ k = l then false else (s.link k).ovf

/-- The receive engine has returned after a commit that found the FIFO full, and has set the
overflow flag of the link it served (43_receive.md R195, R196). -/
def Overflows (s u : State) : Prop :=
  u.active = s.active ∧ s.nextSlot s.tail = s.head ∧ u.rxSt = .idle ∧
  ∀ k, (u.link k).ovf = if k = u.rxL then true else (s.link k).ovf

theorem activate_ovf (s : State) (l k : LinkId) : ((s.activate l).1.link k).ovf =
    if s.active ≠ some l ∧ k = l then false else (s.link k).ovf := by
  rw [activate_link, apply_ite LinkRegs.ovf]

theorem install_activates {s : State} {l : LinkId} (ha : s.active ≠ some l) :
    Activates l s (s.install l) := by
  have hact := activate_active s l
  have hovf := activate_ovf s l
  rw [activate_switch ha] at hact hovf
  exact ⟨hact, hovf⟩

theorem linkBegun_activates (s : State) (l : LinkId) (baud : Word) (ps : List PortRegs) :
    Activates l s (s.linkBegun l baud ps) := by
  refine ⟨linkBegun_active s l baud ps, fun k => ?_⟩
  rw [linkBegun_link, State.begunRegs]
  by_cases hk : k = l <;> simp [hk, ite_not]

theorem linkCreated_registryKept (s : State) (l : LinkId) (rx tx : PinId) (ps : List PortRegs) :
    RegistryKept s (s.linkCreated l rx tx ps) := by
  refine ⟨rfl, fun k => ?_⟩
  rw [linkCreated_link]
  split
  · subst k
    rfl
  · rfl

theorem RxRun.registry {s u : State} (h : RxRun s u) :
    RegistryKept s u ∨ u.rxL = s.rxL ∧ Overflows s u := by
  cases h with
  | waits | stored => exact .inl ⟨rfl, fun _ => rfl⟩
  | dropped i d hfull =>
    refine .inr ⟨rfl, rfl, hfull, rfl, fun k => ?_⟩
    change ((s.setOvf s.rxL true).link k).ovf = if k = s.rxL then true else (s.link k).ovf
    rw [setOvf_link, apply_ite LinkRegs.ovf]

theorem TxRun.registryKept {s u : State} (h : TxRun s u) : RegistryKept s u := by
  obtain ⟨-, -, -, -, -, hactive, -⟩ := h.same
  exact ⟨hactive, fun k => congrArg LinkRegs.ovf (h.link k)⟩

/-- A frame start is an activation (44_transmit.md R231), and the transmit engine's run in its tick
leaves the registry. -/
theorem TxRun.activates {s u : State} {l : LinkId} {v : Byte} (h : TxRun (s.loadFrame l v) u) :
    Activates l s u := by
  obtain ⟨hactive, hovf⟩ := h.registryKept
  exact ⟨hactive.trans (loadFrame_active s l v), fun k => (hovf k).trans (activate_ovf s l k)⟩

/-- A command leaves the registry or activates a link: none deactivates (R172). -/
theorem CmdRun.registry {i : Instr} {s u : State} (h : CmdRun i s u) :
    RegistryKept s u ∨ ∃ l, Activates l s u := by
  cases h with
  | answers | takes | flushes | delays => exact .inl ⟨rfl, fun _ => rfl⟩
  | creates l rx tx ps => exact .inl (linkCreated_registryKept s l rx tx ps)
  | switches l _ _ _ ha => exact .inr ⟨l, install_activates ha⟩
  | begins l baud ps => exact .inr ⟨l, linkBegun_activates s l baud ps⟩
  | sends l _ _ _ _ _ _ hu => exact .inr ⟨l, hu.activates⟩

/-- An agent step leaves the registry, activates a link, or overflows the link that the receive
engine serves: the one it was running for, or the active one it was dispatched to. -/
theorem AgentStep.registry {p u : State} (h : AgentStep p u) :
    RegistryKept p u ∨ (∃ l, Activates l p u) ∨
      (p.rxSt ≠ .idle ∧ u.rxL = p.rxL ∨ p.active = some u.rxL) ∧ Overflows p u := by
  cases h with
  | rxReturn | unserved | enters | spurious | counts | delayEnds | idles | rejects =>
    exact .inl ⟨rfl, fun _ => rfl⟩
  | rx hr _ _ hu =>
    exact hu.registry.imp_right fun ⟨hserves, ho⟩ => .inr ⟨.inl ⟨hr, hserves⟩, ho⟩
  | starts _ _ _ _ l ha _ hu =>
    exact hu.registry.imp_right fun ⟨hserves, ho⟩ =>
      .inr ⟨.inr (ha.trans (congrArg some hserves.symm)), ho⟩
  | tx _ _ _ _ hu => exact .inl hu.registryKept
  | nextFrame _ _ _ _ _ _ _ _ hu => exact .inr (.inl ⟨p.wnL, hu.activates⟩)
  | accepts _ _ _ _ _ _ _ _ _ _ _ _ hu => exact hu.registry.imp_right .inl

/-- What an agent step does to the overflow flag of link `k`: it keeps it, clears it where `k`
becomes the active link, or sets it where the receive engine, which serves the active link,
overflows. -/
theorem AgentStep.ovf {p u : State} (h : AgentStep p u) (hi : p.Inv) (k : LinkId) :
    (u.link k).ovf = (p.link k).ovf ∨
    ((u.link k).ovf = false ∧ p.active ≠ some k ∧ u.active = some k) ∨
    ((u.link k).ovf = true ∧ u.active = some k ∧ p.nextSlot p.tail = p.head ∧ u.rxSt = .idle ∧
      u.rxL = k) := by
  rcases h.registry with ⟨-, hovf⟩ | ⟨l, hact, hovf⟩ | ⟨hserves, hact, hfull, hidle, hovf⟩
  · exact .inl (hovf k)
  · have hk := hovf k
    split at hk
    · rename_i hswitch
      obtain ⟨hother, rfl⟩ := hswitch
      exact .inr (.inl ⟨hk, hother, hact⟩)
    · exact .inl hk
  · have hserved : p.active = some u.rxL := by
      rcases hserves with ⟨hr, hl⟩ | ha
      · rw [hl]
        exact hi.rxServes hr
      · exact ha
    have hk := hovf k
    split at hk
    · subst k
      exact .inr (.inr ⟨hk, hact.trans hserved, hfull, hidle, rfl⟩)
    · exact .inl hk

end Sys2Proof.Machine

namespace Sys2Proof.Claims

open Sys2Proof Sys2Proof.Machine

/-- Settles O24: the two outcomes of `Activate`, in a link command's frame. -/
theorem activateSwitchesOrKeeps : Obligations.ActivateSwitchesOrKeeps := by
  intro s l
  refine ⟨fun hl => by rw [exec, execActivate, withLink_of_missing hl], fun hl ha => ?_,
    fun hl ha => ?_⟩
  · rw [exec_activate_of_exists hl, activate_same ha]
    rfl
  · rw [exec_activate_of_exists hl, activate_switch ha]
    exact ⟨_, rfl, install_switchedTo s l 1⟩

/-- Settles O25: OVFL's response is all it does. -/
theorem ovflReadsWithoutClearing : Obligations.OvflReadsWithoutClearing :=
  fun _ _ => ⟨fun hl => by rw [exec, execOvfl, withLink_of_missing hl], exec_ovfl_of_exists⟩

/-- Settles O26: a step keeps `ACTIVE` or makes a link active. -/
theorem activeNeverReturnsToNone : Obligations.ActiveNeverReturnsToNone := by
  intro s t h hs
  obtain ⟨-, u, hu, rfl⟩ := step_cases h
  rcases hu.registry with ⟨hkept, -⟩ | ⟨l, hact, -⟩ | ⟨-, hkept, -⟩
  · exact fun hn => hs (hkept.symm.trans hn)
  · exact fun hn => Option.some_ne_none l (hact.symm.trans hn)
  · exact fun hn => hs (hkept.symm.trans hn)

/-- Settles O27: neither phase 1 nor the end of the tick writes a flag, and an agent step changes
one only by a switching activation or by an overflow. -/
theorem overflowFlagIsSticky : Obligations.OverflowFlagIsSticky := by
  intro s t h hstep l
  obtain ⟨-, u, hu, rfl⟩ := step_cases hstep
  rcases hu.ovf h.phase1 l with hsame | ⟨hclear, hswitch⟩ | ⟨hset, hoverflow⟩
  · exact ⟨fun hset hclear => absurd (hclear.symm.trans (hsame.symm.trans hset)) Bool.false_ne_true,
      fun hclear hset => absurd (hclear.symm.trans (hsame.trans hset)) Bool.false_ne_true⟩
  · exact ⟨fun hset => absurd (hclear.symm.trans hset) Bool.false_ne_true, fun _ _ => hswitch⟩
  · exact ⟨fun _ _ => hoverflow, fun hclear => absurd (hclear.symm.trans hset) Bool.false_ne_true⟩

/-- Settles O48: the frames of the commands' outcomes; OVFL has but one. -/
theorem registryAndFifoCommandsFrame : Obligations.RegistryAndFifoCommandsFrame := by
  intro i l s t hi hexec
  have hrun := exec_run hexec
  obtain ⟨hregs, hothers, hnamed⟩ := hrun.registryFrame hi
  refine ⟨hregs, hothers, hnamed, fun hovfl => ?_, fun a => congrArg (·.read a) hrun.rxbuf⟩
  subst hovfl
  obtain ⟨st, r, rfl⟩ := hrun.ovfl_answers
  exact ⟨rfl, rfl, rfl, rfl⟩

end Sys2Proof.Claims
end

section
/-! PROOFS. The receive FIFO's commands (43_receive.md R201 to R203): what READ, AVAIL and FLUSH do
with a link that does not exist, one that is not active, and the active one. -/

namespace Sys2Proof.Machine

open Sys2Proof.Claims

/-! ### READ, AVAIL and FLUSH by their cases

READ and AVAIL of the active link are `exec_read_empty`, `exec_read_takes` and `exec_avail_active`
above. -/

theorem exec_read_switches {s : State} {l : LinkId} (hl : LinkExists s l) (ha : s.active ≠ some l) :
    exec (.read l) s = .next ((s.install l).respond .ok noByte) := by
  simp [exec, execRead, withLink_of_exists hl, activate_switch ha]

theorem exec_avail_switches {s : State} {l : LinkId} (hl : LinkExists s l) (ha : s.active ≠ some l) :
    exec (.avail l) s = .next ((s.install l).respond .ok 0) := by
  simp [exec, execAvail, withLink_of_exists hl, activate_switch ha]

theorem exec_flush_switches {s : State} {l : LinkId} (hl : LinkExists s l) (ha : s.active ≠ some l) :
    exec (.flush l) s = .next ((s.install l).respond .ok 0) := by
  simp [exec, execFlush, withLink_of_exists hl, activate_switch ha]

/-- FLUSH of the active link writes the indices alone, its overflow flag is kept (R203). -/
theorem exec_flush_active {s : State} {l : LinkId} (hl : LinkExists s l) (ha : s.active = some l) :
    exec (.flush l) s = .next (({ s with head := 0, tail := 0 } : State).respond .ok 0) := by
  rw [exec, execFlush, withLink_of_exists hl, activate_same ha]
  rfl

/-- A count that fits the result word is the result (R202). -/
theorem countWord_toNat {n : Nat} (h : n < 2 ^ 32) : (countWord n).toNat = n := by
  rw [countWord, if_pos h, BitVec.toNat_ofNat, Nat.mod_eq_of_lt h]

end Sys2Proof.Machine

namespace Sys2Proof.Claims

open Sys2Proof Sys2Proof.Machine

/-- Settles O28: READ's four outcomes. -/
theorem readTakesTheOldestByte : Obligations.ReadTakesTheOldestByte := fun s l =>
  ⟨fun hl => by rw [exec, execRead, withLink_of_missing hl],
    fun hl ha => ⟨_, exec_read_switches hl ha, install_switchedTo s l _⟩,
    exec_read_empty, exec_read_takes⟩

/-- Settles O29: AVAIL's three outcomes. -/
theorem availCountsTheFifo : Obligations.AvailCountsTheFifo := fun s l =>
  ⟨fun hl => by rw [exec, execAvail, withLink_of_missing hl],
    fun hl ha => ⟨_, exec_avail_switches hl ha, install_switchedTo s l 0⟩,
    fun hl ha => ⟨_, exec_avail_active hl ha, countWord_toNat⟩⟩

/-- Settles O30: FLUSH's three outcomes. -/
theorem flushEmptiesTheFifo : Obligations.FlushEmptiesTheFifo := fun s l =>
  ⟨fun hl => by rw [exec, execFlush, withLink_of_missing hl],
    exec_flush_active,
    fun hl ha => ⟨_, exec_flush_switches hl ha, install_switchedTo s l 0⟩⟩

end Sys2Proof.Claims
end

section
/-! PROOFS. The receive engine's expiry actions (43_receive.md R191 to R195), each in the tick that
ends its wait. -/

namespace Sys2Proof.Machine

open Sys2Proof.Claims

/-! ### The tick that ends a wait (40_timing_delay.md R134, R135) -/

/-- The state on which the expiry action of the next tick runs, where that tick ends a wait: the
lines are sampled and no tick is left to count. -/
def State.expiring (s : State) : State := { s.phase1 with dly := 0 }

/-- The tick that ends a wait is the expiry action's (R135). -/
theorem step_rx_last {s : State} (hc : s.cfg.WF) (hr : s.rxSt ≠ .idle) (hd : s.dly = 1) :
    step s = ticked (finish s.expiring.rxExpire) := by
  rw [step_eq_ticked hc, phase2_rx (p := s.phase1) hr, rxAdvance_last (p := s.phase1) hd]
  rfl

theorem step_of_rxExpire {s u : State} (hc : s.cfg.WF) (hr : s.rxSt ≠ .idle) (hd : s.dly = 1)
    (h : s.expiring.rxExpire = .ok u) : step s = .next u.endTick := by
  rw [step_rx_last hc hr hd, h]
  rfl

theorem rxExpire_entry {p : State} (h : p.rxSt = .entry) : p.rxExpire = p.rxEntryExpire := by
  rw [State.rxExpire, h]

theorem rxExpire_center {p : State} (h : p.rxSt = .center) : p.rxExpire = p.rxCenterExpire := by
  rw [State.rxExpire, h]

theorem rxExpire_bit {p : State} (h : p.rxSt = .bit) :
    p.rxExpire = p.rxBitExpire (7 - p.rxI.val) := by
  rw [State.rxExpire, h]

theorem rxExpire_stop {p : State} (h : p.rxSt = .stop) : p.rxExpire = p.rxStopExpire := by
  rw [State.rxExpire, h]

/-! ### The expiry actions by their cases (43_receive.md R191 to R195) -/

/-- The line check of a line that is not low (R191). -/
theorem rxEntryExpire_high {p : State} (h : p.pinRead (p.link p.rxL).rxpin = .ok true) :
    p.rxEntryExpire = .ok p.returnFromInterrupt := by
  rw [State.rxEntryExpire, h]
  rfl

/-- The line check of a low line (R191). -/
theorem rxEntryExpire_low {p : State} (h : p.pinRead (p.link p.rxL).rxpin = .ok false) :
    p.rxEntryExpire =
      State.rxWait .center (p.rxCenterTicks p.rxL) State.rxCenterExpire { p with rxD := 0 } := by
  rw [State.rxEntryExpire, h]
  rfl

/-- The sample of a data bit with bits left after it (R193). -/
theorem rxBitExpire_more {p : State} {v : Bool} (h : p.pinRead (p.link p.rxL).rxpin = .ok v)
    (n : Nat) : p.rxBitExpire (n + 1) = State.rxWait .bit (p.rxBitTicks p.rxL) (State.rxBitExpire n)
      { p.rxSample v with rxI := p.rxI + 1 } := by
  rw [State.rxBitExpire, h]
  rfl

/-- The sample of the last data bit (R193). -/
theorem rxBitExpire_last {p : State} {v : Bool} (h : p.pinRead (p.link p.rxL).rxpin = .ok v) :
    p.rxBitExpire 0 =
      State.rxWait .stop (p.rxStopTicks p.rxL) State.rxStopExpire (p.rxSample v) := by
  rw [State.rxBitExpire, h]
  rfl

/-- A level ORed into bit `i` of a byte, the other seven bits kept (R193). -/
theorem getLsbD_or_level (d : Byte) (i j : Fin 8) (v : Bool) :
    (d ||| ((if v then 1#8 else 0#8) <<< i.val)).getLsbD j.val =
      (d.getLsbD j.val || (decide (j = i) && v)) := by
  cases v with
  | false => simp
  | true =>
    change (d ||| maskOf i).getLsbD j.val = _
    rw [maskOf_eq, BitVec.getLsbD_or, BitVec.getLsbD_twoPow]
    simp [Fin.ext_iff, eq_comm]

/-- The commit with room, and the return (R194, R195). -/
theorem rxStopExpire_room {p : State} (hroom : p.nextSlot p.tail ≠ p.head)
    (hslot : p.tail < p.cfg.rxBufSize) :
    p.rxStopExpire = .ok (p.pushed p.rxD).returnFromInterrupt := by
  rw [State.rxStopExpire, rxCommit_room hroom hslot]
  rfl

/-- The commit without room, and the return (R194, R196). -/
theorem rxStopExpire_full {p : State} (hfull : p.nextSlot p.tail = p.head) :
    p.rxStopExpire = .ok (p.setOvf p.rxL true).returnFromInterrupt := by
  rw [State.rxStopExpire, rxCommit_full hfull]
  rfl

/-- `setOvf_link` with each link's own registers on the right. -/
theorem setOvf_link_self (s : State) (l k : LinkId) :
    (s.setOvf l true).link k = if k = l then { s.link k with ovf := true } else s.link k := by
  rw [setOvf_link]
  split
  · rename_i h
    rw [h]
  · rfl

/-- The served link's line can be read after phase 1 (41_pins_links.md R151). -/
theorem State.Inv.rxLine {s : State} (h : s.Inv) (hr : s.rxSt ≠ .idle) :
    ∃ v, s.phase1.pinRead (s.link s.rxL).rxpin = .ok v :=
  have hi := h.phase1
  pinRead_total hi.cfgWF hi.portCount (hi.rxpin (hi.activeExists _ (hi.rxServes hr)))

end Sys2Proof.Machine

namespace Sys2Proof.Claims

open Sys2Proof Sys2Proof.Machine

/-- Settles O34: the two outcomes of the line check. -/
theorem lineCheckSortsSpuriousEdges : Obligations.LineCheckSortsSpuriousEdges := by
  intro s h hst hd
  have hr : s.rxSt ≠ .idle := by simp [hst]
  obtain ⟨v, hv⟩ := h.rxLine hr
  have hexpire : s.expiring.rxExpire = s.expiring.rxEntryExpire := rxExpire_entry hst
  refine ⟨v, hv, fun hhigh => ?_,
    fun hlow (hpos : 0 < s.expiring.rxCenterTicks s.expiring.rxL) => ?_⟩
  · subst hhigh
    rw [rxEntryExpire_high (p := s.expiring) hv] at hexpire
    exact step_of_rxExpire h.cfgWF hr hd hexpire
  · subst hlow
    rw [rxEntryExpire_low (p := s.expiring) hv, rxWait_pos hpos] at hexpire
    exact step_of_rxExpire h.cfgWF hr hd hexpire

/-- Settles O35: the centering point, a bit with bits left after it, and the last bit. -/
theorem bitsAreSampledLsbFirst : Obligations.BitsAreSampledLsbFirst := by
  intro s h hd
  refine ⟨fun hst (hpos : 0 < s.expiring.rxBitTicks s.expiring.rxL) => ?_, fun hst => ?_⟩
  · have hexpire : s.expiring.rxExpire = s.expiring.rxCenterExpire := rxExpire_center hst
    rw [State.rxCenterExpire, rxWait_pos hpos] at hexpire
    exact step_of_rxExpire h.cfgWF (by simp [hst]) hd hexpire
  · have hr : s.rxSt ≠ .idle := by simp [hst]
    obtain ⟨v, hv⟩ := h.rxLine hr
    have hexpire : s.expiring.rxExpire = s.expiring.rxBitExpire (7 - s.rxI.val) :=
      rxExpire_bit hst
    refine ⟨v, (s.expiring.rxSample v).rxD, hv, fun j => getLsbD_or_level s.rxD s.rxI j v,
      fun hmore (hpos : 0 < s.expiring.rxBitTicks s.expiring.rxL) => ?_,
      fun hlast (hpos : 0 < s.expiring.rxStopTicks s.expiring.rxL) => ?_⟩
    · rw [show 7 - s.rxI.val = (6 - s.rxI.val) + 1 by omega,
        rxBitExpire_more (p := s.expiring) hv, rxWait_pos hpos] at hexpire
      exact step_of_rxExpire h.cfgWF hr hd hexpire
    · rw [show 7 - s.rxI.val = 0 by rw [hlast]; rfl, rxBitExpire_last (p := s.expiring) hv,
        rxWait_pos hpos] at hexpire
      exact step_of_rxExpire h.cfgWF hr hd hexpire

/-- Settles O36: the two outcomes of the commit. -/
theorem commitStoresOrDrops : Obligations.CommitStoresOrDrops := by
  intro s h hst hd
  have hr : s.rxSt ≠ .idle := by simp [hst]
  have hexpire : s.expiring.rxExpire = s.expiring.rxStopExpire := rxExpire_stop hst
  refine ⟨fun hroom => ?_, fun hfull => ?_⟩
  · rw [rxStopExpire_room (p := s.expiring) hroom h.tailLt] at hexpire
    exact ⟨_, step_of_rxExpire h.cfgWF hr hd hexpire, read_write h.ramWF _ _⟩
  · rw [rxStopExpire_full (p := s.expiring) hfull] at hexpire
    exact ⟨_, step_of_rxExpire h.cfgWF hr hd hexpire, rfl, setOvf_link_self s s.rxL⟩

end Sys2Proof.Claims
end

section
/-! PROOFS. A received frame from its dispatch to its commit (43_receive.md R191 to R198): the
engine's waits add up to the sample instants, whatever of them is 0 ticks. -/

namespace Sys2Proof.Machine

open Sys2Proof.Claims

/-! ### The lines of the coming ticks, while nothing drives a port (41_pins_links.md R153) -/

/-- The ports as phase 1 leaves them in the `j`-th tick from `s` on, the next tick being the
0-th. -/
def State.linePorts (s : State) : Nat → List PortRegs
  | 0 => s.phase1.ports
  | j + 1 =>
    samplePorts (envLevel (s.t + (j + 1)) ((s.env.drop (j + 1)).headD [])) 0 (s.linePorts j)

theorem headD_drop (env : List (List Byte)) (j : Nat) : (env.drop j).headD [] = env.getD j [] := by
  rw [List.headD_eq_head?_getD, List.head?_drop, List.getD_eq_getElem?_getD]

theorem linePorts_port {s : State} {k : Nat} {r : PortRegs} (h : s.ports[k]? = some r) (j : Nat) :
    ∃ v, (s.linePorts j)[k]? =
      some { r with prev := v, inp := r.sampled (envLevel (s.t + j) (s.env.getD j []) k) } := by
  rw [← headD_drop]
  induction j with
  | zero => exact ⟨r.inp, phase1_port h⟩
  | succ j ih =>
    obtain ⟨v, hv⟩ := ih
    refine ⟨r.sampled (envLevel (s.t + j) ((s.env.drop j).headD []) k), ?_⟩
    rw [State.linePorts, samplePorts_getElem?, hv, Nat.zero_add]
    rfl

/-! ### The states of a frame -/

/-- `p` is what `s` has become in phase 2 of the `j`-th tick from `s` on, where link `l` has been
served since the 0-th: the lines have gone on, the receive engine has `RX_I = i` and `RX_D = d`, and
nothing else has changed but `PEND`, `RX_ST` and `DLY`. -/
def InFrame (s : State) (l : LinkId) (j : Nat) (i : Fin 8) (d : Byte) (p : State) : Prop :=
  ∃ pd st n, p = { s with
    t := s.t + j, ports := s.linePorts j, env := s.env.drop (j + 1), resp := none, ie := false,
    pend := pd, rxL := l, rxI := i, rxD := d, rxSt := st, dly := n }

section

variable {s p : State} {l : LinkId} {e : PinEntry} {j : Nat} {i : Fin 8} {d : Byte}

/-- The frame's states differ in what a wait writes. -/
theorem InFrame.wait (h : InFrame s l j i d p) (st : RxSt) (n : Nat) :
    InFrame s l j i d { p with rxSt := st, dly := n } := by
  obtain ⟨pd, st', n', rfl⟩ := h
  exact ⟨pd, st, n, rfl⟩

theorem InFrame.setRxI (h : InFrame s l j i d p) (i' : Fin 8) :
    InFrame s l j i' d { p with rxI := i' } := by
  obtain ⟨pd, st, n, rfl⟩ := h
  exact ⟨pd, st, n, rfl⟩

theorem InFrame.setRxD (h : InFrame s l j i d p) (d' : Byte) :
    InFrame s l j i d' { p with rxD := d' } := by
  obtain ⟨pd, st, n, rfl⟩ := h
  exact ⟨pd, st, n, rfl⟩

theorem InFrame.nextTick (h : InFrame s l j i d p) : InFrame s l (j + 1) i d p.endTick.phase1 := by
  obtain ⟨pd, st, n, hp⟩ := h
  refine ⟨p.endTick.phase1.pend, st, n, ?_⟩
  rw [← List.tail_drop, hp]
  rfl

theorem InFrame.cfg (h : InFrame s l j i d p) : p.cfg = s.cfg := by
  obtain ⟨pd, st, n, rfl⟩ := h
  rfl

theorem InFrame.ports (h : InFrame s l j i d p) : p.ports = s.linePorts j := by
  obtain ⟨pd, st, n, rfl⟩ := h
  rfl

theorem InFrame.rxI (h : InFrame s l j i d p) : p.rxI = i := by
  obtain ⟨pd, st, n, rfl⟩ := h
  rfl

theorem InFrame.served (h : InFrame s l j i d p) : p.link p.rxL = s.link l := by
  obtain ⟨pd, st, n, rfl⟩ := h
  rfl

/-- The served link's line in a tick of the frame. -/
theorem InFrame.line (h : InFrame s l j i d p) (hi : s.Inv)
    (he : pinEntry s.cfg (s.link l).rxpin = some e) :
    p.pinRead (p.link p.rxL).rxpin = .ok (lineLevel s e j) := by
  have hlt : e.port < s.ports.length := hi.portCount ▸ pinEntry_port hi.cfgWF he
  have hr : s.ports[e.port]? = some s.ports[e.port] := List.getElem?_eq_getElem hlt
  obtain ⟨v, hv⟩ := linePorts_port hr j
  rw [← h.ports] at hv
  rw [← h.cfg] at he
  rw [h.served, pinRead_eq he hv, lineLevel, hr, bitAt_sampled]

/-! ### The engine's actions in their ticks -/

/-- In the `j`-th tick from `s` on the receive engine performs the action `act`, on a state of the
frame with `RX_I = i` and `RX_D = d`. -/
def ActsAt (s : State) (l : LinkId) (j : Nat) (i : Fin 8) (d : Byte)
    (act : State → Except Fault State) : Prop :=
  ∃ u p, s.RunsTo j u ∧ InFrame s l j i d p ∧ step u = ticked (finish (act p))

variable {act act' expire : State → Except Fault State}

/-- An action that is another one after a change of `RX_I` and `RX_D`. -/
theorem ActsAt.becomes {i' : Fin 8} {d' : Byte} (h : ActsAt s l j i d act)
    (hact : ∀ p, InFrame s l j i d p → ∃ p', InFrame s l j i' d' p' ∧ act p = act' p') :
    ActsAt s l j i' d' act' := by
  obtain ⟨u, p, hrun, hp, hstep⟩ := h
  obtain ⟨p', hp', heq⟩ := hact p hp
  exact ⟨u, p', hrun, hp', heq ▸ hstep⟩

/-- An action that answers a state ends its tick with it. -/
theorem ActsAt.ends (h : ActsAt s l j i d act) :
    ∃ p, InFrame s l j i d p ∧ ∀ r, act p = .ok r → s.RunsTo (j + 1) r.endTick := by
  obtain ⟨u, p, hrun, hp, hstep⟩ := h
  refine ⟨p, hp, fun r hr => runsTo_snoc hrun ?_⟩
  rw [hstep, hr]
  rfl

/-- A wait of `m + 1` ticks counts down to its last one in `m` ticks. -/
theorem InFrame.counts (hc : s.cfg.WF) (m : Nat) (h : InFrame s l j i d p) (hst : p.rxSt ≠ .idle)
    (hd : p.dly = m + 1) : ∃ q, p.endTick.RunsTo m q.endTick ∧ InFrame s l (j + m) i d q ∧
      q.rxSt = p.rxSt ∧ q.dly = 1 := by
  induction m generalizing j p with
  | zero => exact ⟨p, runsTo_zero.2 rfl, h, rfl, hd⟩
  | succ m ih =>
    have hcfg : p.endTick.cfg.WF := h.cfg ▸ hc
    have hstep : step p.endTick =
        .next ({ p.endTick.phase1 with dly := m + 1 } : State).endTick := by
      refine step_next hcfg ?_
      rw [phase2_rx (p := p.endTick.phase1) hst, rxAdvance_count (p := p.endTick.phase1) hd]
      rfl
    obtain ⟨q, hrun, hq, hqst, hqd⟩ := ih (h.nextTick.wait p.rxSt (m + 1)) hst rfl
    refine ⟨q, runsTo_succ.2 ⟨_, hstep, hrun⟩, ?_, hqst, hqd⟩
    rwa [show j + (m + 1) = j + 1 + m by omega]

/-- After a wait of `k` ticks, 0 of them included, its expiry action runs (40_timing_delay.md
R134). -/
theorem ActsAt.wait (hc : s.cfg.WF) {st : RxSt} {k : Nat} (hst : st ≠ .idle)
    (hexpire : ∀ p : State, p.rxSt = st → p.rxI = i → p.rxExpire = expire p)
    (h : ActsAt s l j i d (State.rxWait st k expire)) : ActsAt s l (j + k) i d expire := by
  obtain ⟨u, p, hrun, hp, hstep⟩ := h
  match k with
  | 0 =>
    rw [rxWait_zero] at hstep
    exact ⟨u, _, hrun, hp.wait st p.dly, hstep⟩
  | m + 1 =>
    rw [rxWait_pos (Nat.succ_pos m)] at hstep
    obtain ⟨q, hcount, hq, hqst, hqd⟩ := (hp.wait st (m + 1)).counts hc m hst rfl
    have hcfg : q.endTick.cfg.WF := hq.cfg ▸ hc
    have hlast : q.endTick.expiring.rxExpire = expire q.endTick.expiring :=
      hexpire _ hqst hq.rxI
    refine ⟨q.endTick, q.endTick.expiring, ?_, hq.nextTick.wait q.rxSt 0, ?_⟩
    · rw [show j + (m + 1) = j + 1 + m by omega]
      exact runsTo_trans (runsTo_snoc hrun hstep) hcount
    · rw [← hlast]
      exact step_rx_last hcfg (hqst ▸ hst) hqd

/-! ### The frame, action by action (43_receive.md R191 to R195) -/

/-- The line check of a low line waits the centering delay and clears `RX_D` (R191). -/
theorem ActsAt.center (hi : s.Inv) (he : pinEntry s.cfg (s.link l).rxpin = some e)
    (hlow : lineLevel s e j = false) (h : ActsAt s l j i d State.rxEntryExpire) :
    ActsAt s l (j + s.rxCenterTicks l) i 0 State.rxCenterExpire := by
  refine .wait hi.cfgWF (st := .center) (by decide) (fun _ hst _ => rxExpire_center hst)
    (h.becomes fun p hp => ⟨{ p with rxD := 0 }, hp.setRxD 0, ?_⟩)
  rw [rxEntryExpire_low (hlow ▸ hp.line hi he)]
  obtain ⟨pd, st, n, rfl⟩ := hp
  rfl

/-- The centering point waits for the first bit (R192). -/
theorem ActsAt.firstBit (hi : s.Inv) (h : ActsAt s l j i d State.rxCenterExpire) :
    ActsAt s l (j + s.rxBitTicks l) 0 d (State.rxBitExpire 7) := by
  refine .wait hi.cfgWF (st := .bit) (by decide) (fun p hst hp => ?_)
    (h.becomes fun p hp => ⟨{ p with rxI := 0 }, hp.setRxI 0, ?_⟩)
  · rw [rxExpire_bit hst, hp]
    rfl
  · obtain ⟨pd, st, n, rfl⟩ := hp
    rfl

/-- `d` with the level of the line in the `j`-th tick ORed into bit `i` (R193). -/
def sampledAt (s : State) (e : PinEntry) (j i : Nat) (d : Byte) : Byte :=
  d ||| ((if lineLevel s e j then 1#8 else 0#8) <<< i)

/-- A bit's expiry with `m + 1` bits left samples it and waits for the next (R193). -/
theorem ActsAt.nextBit (hi : s.Inv) (he : pinEntry s.cfg (s.link l).rxpin = some e) {m : Nat}
    {i' : Fin 8} (hi' : i' = i + 1) (hm : 7 - i'.val = m)
    (h : ActsAt s l j i d (State.rxBitExpire (m + 1))) :
    ActsAt s l (j + s.rxBitTicks l) i' (sampledAt s e j i.val d) (State.rxBitExpire m) := by
  refine .wait hi.cfgWF (st := .bit) (by decide) (fun p hst hp => ?_)
    (h.becomes fun p hp =>
      ⟨{ p with rxI := i', rxD := sampledAt s e j i.val d }, (hp.setRxI i').setRxD _, ?_⟩)
  · rw [rxExpire_bit hst, hp, hm]
  · rw [rxBitExpire_more (hp.line hi he), hi']
    obtain ⟨pd, st, n, rfl⟩ := hp
    rfl

/-- The last bit's expiry samples it and waits the stop delay (R193). -/
theorem ActsAt.stop (hi : s.Inv) (he : pinEntry s.cfg (s.link l).rxpin = some e)
    (h : ActsAt s l j i d (State.rxBitExpire 0)) :
    ActsAt s l (j + s.rxStopTicks l) i (sampledAt s e j i.val d) State.rxStopExpire := by
  refine .wait hi.cfgWF (st := .stop) (by decide) (fun _ hst _ => rxExpire_stop hst)
    (h.becomes fun p hp => ⟨{ p with rxD := sampledAt s e j i.val d }, hp.setRxD _, ?_⟩)
  rw [rxBitExpire_last (hp.line hi he)]
  obtain ⟨pd, st, n, rfl⟩ := hp
  rfl

/-- The first `k` data bits of a frame whose bit 0 is sampled in the `j`-th tick and whose bit
period is `b`. -/
def bitsSampled (s : State) (e : PinEntry) (j b : Nat) : Nat → Byte
  | 0 => 0
  | k + 1 => sampledAt s e (j + k * b) k (bitsSampled s e j b k)

theorem bitsSampled_getLsbD (s : State) (e : PinEntry) (j b : Nat) {k : Nat} (hk : k ≤ 8)
    (i : Fin 8) : (bitsSampled s e j b k).getLsbD i.val =
      (decide (i.val < k) && lineLevel s e (j + i.val * b)) := by
  induction k with
  | zero => simp [bitsSampled]
  | succ k ih =>
    have hbit := getLsbD_or_level (bitsSampled s e j b k) ⟨k, hk⟩ i (lineLevel s e (j + k * b))
    rw [bitsSampled, sampledAt, hbit, ih (by omega)]
    by_cases hik : i.val = k
    · simp [Fin.ext_iff, hik]
    · simp [Fin.ext_iff, hik, show i.val < k + 1 ↔ i.val < k by omega]

/-- Bit `i` of the byte is the line's level `i + 1` bit periods after the centering point (R198). -/
theorem bitsSampled_instants (s : State) (e : PinEntry) (j b : Nat) (i : Fin 8) :
    (bitsSampled s e (j + b) b 8).getLsbD i.val = lineLevel s e (j + (i.val + 1) * b) := by
  rw [bitsSampled_getLsbD s e _ b (le_refl 8), decide_eq_true i.isLt, Bool.true_and,
    show j + b + i.val * b = j + (i.val + 1) * b by ring]

/-- The data bits are sampled one bit period apart, LSB first (R193). -/
theorem ActsAt.bits (hi : s.Inv) (he : pinEntry s.cfg (s.link l).rxpin = some e)
    (h : ActsAt s l j 0 0 (State.rxBitExpire 7)) {k : Nat} (hk : k < 8) :
    ActsAt s l (j + k * s.rxBitTicks l) ⟨k, hk⟩ (bitsSampled s e j (s.rxBitTicks l) k)
      (State.rxBitExpire (7 - k)) := by
  induction k with
  | zero =>
    rw [Nat.zero_mul]
    exact h
  | succ k ih =>
    have hprev := ih (by omega)
    rw [show 7 - k = 7 - (k + 1) + 1 by omega] at hprev
    rw [Nat.succ_mul, ← Nat.add_assoc]
    exact hprev.nextBit hi he (m := 7 - (k + 1)) (Fin.ext (Nat.mod_eq_of_lt hk).symm) rfl

/-- The dispatch of an interrupt to the active link brings the line check after the entry latency
(60_exceptions.md R266). -/
theorem dispatch_actsAt (hi : s.Inv) (hr : s.rxSt = .idle) (ht : s.txSt = .idle)
    (hp : s.phase1.pend = true) (ha : s.active = some l) :
    ActsAt s l s.cfg.latEntry s.rxI s.rxD State.rxEntryExpire := by
  have hentry : ActsAt s l 0 s.rxI s.rxD
      (State.rxWait .entry s.cfg.latEntry State.rxEntryExpire) := by
    refine ⟨s, { s.phase1 with pend := false, ie := false, rxL := l }, runsTo_zero.2 rfl,
      ⟨false, s.rxSt, s.dly, ?_⟩, ?_⟩
    · rw [← List.tail_drop]
      rfl
    · rw [step_eq_ticked hi.cfgWF, phase2_dispatch (p := s.phase1) hr ht hp (hi.idle_ie hr ht),
        dispatch_some (p := s.phase1) ha]
      rfl
  have hline := hentry.wait hi.cfgWF (by decide) fun _ hst _ => rxExpire_entry hst
  rwa [Nat.zero_add] at hline

/-- From a low line at the line check to the commit (R198). -/
theorem ActsAt.commit (hi : s.Inv) (he : pinEntry s.cfg (s.link l).rxpin = some e)
    (hlow : lineLevel s e j = false) (h : ActsAt s l j i d State.rxEntryExpire) :
    ActsAt s l (j + s.rxCenterTicks l + 8 * s.rxBitTicks l + s.rxStopTicks l) 7
      (bitsSampled s e (j + s.rxCenterTicks l + s.rxBitTicks l) (s.rxBitTicks l) 8)
      State.rxStopExpire := by
  have hlast := (((h.center hi he hlow).firstBit hi).bits hi he (show 7 < 8 by decide)).stop hi he
  rw [show j + s.rxCenterTicks l + 8 * s.rxBitTicks l =
    j + s.rxCenterTicks l + s.rxBitTicks l + 7 * s.rxBitTicks l by omega]
  exact hlast

end

end Sys2Proof.Machine

namespace Sys2Proof.Claims

open Sys2Proof Sys2Proof.Machine

/-- Settles O38: the line check ends the frame of a spurious edge; of a low line it leads to the
commit, whose two outcomes are R195's and R196's. -/
theorem receiveFrameSampleInstants : Obligations.ReceiveFrameSampleInstants := by
  intro s l e hi hr ht hp ha he te c b st
  have hcheck := dispatch_actsAt hi hr ht hp ha
  refine ⟨fun hhigh => ?_, fun hlow => ?_⟩
  · obtain ⟨p, hframe, hend⟩ := hcheck.ends
    have hrun := hend _ (rxEntryExpire_high (hhigh ▸ hframe.line hi he))
    obtain ⟨pd, st', n, rfl⟩ := hframe
    exact ⟨_, hrun, rfl, rfl, rfl, rfl, rfl, rfl, rfl, ⟨rfl, rfl, rfl, rfl, rfl, rfl⟩, rfl⟩
  · obtain ⟨p, hframe, hend⟩ := (hcheck.commit hi he hlow).ends
    have hbits := bitsSampled_instants s e (te + c) b
    obtain ⟨pd, st', n, rfl⟩ := hframe
    by_cases hroom : (s.tail + 1) % s.cfg.rxBufSize ≠ s.head
    · exact ⟨_, _, hend _ (rxStopExpire_room hroom hi.tailLt), rfl, rfl, hbits, rfl, rfl,
        ⟨rfl, rfl, rfl, rfl, rfl, rfl⟩, rfl, fun _ => ⟨rfl, rfl, rfl⟩,
        fun hfull => absurd hfull hroom⟩
    · exact ⟨_, _, hend _ (rxStopExpire_full (not_not.1 hroom)), rfl, rfl, hbits, rfl, rfl,
        ⟨rfl, rfl, rfl, rfl, rfl, rfl⟩, rfl, fun h => absurd h hroom,
        fun _ => ⟨rfl, rfl, setOvf_link_self s l⟩⟩

end Sys2Proof.Claims
end

section
/-! PROOFS. The transmit engine's expiry actions (44_transmit.md R232 to R234), each in the tick that
ends its wait, and what they leave unchanged (R239). -/

namespace Sys2Proof.Machine

open Sys2Proof.Claims

/-! ### The engine's drive of its pin (41_pins_links.md R152) -/

/-- `s` with the output bit of the pin at `e` set to `v`. -/
def State.drivePin (s : State) (e : PinEntry) (v : Bool) : State :=
  { s with ports := s.ports.modify e.port (PortRegs.setOut v e.bit) }

/-- The transmit engine's pin is mapped, at `e`, to a port that is there. -/
def State.TransmitsOn (s : State) (e : PinEntry) : Prop :=
  pinEntry s.cfg (s.link s.txL).txpin = some e ∧ e.port < s.ports.length

theorem State.TxReady.transmitsOn {s : State} (h : s.TxReady) : ∃ e, s.TransmitsOn e :=
  mapped_port h.cfgWF h.portCount h.pin

theorem State.TransmitsOn.pinWrite {s : State} {e : PinEntry} (h : s.TransmitsOn e) (v : Bool) :
    s.pinWrite (s.link s.txL).txpin v = .ok (s.drivePin e v) :=
  onPort_eq h.1 h.2 _

theorem State.TransmitsOn.drivePin {s : State} {e : PinEntry} (h : s.TransmitsOn e) (v : Bool) :
    (s.drivePin e v).TransmitsOn e :=
  ⟨h.1, h.2.trans_eq (List.length_modify _ _ _).symm⟩

/-- Of two writes of one bit the second counts. -/
theorem withBit_withBit (x : Byte) (b : Fin 8) (v w : Bool) :
    withBit (withBit x b v) b w = withBit x b w := by
  refine BitVec.eq_of_getLsbD_eq fun i hi => ?_
  have hbit : bitAt (withBit (withBit x b v) b w) ⟨i, hi⟩ = bitAt (withBit x b w) ⟨i, hi⟩ := by
    simp only [bitAt_withBit]
    split <;> rfl
  rwa [bitAt_eq, bitAt_eq] at hbit

/-- Of two drives of one pin the second counts. -/
theorem drivePin_drivePin (s : State) (e : PinEntry) (v w : Bool) :
    (s.drivePin e v).drivePin e w = s.drivePin e w := by
  have hbit : PortRegs.setOut w e.bit ∘ PortRegs.setOut v e.bit = PortRegs.setOut w e.bit :=
    funext fun r => congrArg (fun o => ({ r with out := o } : PortRegs)) (withBit_withBit _ _ _ _)
  simp only [State.drivePin, List.modify_modify_eq, hbit]

/-! ### The expiry actions by their cases (44_transmit.md R232 to R234) -/

/-- The frame end (R234). -/
theorem txStopExpire_eq (p : State) : p.txStopExpire = .ok (frameEnded p p.txSie) := by
  unfold State.txStopExpire frameEnded
  cases hq : p.wnQ <;> simp only [restoreInterrupts_wnQ, hq] <;> rfl

/-- The end of a command's last frame (R234). -/
theorem frameEnded_last {s : State} (hq : s.wnQ = []) (sie : Bool) : frameEnded s sie =
    answered { s with txSt := .idle, ie := sie, wnSum := s.wnSum + 1 } .ok (s.wnSum + 1) :=
  if_pos hq

/-- The end of a frame with a byte due behind it (R234). -/
theorem frameEnded_more {s : State} (hq : s.wnQ ≠ []) (sie : Bool) :
    frameEnded s sie = { s with txSt := .idle, ie := sie, wnSum := s.wnSum + 1 } :=
  if_neg hq

/-- The start bit (R232). -/
theorem State.TransmitsOn.txPreExpire {p : State} {e : PinEntry} (h : p.TransmitsOn e) :
    p.txPreExpire =
      State.txWait .start (p.txPeriod p.txL) State.txStartExpire (p.drivePin e false) := by
  rw [State.txPreExpire, State.txDrive, h.pinWrite]
  rfl

/-- Data bit 0 (R233). -/
theorem State.TransmitsOn.txStartExpire {p : State} {e : PinEntry} (h : p.TransmitsOn e) :
    p.txStartExpire = State.txWait .bit (p.txPeriod p.txL) (State.txBitExpire 7)
      { p.drivePin e (p.txD.getLsbD 0) with txI := 0 } := by
  have hw := State.TransmitsOn.pinWrite (s := { p with txI := 0 }) h (p.txD.getLsbD 0)
  unfold State.txStartExpire
  dsimp only [State.txDrive]
  rw [hw]
  rfl

/-- The next data bit (R233). -/
theorem State.TransmitsOn.txBitExpire_more {p : State} {e : PinEntry} (h : p.TransmitsOn e)
    (n : Nat) : p.txBitExpire (n + 1) = State.txWait .bit (p.txPeriod p.txL) (State.txBitExpire n)
      { p.drivePin e (p.txD.getLsbD (p.txI + 1).val) with txI := p.txI + 1 } := by
  have hw := State.TransmitsOn.pinWrite (s := { p with txI := p.txI + 1 }) h
    (p.txD.getLsbD (p.txI + 1).val)
  unfold State.txBitExpire
  dsimp only [State.txDrive]
  rw [hw]
  rfl

/-- The stop bit (R233). -/
theorem State.TransmitsOn.txBitExpire_last {p : State} {e : PinEntry} (h : p.TransmitsOn e) :
    p.txBitExpire 0 =
      State.txWait .stop (p.txPeriod p.txL) State.txStopExpire (p.drivePin e true) := by
  rw [State.txBitExpire, State.txDrive, h.pinWrite]
  rfl

/-! ### A bit period of 0 ticks: the rest of the frame in one tick (40_timing_delay.md R134) -/

/-- The state the rest of a frame leaves that runs in one tick: the pin high, bit 7 started, the
frame ended. -/
def State.frameSent (p : State) (e : PinEntry) : State :=
  frameEnded { p.drivePin e true with txI := 7 } p.txSie

/-- What the rest of a frame overwrites does not matter to it. -/
theorem frameSent_of_prep (p : State) (e : PinEntry) (v : Bool) (st : TxSt) (i : Fin 8) :
    ({ p.drivePin e v with txSt := st, txI := i } : State).frameSent e = p.frameSent e := by
  have hsent := congrArg (fun q : State => frameEnded { p with ports := q.ports, txI := 7 } p.txSie)
    (drivePin_drivePin p e v true)
  exact hsent

section

variable {p : State} {e : PinEntry}

/-- From a data bit with `n` to go (R233, R234). -/
theorem State.TransmitsOn.txBitExpire_zero {n : Nat} (h : p.TransmitsOn e)
    (hP : p.txPeriod p.txL = 0) (hn : n + p.txI.val = 7) :
    p.txBitExpire n = .ok (p.frameSent e) := by
  induction n generalizing p with
  | zero =>
    have hI : p.txI = 7 := Fin.ext (by omega)
    rw [h.txBitExpire_last, hP, txWait_zero, txStopExpire_eq, State.frameSent, ← hI]
    rfl
  | succ n ih =>
    have hI : n + (p.txI + 1).val = 7 := by
      rw [Fin.val_add_one_of_lt' (by omega)]
      omega
    rw [h.txBitExpire_more, hP, txWait_zero,
      ih (p := { p.drivePin e _ with txSt := .bit, txI := p.txI + 1 }) (h.drivePin _) hP hI]
    exact congrArg _ (frameSent_of_prep p e _ .bit (p.txI + 1))

/-- From the start bit. -/
theorem State.TransmitsOn.txStartExpire_zero (h : p.TransmitsOn e) (hP : p.txPeriod p.txL = 0) :
    p.txStartExpire = .ok (p.frameSent e) := by
  rw [h.txStartExpire, hP, txWait_zero, State.TransmitsOn.txBitExpire_zero
    (p := { p.drivePin e _ with txSt := .bit, txI := 0 }) (h.drivePin _) hP rfl]
  exact congrArg _ (frameSent_of_prep p e _ .bit 0)

/-- From before the start bit. -/
theorem State.TransmitsOn.txPreExpire_zero (h : p.TransmitsOn e) (hP : p.txPeriod p.txL = 0) :
    p.txPreExpire = .ok (p.frameSent e) := by
  rw [h.txPreExpire, hP, txWait_zero, State.TransmitsOn.txStartExpire_zero
    (p := { p.drivePin e _ with txSt := .start }) (h.drivePin _) hP]
  exact congrArg _ (frameSent_of_prep p e _ .start p.txI)

/-! ### The tick that ends a wait (40_timing_delay.md R135) -/

theorem txExpire_pre (h : p.txSt = .pre) : p.txExpire = p.txPreExpire := by
  rw [State.txExpire, h]

theorem txExpire_start (h : p.txSt = .start) : p.txExpire = p.txStartExpire := by
  rw [State.txExpire, h]

theorem txExpire_bit (h : p.txSt = .bit) : p.txExpire = p.txBitExpire (7 - p.txI.val) := by
  rw [State.txExpire, h]

theorem txExpire_stop (h : p.txSt = .stop) : p.txExpire = p.txStopExpire := by
  rw [State.txExpire, h]

/-- The expiry of `PRE` drives the start bit (R232). -/
theorem State.TransmitsOn.drivesStart (h : p.TransmitsOn e) (hP : 0 < p.txPeriod p.txL)
    (hst : p.txSt = .pre) : p.txExpire =
      .ok { p.drivePin e false with txSt := .start, dly := p.txPeriod p.txL } := by
  rw [txExpire_pre hst, h.txPreExpire, txWait_pos hP]

/-- The expiry of `START` drives data bit 0 (R233). -/
theorem State.TransmitsOn.drivesFirstBit (h : p.TransmitsOn e) (hP : 0 < p.txPeriod p.txL)
    (hst : p.txSt = .start) : p.txExpire =
      .ok { p.drivePin e (p.txD.getLsbD 0) with
        txI := 0, txSt := .bit, dly := p.txPeriod p.txL } := by
  rw [txExpire_start hst, h.txStartExpire, txWait_pos hP]

/-- The expiry of a data bit before bit 7 drives the next (R233). -/
theorem State.TransmitsOn.drivesNextBit (h : p.TransmitsOn e) (hP : 0 < p.txPeriod p.txL)
    (hst : p.txSt = .bit) (hmore : p.txI.val < 7) : p.txExpire =
      .ok { p.drivePin e (p.txD.getLsbD (p.txI.val + 1)) with
        txI := p.txI + 1, txSt := .bit, dly := p.txPeriod p.txL } := by
  rw [txExpire_bit hst, show 7 - p.txI.val = 6 - p.txI.val + 1 by omega, h.txBitExpire_more,
    txWait_pos hP, Fin.val_add_one_of_lt' (by omega)]

/-- The expiry of bit 7 drives the stop bit (R233). -/
theorem State.TransmitsOn.drivesStop (h : p.TransmitsOn e) (hP : 0 < p.txPeriod p.txL)
    (hst : p.txSt = .bit) (hlast : p.txI = 7) : p.txExpire =
      .ok { p.drivePin e true with txSt := .stop, dly := p.txPeriod p.txL } := by
  rw [txExpire_bit hst, hlast, show 7 - (7 : Fin 8).val = 0 from rfl, h.txBitExpire_last,
    txWait_pos hP]

/-- From any part of the frame but its stop bit. -/
theorem State.TransmitsOn.txExpire_zero (h : p.TransmitsOn e) (hP : p.txPeriod p.txL = 0)
    (hidle : p.txSt ≠ .idle) (hstop : p.txSt ≠ .stop) : p.txExpire = .ok (p.frameSent e) := by
  cases hst : p.txSt with
  | idle => exact absurd hst hidle
  | pre => rw [txExpire_pre hst, h.txPreExpire_zero hP]
  | start => rw [txExpire_start hst, h.txStartExpire_zero hP]
  | bit => rw [txExpire_bit hst, h.txBitExpire_zero hP (by omega)]
  | stop => exact absurd hst hstop

end

/-- The tick that ends a transmit wait is the expiry action's. -/
theorem step_of_txExpire {s u : State} (hc : s.cfg.WF) (hr : s.rxSt = .idle) (ht : s.txSt ≠ .idle)
    (hd : s.dly = 1) (h : s.expiring.txExpire = .ok u) : step s = .next u.endTick := by
  rw [step_eq_ticked hc, phase2_tx (p := s.phase1) hr ht, txAdvance_last (p := s.phase1) hd]
  exact congrArg (fun x => ticked (finish x)) h

/-- In a state of the invariant a running transmit engine can drive its pin after phase 1. -/
theorem State.Inv.transmitsOn {s : State} (h : s.Inv) (ht : s.txSt ≠ .idle) :
    ∃ e, s.expiring.TransmitsOn e :=
  (h.phase1.txLive ht 0).ready.transmitsOn

/-- A running transmit engine takes the tick, the receive engine being idle (10_state.md R62). -/
theorem AgentStep.txRun {p u : State} (h : AgentStep p u) (hr : p.rxSt = .idle)
    (ht : p.txSt ≠ .idle) : TxRun { p with dly := 0 } u := by
  cases h with
  | tx _ _ _ _ hu => exact hu
  | rxReturn hrun | rx hrun => exact absurd hr hrun
  | unserved _ hidle | enters _ hidle | spurious _ hidle | starts _ hidle | counts _ hidle
  | delayEnds _ hidle | nextFrame _ hidle | idles _ hidle | accepts _ hidle
  | rejects _ hidle => exact absurd hidle ht

end Sys2Proof.Machine

namespace Sys2Proof.Claims

open Sys2Proof Sys2Proof.Machine

/-- Settles O41: each part's drive and wait; without a wait the rest of the frame follows at once. -/
theorem frameIsDrivenLsbFirst : Obligations.FrameIsDrivenLsbFirst := by
  intro s h hd ht P pin p
  have hr : s.rxSt = .idle := h.oneEngine.resolve_right ht
  obtain ⟨e, he⟩ := h.transmitsOn ht
  have hstep {u : State} : s.expiring.txExpire = .ok u → step s = .next u.endTick :=
    step_of_txExpire h.cfgWF hr ht hd
  exact ⟨fun hP =>
    ⟨fun hst => ⟨_, he.pinWrite _, hstep (he.drivesStart hP hst)⟩,
      fun hst => ⟨_, he.pinWrite _, hstep (he.drivesFirstBit hP hst)⟩,
      fun hst hmore => ⟨_, he.pinWrite _, hstep (he.drivesNextBit hP hst hmore)⟩,
      fun hst hlast => ⟨_, he.pinWrite _, hstep (he.drivesStop hP hst hlast)⟩⟩,
    fun hP hstop => ⟨_, he.pinWrite _, hstep (he.txExpire_zero hP ht hstop)⟩⟩

/-- Settles O42: the frame end by what is left to send. -/
theorem frameEndRestoresInterrupts : Obligations.FrameEndRestoresInterrupts := by
  intro s hc hr hst hd p
  have hstep := step_of_txExpire hc hr (by simp [hst]) hd
    ((txExpire_stop (p := s.expiring) hst).trans (txStopExpire_eq _))
  refine ⟨fun hq => ?_, fun hq => ?_⟩
  · rw [frameEnded_last (s := s.expiring) hq] at hstep
    exact hstep
  · rw [frameEnded_more (s := s.expiring) hq] at hstep
    exact hstep

/-- Settles O43: the tick is the transmit engine's, and the invariant after it ties `IE` to the
engine. -/
theorem transmitSuppressesReception : Obligations.TransmitSuppressesReception := by
  intro s t h ht hstep
  have hinv := stepKeepsTheInvariant s t h hstep
  obtain ⟨-, u, hu, rfl⟩ := step_cases hstep
  have hr : s.rxSt = .idle := h.oneEngine.resolve_right ht
  have hrun := hu.txRun hr ht
  have hrx : u.rxSt = .idle := by cases hrun <;> exact hr
  have hie : u.ie = true ↔ u.txSt = .idle := hinv.ieIff.trans (and_iff_right hrx)
  have hpend : s.pend = true → s.phase1.pend = true := fun hp => by simp [hp]
  cases hrun <;> exact ⟨hr, rfl, rfl, rfl, rfl, rfl, rfl, rfl, rfl, rfl, hpend, hie⟩

end Sys2Proof.Claims
end

section
/-! PROOFS. WRITE and WRITEN (44_transmit.md R231, R235, R236): their checks, the start of each
frame, and the number of bytes they answer. -/

namespace Sys2Proof.Machine

open Sys2Proof.Claims

/-! ### The start of a frame (R231) -/

/-- What starting a frame on the loaded state `f` gives, the outcome `x` of a state being `ok` of it:
with `k` ticks of overhead they are waited, else the pin `p` goes low for a bit period of `P` ticks,
else the whole frame runs in the tick and `done` is what follows its last drive (R231, R232,
40_timing_delay.md R134). -/
def FrameStarts {α : Type} (f : State) (p : PinId) (k P : Nat) (done : State → State)
    (ok : State → α) (x : α) : Prop :=
  (0 < k → x = ok { f with txSt := .pre, dly := k }) ∧
  (k = 0 → 0 < P → ∃ u, f.pinWrite p false = .ok u ∧ x = ok { u with txSt := .start, dly := P }) ∧
  (k = 0 → P = 0 → ∃ u, f.pinWrite p true = .ok u ∧ x = ok (done u))

theorem FrameStarts.map {α β : Type} {f : State} {p : PinId} {k P : Nat} {done : State → State}
    {ok : State → α} {x : α} (h : FrameStarts f p k P done ok x) (g : α → β) :
    FrameStarts f p k P done (g ∘ ok) (g x) := by
  obtain ⟨hwaits, hdrives, hcompletes⟩ := h
  refine ⟨fun hk => congrArg g (hwaits hk), fun hk hP => ?_, fun hk hP => ?_⟩
  · obtain ⟨u, hu, hx⟩ := hdrives hk hP
    exact ⟨u, hu, congrArg g hx⟩
  · obtain ⟨u, hu, hx⟩ := hcompletes hk hP
    exact ⟨u, hu, congrArg g hx⟩

/-- A loaded frame's link has the pin and the period it had (42_registry.md R170). -/
theorem loadFrame_link_self (s : State) (l : LinkId) (v : Byte) :
    ((s.loadFrame l v).link l).txpin = (s.link l).txpin ∧
    (s.loadFrame l v).txPeriod l = s.txPeriod l := by
  simp only [State.txPeriod, loadFrame_link, loadFrame_cfg]
  rw [activate_link_self]
  exact ⟨rfl, rfl⟩

/-- A loaded frame's engine can drive the link's transmit pin where it is mapped. -/
theorem loadFrame_txReady {s : State} (hc : s.cfg.WF) (hp : s.ports.length = s.cfg.nPorts)
    {l : LinkId} (hpin : pinMapped s.cfg (s.link l).txpin = true) (v : Byte) :
    (s.loadFrame l v).TxReady := by
  obtain ⟨htxpin, -⟩ := loadFrame_link_self s l v
  refine ⟨by rwa [loadFrame_cfg], by rwa [loadFrame_ports, loadFrame_cfg], ?_⟩
  rwa [loadFrame_cfg, loadFrame_txL, htxpin]

/-- A frame starts on a link whose transmit pin is mapped. -/
theorem startFrame_starts {s : State} (hc : s.cfg.WF) (hp : s.ports.length = s.cfg.nPorts)
    {l : LinkId} (hpin : pinMapped s.cfg (s.link l).txpin = true) (v : Byte) :
    FrameStarts (s.loadFrame l v) (s.link l).txpin s.cfg.ovhTxStart (s.txPeriod l)
      (fun u => frameEnded { u with txI := 7 } s.ie) .ok (s.startFrame l v) := by
  obtain ⟨htxpin, hperiod⟩ := loadFrame_link_self s l v
  obtain ⟨e, hloaded⟩ := (loadFrame_txReady hc hp hpin v).transmitsOn
  have hon : ({ s.loadFrame l v with txSt := .pre } : State).TransmitsOn e := hloaded
  have hdrives := hloaded.pinWrite
  rw [loadFrame_txL, htxpin] at hdrives
  refine ⟨txWait_pos, fun hk hP => ⟨_, hdrives false, ?_⟩, fun hk hP => ⟨_, hdrives true, ?_⟩⟩
  · rw [← hperiod] at hP ⊢
    rw [State.startFrame, hk, txWait_zero, hon.txPreExpire]
    exact txWait_pos hP
  · rw [← hperiod] at hP
    rw [State.startFrame, hk, txWait_zero, hon.txPreExpire_zero hP, ← loadFrame_txSie s l v]
    rfl

/-! ### The first frame (R235, R236) -/

/-- WRITE's and WRITEN's registers with the first frame loaded. -/
theorem loadWrite_loadFrame (s : State) (l : LinkId) (v : Byte) (q : List Byte) :
    (s.loadWrite l q).loadFrame l v = frameRegs s l v q := by
  have hactive : (s.loadWrite l q).active = s.active := rfl
  unfold State.loadFrame frameRegs State.activate
  rw [hactive]
  split <;> rfl

theorem frameRegs_cfg (s : State) (l : LinkId) (v : Byte) (q : List Byte) :
    (frameRegs s l v q).cfg = s.cfg := activate_cfg s l

theorem frameRegs_ports (s : State) (l : LinkId) (v : Byte) (q : List Byte) :
    (frameRegs s l v q).ports = s.ports := activate_ports s l

theorem frameRegs_rxSt (s : State) (l : LinkId) (v : Byte) (q : List Byte) :
    (frameRegs s l v q).rxSt = s.rxSt := activate_rxSt s l

theorem frameRegs_txSt (s : State) (l : LinkId) (v : Byte) (q : List Byte) :
    (frameRegs s l v q).txSt = s.txSt := activate_txSt s l

/-- The loaded link has the pin and the period it had. -/
theorem frameRegs_link_self (s : State) (l : LinkId) (v : Byte) (q : List Byte) :
    ((frameRegs s l v q).link l).txpin = (s.link l).txpin ∧
    (frameRegs s l v q).txPeriod l = s.txPeriod l :=
  loadWrite_loadFrame s l v q ▸ loadFrame_link_self (s.loadWrite l q) l v

/-- What follows the last drive of a first frame that is sent in one tick, with the bytes `q` still
to come (R234). -/
def firstFrameSent (s : State) (q : List Byte) (u : State) : State :=
  { u with
    txSt := .idle, txI := 7, ie := s.ie, wnSum := 1
    resp := if q = [] then some ⟨.ok, 1⟩ else s.resp
    hostSt := if q = [] then .free else .write }

theorem frameEnded_first (s : State) (l : LinkId) (v : Byte) (q : List Byte) (ps : List PortRegs) :
    frameEnded { frameRegs s l v q with ports := ps, txI := 7 } s.ie =
      firstFrameSent s q { frameRegs s l v q with ports := ps } := by
  have hresp : (frameRegs s l v q).resp = s.resp := activate_resp s l
  cases q with
  | nil => rfl
  | cons v' q' =>
    rw [firstFrameSent, if_neg (List.cons_ne_nil v' q'), if_neg (List.cons_ne_nil v' q'), ← hresp]
    rfl

/-- The frame of the first byte, with the bytes `q` still to come. -/
theorem State.Inv.firstFrame {s : State} {l : LinkId} (h : s.Inv) (hl : LinkExists s l) (v : Byte)
    (q : List Byte) :
    FrameStarts (frameRegs s l v q) (s.link l).txpin s.cfg.ovhTxStart (s.txPeriod l)
      (firstFrameSent s q) .ok ((s.loadWrite l q).startFrame l v) := by
  have hstarts := startFrame_starts (s := s.loadWrite l q) h.cfgWF h.portCount
    (h.txpin (hasLink_iff.2 hl)) v
  rw [loadWrite_loadFrame] at hstarts
  obtain ⟨hwaits, hdrives, hcompletes⟩ := hstarts
  refine ⟨hwaits, hdrives, fun hk hP => ?_⟩
  obtain ⟨u, hu, hx⟩ := hcompletes hk hP
  obtain ⟨e, -, -, rfl⟩ := onPort_ok hu
  exact ⟨_, hu, hx.trans (congrArg _ (frameEnded_first s l v q _))⟩

/-! ### The commands by their cases (R235, R236) -/

section

variable {s : State} {l : LinkId}

theorem exec_write_missing (hl : ¬ LinkExists s l) (v : Byte) :
    exec (.write l v) s = .next (answered s .noLink 0) := by
  rw [exec, execWrite, withLink_of_missing hl]

theorem exec_writen_missing (hl : ¬ LinkExists s l) (bs : List Byte) :
    exec (.writen l bs) s = .next (answered s .noLink 0) := by
  rw [exec, execWriten, withLink_of_missing hl]

theorem exec_writen_nil (hl : LinkExists s l) :
    exec (.writen l []) s = .next (answered s .ok 0) := by
  rw [exec, execWriten, withLink_of_exists hl]
  rfl

/-- On a link with no transmit delay WRITE does nothing. -/
theorem exec_write_noop (hl : LinkExists s l) (hx : (s.link l).txd = 0) (v : Byte) :
    exec (.write l v) s = .next (answered s .ok (BitVec.ofNat 32 s.cfg.noopWriteResult.val)) := by
  rw [exec, execWrite, withLink_of_exists hl, if_pos hx]
  rfl

theorem exec_writen_noop (hl : LinkExists s l) (hx : (s.link l).txd = 0) {bs : List Byte}
    (hne : bs ≠ []) : exec (.writen l bs) s =
      .next (answered s .ok (BitVec.ofNat 32 (bs.length * s.cfg.noopWriteResult.val))) := by
  obtain ⟨v, q, rfl⟩ := List.exists_cons_of_ne_nil hne
  rw [exec, execWriten, withLink_of_exists hl]
  exact if_pos hx

/-- On a link that can transmit WRITE starts a frame. -/
theorem exec_write_sends (hl : LinkExists s l) (hx : (s.link l).txd ≠ 0) (v : Byte) :
    exec (.write l v) s = finish ((s.loadWrite l []).startFrame l v) := by
  rw [exec, execWrite, withLink_of_exists hl, if_neg hx]

theorem exec_writen_sends (hl : LinkExists s l) (hx : (s.link l).txd ≠ 0) (v : Byte)
    (q : List Byte) : exec (.writen l (v :: q)) s = finish ((s.loadWrite l q).startFrame l v) := by
  rw [exec, execWriten, withLink_of_exists hl]
  exact if_neg hx

end

/-! ### The later frames of a WRITEN (R236) -/

/-- A host step with a byte due starts its frame. -/
theorem step_nextFrame {s : State} (hc : s.cfg.WF) (hturn : s.phase1.HostTurn)
    (hh : s.hostSt = .write) {v : Byte} {q : List Byte} (hq : s.wnQ = v :: q) :
    step s = ticked (finish (({ s.phase1 with wnQ := q } : State).startFrame s.wnL v)) := by
  obtain ⟨hr, ht, hn⟩ := hturn
  have hhost : s.phase1.hostStep = finish s.phase1.nextFrame := by
    rw [State.hostStep, phase1_hostSt, hh]
  rw [step_eq_ticked hc, phase2_host hr ht hn, hhost, State.nextFrame, phase1_wnQ, hq]
  rfl

/-- The active link is activated already (42_registry.md R170). -/
theorem loadFrame_active_link {s : State} {l : LinkId} (ha : s.active = some l) (v : Byte) :
    s.loadFrame l v = { s with txL := l, txD := v, txSie := s.ie, ie := false } := by
  unfold State.loadFrame
  rw [activate_same ha]
  rfl

/-! ### The bytes a WRITE or WRITEN answers for (R234 to R236) -/

/-- From `s` to `t` a WRITE or WRITEN that is to answer `n` bytes is under way still, or has answered
that number. -/
def AnswersFor (n : Word) (s t : State) : Prop :=
  t.hostSt = .write ∧ t.wnL = s.wnL ∧ t.resp = s.resp ∧ framesOf t = n ∨
  t.hostSt = .free ∧ t.resp = some ⟨.ok, n⟩

/-- The frame that runs and the bytes due behind it are answered for (R234). -/
theorem TxRun.answersFor {s u : State} (h : TxRun s u) (hh : s.hostSt = .write) :
    AnswersFor (s.wnSum + BitVec.ofNat 32 s.wnQ.length + 1) s u := by
  cases h with
  | waits st k i ps hst => exact .inl ⟨hh, rfl, rfl, by rw [framesOf, if_neg hst]⟩
  | completed i ps hq => exact .inr ⟨rfl, by simp [hq]⟩
  | frameEnded i ps hq =>
    refine .inl ⟨hh, rfl, rfl, ?_⟩
    rw [framesOf, if_pos rfl, add_zero]
    exact add_right_comm _ _ _

/-- A first frame and the bytes `q` behind it are answered for. -/
theorem TxRun.answersFor_first {s u : State} {l : LinkId} {v : Byte} {q : List Byte}
    (h : TxRun ((s.loadWrite l q).loadFrame l v) u) :
    AnswersFor (BitVec.ofNat 32 (v :: q).length) (s.loadWrite l q) u := by
  have hanswers := h.answersFor (loadFrame_hostSt _ _ _)
  simpa [AnswersFor, BitVec.ofNat_add] using hanswers

/-- A later frame and the bytes `q` behind it are answered for: it was one of the bytes due. -/
theorem TxRun.answersFor_next {s u : State} {v : Byte} {q : List Byte} (ht : s.txSt = .idle)
    (hh : s.hostSt = .write) (hq : s.wnQ = v :: q)
    (h : TxRun (({ s with wnQ := q } : State).loadFrame s.wnL v) u) :
    AnswersFor (framesOf s) s u := by
  have hanswers := h.answersFor ((loadFrame_hostSt _ _ _).trans hh)
  have hframes : framesOf s = s.wnSum + BitVec.ofNat 32 q.length + 1 := by
    simp [framesOf, ht, hq, BitVec.ofNat_add, add_assoc]
  rw [hframes]
  simpa [AnswersFor] using hanswers

/-- The receive engine leaves the host and the transmit engine. -/
theorem RxRun.answersFor {s u : State} (h : RxRun s u) (hh : s.hostSt = .write) :
    AnswersFor (framesOf s) s u := by
  cases h <;> exact .inl ⟨hh, rfl, rfl, rfl⟩

/-- No agent step changes what a WRITE or WRITEN under way answers for (60_exceptions.md R271). -/
theorem AgentStep.answersFor {p u : State} (h : AgentStep p u) (hh : p.hostSt = .write) :
    AnswersFor (framesOf p) p u := by
  cases h with
  | rxReturn | unserved | enters | spurious => exact .inl ⟨hh, rfl, rfl, rfl⟩
  | rx _ _ _ hu | starts _ _ _ _ _ _ _ hu => exact hu.answersFor hh
  | tx _ ht _ _ hu =>
    have hanswers := hu.answersFor hh
    rwa [framesOf, if_neg ht]
  | nextFrame _ ht _ _ v q hq _ hu => exact hu.answersFor_next ht hh hq
  | counts _ _ _ hd | delayEnds _ _ _ hd | idles _ _ _ hd | accepts _ _ _ hd
  | rejects _ _ _ hd => exact nomatch hh.symm.trans hd

end Sys2Proof.Machine

namespace Sys2Proof.Claims

open Sys2Proof Sys2Proof.Machine

/-- Settles O39: WRITE's checks, and its frame by its overhead and its period. -/
theorem writeStartsAFrame : Obligations.WriteStartsAFrame := fun _ _ v =>
  ⟨fun hl => exec_write_missing hl v, fun hl hx => exec_write_noop hl hx v,
    fun h hl hx => exec_write_sends hl hx v ▸ (h.firstFrame hl v []).map finish⟩

/-- Settles O40: WRITEN's checks and its first frame; a later frame starts on the link that is
active already. -/
theorem writenSendsOneFramePerByte : Obligations.WritenSendsOneFramePerByte := by
  refine ⟨fun s l bs => ⟨fun hl => exec_writen_missing hl bs, exec_writen_nil,
    fun hl hx hne => exec_writen_noop hl hx hne, ?_⟩, fun s v q hc hr ht hn hh hq => ?_⟩
  · rintro v q h hl hx rfl
    exact exec_writen_sends hl hx v q ▸ (h.firstFrame hl v q).map finish
  · have hstep := step_nextFrame hc ⟨hr, ht, hn⟩ hh hq
    refine ⟨hstep, fun h => ?_⟩
    obtain ⟨hactive, -⟩ := h.writeActive hh
    have hstarts := startFrame_starts (s := { s.phase1 with wnQ := q }) hc h.phase1.portCount
      (h.txpin (h.activeExists _ hactive)) v
    rw [loadFrame_active_link (s := { s.phase1 with wnQ := q }) hactive] at hstarts
    exact hstep ▸ hstarts.map (ticked ∘ finish)

/-- Settles O60: a first frame leaves the command its number of bytes to answer for, and every agent
step keeps the number or answers it. -/
theorem writeAnswersItsNumberOfBytes : Obligations.WriteAnswersItsNumberOfBytes := by
  refine ⟨fun s l bs i h hl hx hne hi => ?_, fun s t hh hstep => ?_⟩
  · obtain ⟨v, q, rfl⟩ := List.exists_cons_of_ne_nil hne
    have hexec : exec i s = finish ((s.loadWrite l q).startFrame l v) := by
      rcases hi with rfl | ⟨w, hw, rfl⟩
      · exact exec_writen_sends hl hx v q
      · cases hw
        exact exec_write_sends hl hx v
    obtain ⟨t, hsent, hrun⟩ := startFrame_run (loadFrame_txReady (s := s.loadWrite l q) h.cfgWF
      h.portCount (h.txpin (hasLink_iff.2 hl)) v)
    exact ⟨t, hexec.trans (congrArg finish hsent), hrun.answersFor_first⟩
  · obtain ⟨-, u, hu, rfl⟩ := step_cases hstep
    exact hu.answersFor hh

end Sys2Proof.Claims
end

section
/-! PROOFS. The frame a transmit pin carries, tick by tick (44_transmit.md R237). -/

namespace Sys2Proof.Machine

open Sys2Proof.Claims

/-! ### The waveform's parts (R237) -/

/-- Inside data bit `i` the line has that bit of the byte. -/
theorem waveform_data (before : Bool) (v : Byte) {ovh P j i : Nat} (hi : i < 8)
    (hlo : ovh + (i + 1) * P ≤ j) (hhi : j < ovh + (i + 2) * P) :
    waveform before v ovh P j = v.getLsbD i := by
  have hfirst : P ≤ (i + 1) * P := Nat.le_mul_of_pos_left P (Nat.succ_pos i)
  have hlast : (i + 2) * P ≤ 9 * P := Nat.mul_le_mul_right P (by omega)
  have hcell : (j - ovh) / P = i + 1 := Nat.div_eq_of_lt_le (by omega) (by
    change j - ovh < (i + 2) * P
    omega)
  rw [waveform, if_neg (by omega), if_neg (by omega), if_pos (by omega), hcell, Nat.add_sub_cancel]

theorem waveform_before (before : Bool) (v : Byte) {ovh P j : Nat} (h : j < ovh) :
    waveform before v ovh P j = before := if_pos h

theorem waveform_start (before : Bool) (v : Byte) {ovh P j : Nat} (hlo : ovh ≤ j)
    (hhi : j < ovh + P) : waveform before v ovh P j = false := by
  rw [waveform, if_neg (by omega), if_pos hhi]

theorem waveform_stop (before : Bool) (v : Byte) {ovh P j : Nat} (h : ovh + 9 * P ≤ j) :
    waveform before v ovh P j = true := by
  rw [waveform, if_neg (by omega), if_neg (by omega), if_neg (by omega)]

/-! ### A port that carries a level -/

/-- The pin at `e` is an output that the core drives with `b`. -/
def Carries (ps : List PortRegs) (e : PinEntry) (b : Bool) : Prop :=
  ∃ r : PortRegs, ps[e.port]? = some r ∧ bitAt r.dir e.bit = true ∧ bitAt r.out e.bit = b

theorem Carries.lt {ps : List PortRegs} {e : PinEntry} {b : Bool} (h : Carries ps e b) :
    e.port < ps.length := by
  obtain ⟨r, hr, -⟩ := h
  exact (List.getElem?_eq_some_iff.1 hr).1

/-- Phase 1 changes no direction and no output latch (10_state.md R61). -/
theorem Carries.phase1 {s : State} {e : PinEntry} {b : Bool} (h : Carries s.ports e b) :
    Carries s.phase1.ports e b := by
  obtain ⟨r, hr, hdir, hout⟩ := h
  exact ⟨_, phase1_port hr, hdir, hout⟩

theorem Carries.drivePin {s : State} {e : PinEntry} {b : Bool} (h : Carries s.ports e b)
    (v : Bool) : Carries (s.drivePin e v).ports e v := by
  obtain ⟨r, hr, hdir, -⟩ := h
  have hport := modify_port hr e.port (PortRegs.setOut v e.bit)
  rw [if_pos rfl] at hport
  exact ⟨_, hport, hdir, by simp⟩

theorem Carries.drivenLevel {s : State} {p : PinId} {e : PinEntry} {b : Bool}
    (h : Carries s.ports e b) (he : pinEntry s.cfg p = some e) : s.drivenLevel p = some b := by
  obtain ⟨r, hr, hdir, hout⟩ := h
  rw [drivenLevel_of_output he hr hdir, hout]

/-! ### The states of a frame under way -/

/-- The ticks from the start of `f`'s frame to the end of the engine's state `st`, with `TX_I = i`
(R237). -/
def partEnd (f : State) (st : TxSt) (i : Fin 8) : Nat :=
  match st with
  | .idle => 0
  | .pre => f.cfg.ovhTxStart
  | .start => f.cfg.ovhTxStart + f.txPeriod f.txL
  | .bit => f.cfg.ovhTxStart + (i.val + 2) * f.txPeriod f.txL
  | .stop => f.cfg.ovhTxStart + 10 * f.txPeriod f.txL

/-- The level the pin has in the engine's state `st`, with `TX_I = i`, of the frame of byte `v`
(R237). -/
def partLevel (before : Bool) (v : Byte) (st : TxSt) (i : Fin 8) : Bool :=
  match st with
  | .idle => before
  | .pre => before
  | .start => false
  | .bit => v.getLsbD i.val
  | .stop => true

/-- A frame is loaded in `f` that the transmit engine can send by the pin at `e`, and its bit period
is not 0. -/
structure State.Loaded (f : State) (e : PinEntry) : Prop where
  cfgWF : f.cfg.WF
  rxIdle : f.rxSt = .idle
  pin : pinEntry f.cfg (f.link f.txL).txpin = some e
  period : 0 < f.txPeriod f.txL

/-- `p` is what the loaded state `f` has become with the transmit engine in its state `st`, `TX_I = i`
and `k` ticks to count, the pin at `e` having had the level `before`: it has the part's level, and
nothing has changed but the ports, `PEND`, the inputs and the response. -/
def InPart (f : State) (e : PinEntry) (before : Bool) (st : TxSt) (i : Fin 8) (k : Nat)
    (p : State) : Prop :=
  ∃ tk pd ps ev rs,
    p = { f with
      t := tk, pend := pd, ports := ps, env := ev, resp := rs, txSt := st, txI := i, dly := k } ∧
    Carries ps e (partLevel before f.txD st i)

section

variable {f p : State} {e : PinEntry} {before : Bool} {st : TxSt} {i : Fin 8} {k j : Nat}

theorem InPart.phase1 (h : InPart f e before st i k p) : InPart f e before st i k p.phase1 := by
  obtain ⟨tk, pd, ps, ev, rs, hp, hcar⟩ := h
  have hports : Carries p.phase1.ports e (partLevel before f.txD st i) :=
    Carries.phase1 (by rwa [hp])
  exact ⟨tk, p.phase1.pend, p.phase1.ports, ev.tail, none, by rw [hp]; rfl, hports⟩

theorem InPart.endTick (h : InPart f e before st i k p) : InPart f e before st i k p.endTick := by
  obtain ⟨tk, pd, ps, ev, rs, rfl, hcar⟩ := h
  exact ⟨tk + 1, pd, ps, ev, rs, rfl, hcar⟩

theorem InPart.setDly (h : InPart f e before st i k p) (k' : Nat) :
    InPart f e before st i k' { p with dly := k' } := by
  obtain ⟨tk, pd, ps, ev, rs, rfl, hcar⟩ := h
  exact ⟨tk, pd, ps, ev, rs, rfl, hcar⟩

/-- The drive and the wait of the part `st'`, `i'`. -/
theorem InPart.drive (h : InPart f e before st i k p) (st' : TxSt) (i' : Fin 8) (k' : Nat) :
    InPart f e before st' i' k' { p.drivePin e (partLevel before f.txD st' i') with
      txSt := st', txI := i', dly := k' } := by
  obtain ⟨tk, pd, ps, ev, rs, rfl, hcar⟩ := h
  exact ⟨tk, pd, _, ev, rs, rfl, Carries.drivePin (s := { f with ports := ps }) hcar _⟩

theorem InPart.transmitsOn (hf : f.Loaded e) (h : InPart f e before st i k p) :
    p.TransmitsOn e := by
  obtain ⟨tk, pd, ps, ev, rs, rfl, hcar⟩ := h
  exact ⟨hf.pin, hcar.lt⟩

theorem InPart.txSt (h : InPart f e before st i k p) : p.txSt = st := by
  obtain ⟨tk, pd, ps, ev, rs, rfl, hcar⟩ := h
  rfl

theorem InPart.wnQ (h : InPart f e before st i k p) : p.wnQ = f.wnQ := by
  obtain ⟨tk, pd, ps, ev, rs, rfl, hcar⟩ := h
  rfl

/-- A tick of a part that is not its last counts. -/
theorem InPart.counts (hf : f.Loaded e) (hst : st ≠ .idle)
    (h : InPart f e before st i (k + 2) p) :
    ∃ t, step p = .next t ∧ InPart f e before st i (k + 1) t := by
  refine ⟨_, step_next ?_ ?_, (h.phase1.setDly (k + 1)).endTick⟩
  · obtain ⟨tk, pd, ps, ev, rs, rfl, hcar⟩ := h
    exact hf.cfgWF
  · obtain ⟨tk, pd, ps, ev, rs, hp, -⟩ := h.phase1
    rw [phase2_tx (p := p.phase1) (by rw [hp]; exact hf.rxIdle) (by rw [hp]; exact hst),
      txAdvance_count (p := p.phase1) (k := k) (by rw [hp])]
    rfl

/-- The last tick of a part performs the engine's expiry action. -/
theorem InPart.expires (hf : f.Loaded e) (hst : st ≠ .idle) (h : InPart f e before st i 1 p)
    {u : State} (hu : p.expiring.txExpire = .ok u) : step p = .next u.endTick := by
  obtain ⟨tk, pd, ps, ev, rs, rfl, -⟩ := h
  exact step_of_txExpire hf.cfgWF hf.rxIdle hst rfl hu

/-- The last tick of a part whose expiry action drives the part `st'`, `i'` leads into it. -/
theorem InPart.drives (hf : f.Loaded e) (hst : st ≠ .idle) (h : InPart f e before st i 1 p)
    {st' : TxSt} {i' : Fin 8} (hu : p.expiring.txExpire = .ok
      { p.expiring.drivePin e (partLevel before f.txD st' i') with
        txSt := st', txI := i', dly := f.txPeriod f.txL }) :
    ∃ t, step p = .next t ∧ InPart f e before st' i' (f.txPeriod f.txL) t :=
  ⟨_, h.expires hf hst hu, ((h.phase1.setDly 0).drive st' i' _).endTick⟩

/-- The expiry action of each part but the stop bit drives the next, which lasts a bit period (R232,
R233). -/
theorem InPart.expiry (hf : f.Loaded e) (hst : st ≠ .idle) (hstop : st ≠ .stop)
    (h : InPart f e before st i k p) :
    ∃ st' i', st' ≠ .idle ∧ partEnd f st' i' = partEnd f st i + f.txPeriod f.txL ∧
      p.txExpire = .ok { p.drivePin e (partLevel before f.txD st' i') with
        txSt := st', txI := i', dly := f.txPeriod f.txL } := by
  have hon := h.transmitsOn hf
  obtain ⟨tk, pd, ps, ev, rs, rfl, -⟩ := h
  cases st with
  | idle => exact absurd rfl hst
  | stop => exact absurd rfl hstop
  | pre => exact ⟨.start, i, by decide, rfl, hon.drivesStart hf.period rfl⟩
  | start =>
    exact ⟨.bit, 0, by decide, by simp only [partEnd, Fin.val_zero]; ring,
      hon.drivesFirstBit hf.period rfl⟩
  | bit =>
    by_cases hmore : i.val < 7
    · have hi : (i + 1).val = i.val + 1 := Fin.val_add_one_of_lt' (by omega)
      refine ⟨.bit, i + 1, by decide, by simp only [partEnd, hi]; ring, ?_⟩
      rw [partLevel, hi]
      exact hon.drivesNextBit hf.period rfl hmore
    · obtain rfl : i = 7 := Fin.ext (by omega)
      exact ⟨.stop, 7, by decide, by simp only [partEnd]; omega, hon.drivesStop hf.period rfl rfl⟩

/-! ### The ticks of a frame (R237) -/

/-- `p` is what the loaded state `f` has become `j` ticks after the start of its frame: the engine is
in a part of it, with the ticks to count that are left of that part. -/
def Sending (f : State) (e : PinEntry) (before : Bool) (j : Nat) (p : State) : Prop :=
  ∃ st i k, InPart f e before st i k p ∧ st ≠ .idle ∧ 0 < k ∧
    (st ≠ .pre → k ≤ f.txPeriod f.txL) ∧ j + k = partEnd f st i

/-- The pin has the level of R237. -/
theorem Sending.carries (h : Sending f e before j p) :
    Carries p.ports e (waveform before f.txD f.cfg.ovhTxStart (f.txPeriod f.txL) j) := by
  obtain ⟨st, i, k, ⟨tk, pd, ps, ev, rs, rfl, hcar⟩, hst, hk, hle, hend⟩ := h
  suffices hlevel : waveform before f.txD f.cfg.ovhTxStart (f.txPeriod f.txL) j =
      partLevel before f.txD st i from hlevel ▸ hcar
  cases st with
  | idle => exact absurd rfl hst
  | pre =>
    simp only [partEnd] at hend
    exact waveform_before _ _ (by omega)
  | start =>
    simp only [partEnd] at hend
    have hperiod := hle (by decide)
    exact waveform_start _ _ (by omega) (by omega)
  | bit =>
    simp only [partEnd] at hend
    have hperiod := hle (by decide)
    have hcell : (i.val + 2) * f.txPeriod f.txL = (i.val + 1) * f.txPeriod f.txL +
      f.txPeriod f.txL := by ring
    exact waveform_data _ _ i.isLt (by omega) (by omega)
  | stop =>
    simp only [partEnd] at hend
    have hperiod := hle (by decide)
    exact waveform_stop _ _ (by omega)

/-- A tick of the frame that is not its last leads to the next. -/
theorem Sending.next (hf : f.Loaded e) (h : Sending f e before j p)
    (hj : j + 1 < f.cfg.ovhTxStart + 10 * f.txPeriod f.txL) :
    ∃ t, step p = .next t ∧ Sending f e before (j + 1) t := by
  obtain ⟨st, i, k, hp, hst, hk, hle, hend⟩ := h
  match k with
  | 0 => exact absurd hk (lt_irrefl 0)
  | 1 =>
    have hstop : st ≠ .stop := by
      rintro rfl
      exact hj.ne hend
    obtain ⟨st', i', hst', hend', hu⟩ := (hp.phase1.setDly 0).expiry hf hst hstop
    obtain ⟨t, hstep, ht⟩ := hp.drives hf hst hu
    exact ⟨t, hstep, st', i', _, ht, hst', hf.period, fun _ => le_rfl, by omega⟩
  | k + 2 =>
    obtain ⟨t, hstep, ht⟩ := hp.counts hf hst
    exact ⟨t, hstep, st, i, k + 1, ht, hst, Nat.succ_pos k, fun h => Nat.le_of_succ_le (hle h),
      by omega⟩

/-- From its start a frame is being sent until its last tick. -/
theorem Sending.runs (hf : f.Loaded e) (h : Sending f e before 0 p) (j : Nat)
    (hj : j < f.cfg.ovhTxStart + 10 * f.txPeriod f.txL) :
    ∃ t, p.RunsTo j t ∧ Sending f e before j t := by
  induction j with
  | zero => exact ⟨p, runsTo_zero.2 rfl, h⟩
  | succ j ih =>
    obtain ⟨u, hrun, hu⟩ := ih (by omega)
    obtain ⟨t, hstep, ht⟩ := hu.next hf hj
    exact ⟨t, runsTo_snoc hrun hstep, ht⟩

/-- Each part but the stop bit ends a bit period or more before the frame does. -/
theorem partEnd_le (f : State) {st : TxSt} (hstop : st ≠ .stop) (i : Fin 8) :
    partEnd f st i + f.txPeriod f.txL ≤ f.cfg.ovhTxStart + 10 * f.txPeriod f.txL := by
  cases st with
  | stop => exact absurd rfl hstop
  | idle | pre | start => simp only [partEnd]; omega
  | bit =>
    have hbits : (i.val + 2) * f.txPeriod f.txL ≤ 9 * f.txPeriod f.txL :=
      Nat.mul_le_mul_right _ (by omega)
    simp only [partEnd]
    omega

/-- The last tick of a command's last frame ends it, the pin high (R234). -/
theorem Sending.last (hf : f.Loaded e) (hq : f.wnQ = []) (h : Sending f e before j p)
    (hj : j + 1 = f.cfg.ovhTxStart + 10 * f.txPeriod f.txL) :
    ∃ t, step p = .next t ∧ Carries t.ports e true ∧ t.cfg = f.cfg ∧
      t.resp = some ⟨.ok, f.wnSum + 1⟩ ∧ t.ie = f.txSie ∧ t.txSt = .idle ∧ t.hostSt = .free := by
  obtain ⟨st, i, k, hp, hst, hk, -, hend⟩ := h
  have hpos := hf.period
  obtain rfl : st = .stop := by
    by_contra hstop
    have hle := partEnd_le f hstop i
    omega
  obtain rfl : k = 1 := by
    simp only [partEnd] at hend
    omega
  have hexp : InPart f e before .stop i 0 p.expiring := hp.phase1.setDly 0
  have hstep := hp.expires hf hst ((txExpire_stop hexp.txSt).trans (txStopExpire_eq _))
  rw [frameEnded_last (hexp.wnQ.trans hq)] at hstep
  obtain ⟨tk, pd, ps, ev, rs, heq, hcar⟩ := hexp
  rw [heq] at hstep
  exact ⟨_, hstep, hcar, rfl, rfl, rfl, rfl, rfl⟩

/-- Until its end the frame leaves the configuration, `IE` and `HOST_ST` as it was loaded. -/
theorem Sending.kept (h : Sending f e before j p) :
    p.cfg = f.cfg ∧ p.ie = f.ie ∧ p.hostSt = f.hostSt := by
  obtain ⟨st, i, k, ⟨tk, pd, ps, ev, rs, rfl, -⟩, -⟩ := h
  exact ⟨rfl, rfl, rfl⟩

/-- The last frame of a command, from its start to its end: the pin carries its waveform, and the
tick of the end answers (R237, R234). -/
theorem Sending.waveform (hf : f.Loaded e) (hq : f.wnQ = []) (h : Sending f e before 0 p) :
    let n := f.cfg.ovhTxStart + 10 * f.txPeriod f.txL
    (∀ j, j ≤ n → ∃ t, p.RunsTo j t ∧ t.drivenLevel (f.link f.txL).txpin =
        some (waveform before f.txD f.cfg.ovhTxStart (f.txPeriod f.txL) j) ∧
      (j < n → t.ie = f.ie ∧ t.hostSt = f.hostSt)) ∧
    ∃ t, p.RunsTo n t ∧ t.resp = some ⟨.ok, f.wnSum + 1⟩ ∧ t.ie = f.txSie ∧ t.txSt = .idle ∧
      t.hostSt = .free := by
  intro n
  have hpos := hf.period
  obtain ⟨m, hm⟩ : ∃ m, n = m + 1 := Nat.exists_eq_add_one.2 (by omega)
  obtain ⟨u, hu, hsend⟩ := h.runs hf m (by omega)
  obtain ⟨t, hstep, hcar, hcfg, hresp, hie, htx, hfree⟩ := hsend.last hf hq hm.symm
  have hrun : p.RunsTo n t := hm ▸ runsTo_snoc hu hstep
  refine ⟨fun j hj => ?_, t, hrun, hresp, hie, htx, hfree⟩
  rcases hj.lt_or_eq with hlt | rfl
  · obtain ⟨t', hrun', hsend'⟩ := h.runs hf j hlt
    obtain ⟨hcfg', hie', hhost'⟩ := hsend'.kept
    exact ⟨t', hrun', hsend'.carries.drivenLevel (hcfg' ▸ hf.pin), fun _ => ⟨hie', hhost'⟩⟩
  · refine ⟨t, hrun, ?_, fun hlt => absurd hlt (lt_irrefl _)⟩
    rw [hcar.drivenLevel (hcfg ▸ hf.pin), waveform_stop _ _ (by omega)]

/-! ### The frame of a WRITE (R235) -/

/-- The registers of a WRITE or WRITEN are a loaded frame. -/
theorem State.Inv.frameRegs_loaded {s : State} {l : LinkId} (h : s.Inv) (hr : s.rxSt = .idle)
    (he : pinEntry s.cfg (s.link l).txpin = some e) (hP : 0 < s.txPeriod l) (v : Byte)
    (q : List Byte) : (frameRegs s l v q).Loaded e := by
  obtain ⟨htxpin, hperiod⟩ := frameRegs_link_self s l v q
  refine ⟨?_, (frameRegs_rxSt s l v q).trans hr, ?_, hperiod.symm ▸ hP⟩
  · rw [frameRegs_cfg]
    exact h.cfgWF
  · rw [frameRegs_cfg]
    exact htxpin.symm ▸ he

/-- The first frame of a WRITE or WRITEN is sent from the tick of the command on. -/
theorem State.Inv.firstFrame_sending {s : State} {l : LinkId} (h : s.Inv) (hr : s.rxSt = .idle)
    (ht : s.txSt = .idle) (hl : LinkExists s l) (he : pinEntry s.cfg (s.link l).txpin = some e)
    (hcar : Carries s.ports e before) (hP : 0 < s.txPeriod l) (v : Byte) (q : List Byte) :
    ∃ t, (s.loadWrite l q).startFrame l v = .ok t ∧
      Sending (frameRegs s l v q) e before 0 t.endTick := by
  obtain ⟨htxpin, hperiod⟩ := frameRegs_link_self s l v q
  have hloaded := h.frameRegs_loaded hr he hP v q
  have hports : Carries (frameRegs s l v q).ports e before := frameRegs_ports s l v q ▸ hcar
  obtain ⟨hwaits, hdrives, -⟩ := h.firstFrame hl v q
  by_cases hk : s.cfg.ovhTxStart = 0
  · have hidle : InPart (frameRegs s l v q) e before .idle (frameRegs s l v q).txI
        (frameRegs s l v q).dly (frameRegs s l v q) :=
      ⟨_, _, _, _, _, by rw [← ht, ← frameRegs_txSt s l v q], hports⟩
    have hdrive := (hidle.transmitsOn hloaded).pinWrite false
    obtain ⟨u, hu, hsent⟩ := hdrives hk hP
    rw [← htxpin] at hu
    cases hu.symm.trans hdrive
    refine ⟨_, hsent, .start, _, s.txPeriod l, (hidle.drive .start _ _).endTick, by decide, hP,
      fun _ => hperiod.ge, ?_⟩
    simp only [partEnd, frameRegs_cfg, hk]
    rw [← hperiod]
    rfl
  · have hpos : 0 < s.cfg.ovhTxStart := Nat.pos_of_ne_zero hk
    refine ⟨_, hwaits hpos, .pre, _, s.cfg.ovhTxStart, ⟨_, _, _, _, _, rfl, hports⟩, by decide,
      hpos, fun hne => absurd rfl hne, ?_⟩
    rw [partEnd, frameRegs_cfg, Nat.zero_add]

end

end Sys2Proof.Machine

namespace Sys2Proof.Claims

open Sys2Proof Sys2Proof.Machine

/-- Settles O44: the frame that WRITE starts is sent tick by tick, and its end answers. -/
theorem transmitWaveform : Obligations.TransmitWaveform := by
  intro s l v e r h hr ht hh hl hx he hport hdir P ovh hP
  have hloaded := h.frameRegs_loaded hr he hP v []
  obtain ⟨t₀, hstart, hsending⟩ :=
    h.firstFrame_sending hr ht hl he ⟨r, hport, hdir, rfl⟩ hP v []
  obtain ⟨htxpin, hperiod⟩ : ((frameRegs s l v []).link (frameRegs s l v []).txL).txpin = _ ∧
    (frameRegs s l v []).txPeriod (frameRegs s l v []).txL = _ := frameRegs_link_self s l v []
  have hwave := hsending.waveform hloaded rfl
  rw [frameRegs_cfg, htxpin, hperiod] at hwave
  refine ⟨t₀, (exec_write_sends hl hx v).trans (congrArg finish hstart), ?_⟩
  rw [← h.idle_ie hr ht]
  exact hwave

end Sys2Proof.Claims
end

section
/-! PROOFS. The byte a receive line gives that carries a transmitted frame (44_transmit.md R238). -/

namespace Sys2Proof.Machine

open Sys2Proof.Claims

/-- The range of R238 with equal periods and no overheads. -/
theorem samples_in_cells_iff (P c : Nat) :
    (∀ i, i < 8 → (i + 1) * P ≤ c + (i + 1) * P ∧ c + (i + 1) * P < (i + 2) * P) ↔ c < P := by
  have hcell (i : Nat) : (i + 2) * P = (i + 1) * P + P := by ring
  refine ⟨fun h => ?_, fun hc i _ => ?_⟩
  · obtain ⟨-, hhi⟩ := h 0 (by decide)
    have hfirst := hcell 0
    omega
  · have hi := hcell i
    omega

/-- Samples of a byte's waveform, each in its bit's cell, make the byte (R238). -/
theorem bitsSampled_of_waveform {s : State} {e : PinEntry} {v : Byte} {P x b : Nat}
    (hline : ∀ i, i < 8 →
      lineLevel s e (x + (i + 1) * b) = waveform true v 0 P (x + (i + 1) * b))
    (hcells : ∀ i, i < 8 → (i + 1) * P ≤ x + (i + 1) * b ∧ x + (i + 1) * b < (i + 2) * P) :
    bitsSampled s e (x + b) b 8 = v := by
  refine BitVec.eq_of_getLsbD_eq fun i hi => ?_
  obtain ⟨hlo, hhi⟩ := hcells i hi
  have hsample := (bitsSampled_instants s e x b ⟨i, hi⟩).trans (hline i hi)
  exact hsample.trans (waveform_data _ _ hi (by omega) (by omega))

/-- The level of a pin in a coming tick is what its port samples (41_pins_links.md R153). -/
theorem lineLevel_eq_sampled {s : State} {e : PinEntry} {r : PortRegs}
    (hport : s.ports[e.port]? = some r) (j : Nat) : lineLevel s e j =
      bitAt (r.sampled (envLevel (s.t + j) (s.env.getD j []) e.port)) e.bit := by
  rw [lineLevel, hport, bitAt_sampled]

/-- A start edge on an armed line sets `PEND` (60_exceptions.md R265). -/
theorem phase1_pend_of_edge {s : State} {e : PinEntry} {r : PortRegs} (ht : 0 < s.t)
    (hport : s.ports[e.port]? = some r) (harmed : bitAt r.pcmsk e.bit = true)
    (hedge : lineLevel s e 0 ≠ bitAt r.inp e.bit) : s.phase1.pend = true := by
  have hsampled := phase1_port hport
  have hchanged : (r.sample (envLevel s.t (s.env.headD []) e.port)).changed = true := by
    refine (changed_iff _).2 ⟨e.bit, ?_, harmed⟩
    rwa [lineLevel_eq_sampled hport, ← headD_drop] at hedge
  have hany : s.phase1.ports.any PortRegs.changed = true :=
    List.any_eq_true.2 ⟨_, List.mem_of_getElem? hsampled, hchanged⟩
  rw [phase1_pend, ← phase1_ports, hany, decide_eq_true ht]
  simp

end Sys2Proof.Machine

namespace Sys2Proof.Claims

open Sys2Proof Sys2Proof.Machine

/-- Settles O45: the start edge dispatches the engine, the samples in the byte's cells make the byte,
and the commit appends it. -/
theorem loopbackReproducesTheByte : Obligations.LoopbackReproducesTheByte := by
  refine ⟨fun s l e r v P h hr ht htick ha he hport harmed hhigh => ?_, samples_in_cells_iff⟩
  intro x b n hline hentry hcells
  have hlow : lineLevel s e s.cfg.latEntry = false :=
    (hline _ (by omega)).trans (waveform_start _ _ (Nat.zero_le _) (by omega))
  have hpend : s.phase1.pend = true := by
    refine phase1_pend_of_edge htick hport harmed ?_
    rw [hhigh, hline 0 (Nat.zero_le n), waveform_start _ _ (Nat.zero_le _) (by omega)]
    decide
  refine ⟨hpend, ?_⟩
  have hbyte : bitsSampled s e (x + b) b 8 = v := by
    refine bitsSampled_of_waveform (P := P) (fun i hi => hline _ ?_) hcells
    have hle : (i + 1) * b ≤ 8 * b := Nat.mul_le_mul_right b hi
    omega
  have hcommit := (dispatch_actsAt h hr ht hpend ha).commit h he hlow
  rw [show s.cfg.latEntry + s.rxCenterTicks l = x from (Nat.add_assoc _ _ _).symm] at hcommit
  change ActsAt s l (x + 8 * b + _) _ (bitsSampled s e (x + b) b 8) _ at hcommit
  rw [hbyte, show x + 8 * b + s.rxStopTicks l = n from (Nat.add_assoc _ _ _).symm] at hcommit
  obtain ⟨p, hframe, hend⟩ := hcommit.ends
  obtain ⟨pd, st, k, rfl⟩ := hframe
  by_cases hroom : (s.tail + 1) % s.cfg.rxBufSize ≠ s.head
  · exact ⟨_, hend _ (rxStopExpire_room hroom h.tailLt), rfl, rfl, rfl, rfl,
      fun _ => h.pushed_fifo v hroom⟩
  · exact ⟨_, hend _ (rxStopExpire_full (not_not.1 hroom)), rfl, rfl, rfl, rfl,
      fun hne => absurd hne hroom⟩

end Sys2Proof.Claims
end

section
/-! PROOFS. The pin-change interrupt from its edge to its return (60_exceptions.md R265 to R268):
what sets `PEND`, what a dispatch does, and that a running receive engine has the tick to itself. -/

namespace Sys2Proof.Machine

open Sys2Proof.Claims

/-! ### Pin-change detection (R265) -/

/-- Some port changed where an armed bit of one did. -/
theorem any_changed_iff {ps : List PortRegs} : ps.any PortRegs.changed = true ↔
    ∃ (k : Nat) (p : PortRegs) (b : Fin 8), ps[k]? = some p ∧
      bitAt p.inp b ≠ bitAt p.prev b ∧ bitAt p.pcmsk b = true := by
  rw [List.any_eq_true]
  constructor
  · rintro ⟨p, hp, hchanged⟩
    obtain ⟨k, hk⟩ := List.mem_iff_getElem?.1 hp
    obtain ⟨b, hb⟩ := (changed_iff p).1 hchanged
    exact ⟨k, p, b, hk, hb⟩
  · rintro ⟨k, p, b, hk, hb⟩
    exact ⟨p, List.mem_of_getElem? hk, (changed_iff p).2 ⟨b, hb⟩⟩

/-! ### Dispatch (R266) -/

/-- With both engines idle a pending interrupt that is not masked is dispatched. -/
theorem step_dispatch {s : State} (hc : s.cfg.WF) (hr : s.rxSt = .idle) (ht : s.txSt = .idle)
    (hp : s.phase1.pend = true) (hi : s.ie = true) :
    step s = ticked (finish s.phase1.dispatch) := by
  rw [step_eq_ticked hc, phase2_dispatch (p := s.phase1) hr ht hp hi]

/-! ### While the receive engine runs (R268, 10_state.md R62) -/

/-- A running receive engine takes the tick: it returns from a spurious entry, or goes on. -/
theorem AgentStep.rxRun {p u : State} (h : AgentStep p u) (hr : p.rxSt ≠ .idle) :
    u = ({ p with dly := 0 } : State).returnFromInterrupt ∨ RxRun { p with dly := 0 } u := by
  cases h with
  | rxReturn => exact .inl rfl
  | rx _ _ _ hu => exact .inr hu
  | tx hidle | unserved hidle | enters hidle | spurious hidle | starts hidle | counts hidle
  | delayEnds hidle | nextFrame hidle | idles hidle | accepts hidle
  | rejects hidle => exact absurd hidle hr

/-- The transmit engine's registers are the same. -/
def SameTx (s t : State) : Prop :=
  t.txSt = s.txSt ∧ t.txI = s.txI ∧ t.txD = s.txD ∧ t.txL = s.txL ∧ t.txSie = s.txSie

theorem RxRun.sameTx {s u : State} (h : RxRun s u) : SameTx s u := by
  cases h <;> exact ⟨rfl, rfl, rfl, rfl, rfl⟩

/-- What a tick of a running receive engine leaves: the served link, `ACTIVE`, `PEND`, `HEAD` and
the transmit engine. -/
theorem AgentStep.rx_kept {p u : State} (h : AgentStep p u) (hr : p.rxSt ≠ .idle) :
    u.rxL = p.rxL ∧ u.active = p.active ∧ u.pend = p.pend ∧ u.head = p.head ∧ SameTx p u := by
  rcases h.rxRun hr with rfl | hu
  · exact ⟨rfl, rfl, rfl, rfl, rfl, rfl, rfl, rfl, rfl⟩
  · obtain ⟨-, -, -, hactive, hserved, -, hhead, hpend⟩ := hu.same
    exact ⟨hserved, hactive, hpend, hhead, hu.sameTx⟩

end Sys2Proof.Machine

namespace Sys2Proof.Claims

open Sys2Proof Sys2Proof.Machine

/-- Settles O14: phase 1 ORs into `PEND` whether some port changed, from tick 1 on. -/
theorem armedLevelChangeSetsPend : Obligations.ArmedLevelChangeSetsPend := by
  intro s
  rw [phase1_pend, ← phase1_ports, Bool.or_eq_true, Bool.and_eq_true, decide_eq_true_iff,
    any_changed_iff]

/-- Settles O33: dispatch by `ACTIVE`, and the wait in `ENTRY` by the entry latency. -/
theorem dispatchTakesTheInterrupt : Obligations.DispatchTakesTheInterrupt := by
  intro s hc hr ht hp hi p
  rw [step_dispatch hc hr ht hp hi]
  refine ⟨fun ha => ?_, fun l ha => ?_⟩
  · rw [dispatch_none (p := s.phase1) ha]
    rfl
  · rw [dispatch_some (p := s.phase1) ha]
    refine ⟨fun hk => ?_, fun hk => ?_⟩
    · rw [rxWait_pos (k := s.phase1.cfg.latEntry) hk]
      rfl
    · rw [phase1_cfg, hk, rxWait_zero]

/-- Settles O37: the tick is the receive engine's, and the invariant after it ties `IE` to the
engine, the transmit engine being idle. -/
theorem noNestedDispatch : Obligations.NoNestedDispatch := by
  intro s t h hr hstep
  have hinv := stepKeepsTheInvariant s t h hstep
  obtain ⟨-, u, hu, rfl⟩ := step_cases hstep
  obtain ⟨hserved, hactive, hpend, hhead, htx, hregs⟩ := hu.rx_kept hr
  have hidle : s.txSt = .idle := h.oneEngine.resolve_left hr
  have hhost : SameHost s.phase1 u := hu.sameHost hidle fun ⟨hturn, _⟩ => hr hturn
  have hie : u.ie = true ↔ u.rxSt = .idle := hinv.ieIff.trans (and_iff_left (htx.trans hidle))
  have hlatched : s.pend = true → u.pend = true := fun hp => hpend.trans (by simp [hp])
  obtain ⟨hi, hd, hl, hsie⟩ := hregs
  exact ⟨hserved, hactive, hpend, hlatched, hie, hhost, htx.trans hidle, hi, hd, hl, hsie, hhead⟩

end Sys2Proof.Claims
end

section
/-! PROOFS. Responses and checks (60_exceptions.md R260, R261): what a completed command leaves,
and the first check a command fails. -/

namespace Sys2Proof.Machine

open Sys2Proof.Claims

/-! ### The record (30_encoding.md R110) -/

/-- An accepted record performs its instruction, or is answered ILLEGAL. -/
theorem accept_cases {s t : State} {r : CmdRecord} (h : s.accept r = .next t) :
    (∃ i, CmdRun i s t) ∨ t = s.raise .illegal := by
  cases hd : decode r with
  | ok i =>
    rw [accept_decoded hd] at h
    exact .inl ⟨i, exec_run h⟩
  | error e =>
    rw [accept_rejected hd] at h
    cases h
    exact .inr rfl

/-- A record that fits no row of the table is answered ILLEGAL, whatever it names (R107, R108). -/
theorem accept_of_not_fitsTable {s : State} {r : CmdRecord} (h : ¬ FitsTable r) :
    s.accept r = .next (answered s .illegal 0) := by
  cases hd : decode r with
  | ok i => exact absurd ((recordsOfTheTableDecode r).1 ⟨i, hd⟩) h
  | error e => exact accept_rejected hd

/-! ### The response of a completed command (R260) -/

/-- The command completed with status OK: the response is delivered and the host is free. -/
def CompletesOk (u : State) : Prop := u.hostSt = .free ∧ ∃ r, u.resp = some ⟨.ok, r⟩

/-- The transmit engine delivers a response where it completes the command, and no other. -/
theorem TxRun.response {s u : State} (h : TxRun s u) : u.resp = s.resp ∨ CompletesOk u := by
  cases h with
  | waits | frameEnded => exact .inl rfl
  | completed => exact .inr ⟨rfl, _, rfl⟩

/-- A command delivers no response, completes with status OK, or raises a status with no other
effect. -/
theorem CmdRun.response {i : Instr} {s u : State} (h : CmdRun i s u) :
    u.resp = s.resp ∨ CompletesOk u ∨ ∃ st, u = s.raise st := by
  cases h with
  | answers st r h0 =>
    by_cases hok : st = .ok
    · subst hok
      exact .inr (.inl ⟨rfl, r, rfl⟩)
    · exact .inr (.inr ⟨st, by rw [h0 hok, State.raise]⟩)
  | switches | takes | flushes | creates | begins => exact .inr (.inl ⟨rfl, _, rfl⟩)
  | delays => exact .inl rfl
  | sends l v q _ _ _ _ hu =>
    have hresp : ((s.loadWrite l q).loadFrame l v).resp = s.resp := loadFrame_resp _ l v
    rw [← hresp]
    exact hu.response.imp_right .inl

/-! ### The check of the link (R261) -/

/-- The link whose existence a command checks first: every link command's but CREATE's. -/
def checkedLink : Instr → Option LinkId
  | .begin l _ | .write l _ | .writen l _ | .read l | .avail l | .flush l | .activate l
  | .ovfl l => some l
  | .create _ _ _ | .delay _ => none

/-- A command whose check of its link fails answers NO_LINK. -/
theorem exec_of_missing {s : State} {i : Instr} {l : LinkId} (hi : checkedLink i = some l)
    (hl : ¬ LinkExists s l) : exec i s = .next (answered s .noLink 0) := by
  cases i with
  | create | delay => cases hi
  | begin | write | writen | read | avail | flush | activate | ovfl =>
    cases hi
    simp only [exec, execBegin, execWrite, execWriten, execRead, execAvail, execFlush, execActivate,
      execOvfl, withLink_of_missing hl]

end Sys2Proof.Machine

namespace Sys2Proof.Claims

open Sys2Proof Sys2Proof.Machine

/-- Settles O46: a new response is that of a completed command, OK or raised. -/
theorem errorStatusChangesNothing : Obligations.ErrorStatusChangesNothing := by
  intro c s t r hnone hfree haccept hresp
  have hraised : ∀ st, t = s.raise st →
      t.hostSt = .free ∧ (r.status ≠ .ok → r.result = 0 ∧ t = { s with resp := some r }) := by
    rintro st rfl
    cases hresp
    exact ⟨rfl, fun _ => ⟨rfl, by rw [State.raise, State.respond, ← hfree]⟩⟩
  rcases accept_cases haccept with ⟨i, hrun⟩ | hillegal
  · rcases hrun.response with hkept | ⟨hhost, w, hok⟩ | ⟨st, hst⟩
    · exact nomatch hresp.symm.trans (hkept.trans hnone)
    · cases hresp.symm.trans hok
      exact ⟨hhost, fun hne => absurd rfl hne⟩
    · exact hraised st hst
  · exact hraised _ hillegal

/-- Settles O47: the record's check, the link's, and CREATE's chain. -/
theorem checksAreMadeInOrder : Obligations.ChecksAreMadeInOrder := by
  intro s l
  refine ⟨fun r hr => accept_of_not_fitsTable hr, fun hl i hi => exec_of_missing ?_ hl,
    exec_create s l⟩
  rcases hi with ⟨_, rfl⟩ | ⟨_, rfl⟩ | ⟨_, rfl⟩ | rfl | rfl | rfl | rfl | rfl <;> rfl

end Sys2Proof.Claims
end

section
/-! PROOFS. The core has no run-time fault (60_exceptions.md R264): in a state of the invariant
every operation of a tick answers, the engines', the commands' and the host's. -/

namespace Sys2Proof.Machine

open Sys2Proof.Claims

/-! ### The commands -/

/-- A command that checks its link answers in every state where it answers of a link that exists
(R261). -/
theorem exec_total_of_exists {s : State} {l : LinkId} {i : Instr}
    (hi : checkedLink i = some l) (h : LinkExists s l → ∃ t, exec i s = .next t) :
    ∃ t, exec i s = .next t := by
  by_cases hl : LinkExists s l
  · exact h hl
  · exact ⟨_, exec_of_missing hi hl⟩

theorem finish_total {x : Except Fault State} (h : ∃ t, x = .ok t) : ∃ t, finish x = .next t := by
  obtain ⟨t, rfl⟩ := h
  exact ⟨t, rfl⟩

section

variable {s : State} {l : LinkId}

/-- A frame starts on a link that exists: its transmit pin is mapped (44_transmit.md R231). -/
theorem State.Inv.startFrame_total (h : s.Inv) (hl : LinkExists s l) (q : List Byte) (v : Byte) :
    ∃ t, (s.loadWrite l q).startFrame l v = .ok t := by
  obtain ⟨t, ht, -⟩ := startFrame_run (loadFrame_txReady (s := s.loadWrite l q) h.cfgWF h.portCount
    (h.txpin (hasLink_iff.2 hl)) v)
  exact ⟨t, ht⟩

theorem State.Inv.create_total (h : s.Inv) (rx tx : PinId) :
    ∃ t, exec (.create l rx tx) s = .next t := by
  rw [exec_create]
  split_ifs with hrange hexists hpins
  · exact ⟨_, rfl⟩
  · exact ⟨_, rfl⟩
  · exact ⟨_, rfl⟩
  · have huse := Bool.eq_true_of_not_eq_false (mt pinsUsable_eq_false_iff.1 hpins)
    exact finish_total (createLink_total h.cfgWF h.portCount huse)

theorem State.Inv.begin_total (h : s.Inv) (hl : LinkExists s l) (baud : Word) :
    ∃ t, exec (.begin l baud) s = .next t := by
  rw [exec_begin_of_exists hl]
  split
  · exact ⟨_, rfl⟩
  · exact finish_total (beginLink_total h.cfgWF h.portCount (h.rxpin (hasLink_iff.2 hl)))

theorem State.Inv.write_total (h : s.Inv) (hl : LinkExists s l) (v : Byte) :
    ∃ t, exec (.write l v) s = .next t := by
  by_cases hx : (s.link l).txd = 0
  · exact ⟨_, exec_write_noop hl hx v⟩
  · rw [exec_write_sends hl hx]
    exact finish_total (h.startFrame_total hl [] v)

theorem State.Inv.writen_total (h : s.Inv) (hl : LinkExists s l) (bs : List Byte) :
    ∃ t, exec (.writen l bs) s = .next t := by
  cases bs with
  | nil => exact ⟨_, exec_writen_nil hl⟩
  | cons v q =>
    by_cases hx : (s.link l).txd = 0
    · exact ⟨_, exec_writen_noop hl hx (List.cons_ne_nil v q)⟩
    · rw [exec_writen_sends hl hx]
      exact finish_total (h.startFrame_total hl q v)

/-- The slot at `HEAD` exists (R54(a)). -/
theorem State.Inv.read_total (h : s.Inv) (hl : LinkExists s l) :
    ∃ t, exec (.read l) s = .next t := by
  by_cases ha : s.active = some l
  · by_cases he : s.head = s.tail
    · exact ⟨_, exec_read_empty hl ha he⟩
    · exact ⟨_, exec_read_takes hl ha he h.headLt⟩
  · exact ⟨_, exec_read_switches hl ha⟩

theorem exec_avail_total (hl : LinkExists s l) : ∃ t, exec (.avail l) s = .next t := by
  by_cases ha : s.active = some l
  · exact ⟨_, exec_avail_active hl ha⟩
  · exact ⟨_, exec_avail_switches hl ha⟩

theorem exec_flush_total (hl : LinkExists s l) : ∃ t, exec (.flush l) s = .next t := by
  by_cases ha : s.active = some l
  · exact ⟨_, exec_flush_active hl ha⟩
  · exact ⟨_, exec_flush_switches hl ha⟩

end

theorem exec_delay_total (s : State) (cnt : Count) : ∃ t, exec (.delay cnt) s = .next t := by
  simp only [exec, execDelay]
  split <;> exact ⟨_, rfl⟩

/-- Every command answers a next state. -/
theorem State.Inv.exec_total {s : State} (h : s.Inv) (i : Instr) : ∃ t, exec i s = .next t := by
  cases i with
  | create l rx tx => exact h.create_total rx tx
  | begin l baud => exact exec_total_of_exists rfl (h.begin_total · baud)
  | write l v => exact exec_total_of_exists rfl (h.write_total · v)
  | writen l bs => exact exec_total_of_exists rfl (h.writen_total · bs)
  | read l => exact exec_total_of_exists rfl h.read_total
  | avail l => exact exec_total_of_exists rfl exec_avail_total
  | flush l => exact exec_total_of_exists rfl exec_flush_total
  | activate l => exact exec_total_of_exists rfl fun hl => ⟨_, exec_activate_of_exists hl⟩
  | ovfl l => exact exec_total_of_exists rfl fun hl => ⟨_, exec_ovfl_of_exists hl⟩
  | delay cnt => exact exec_delay_total s cnt

/-- Every record has a defined response or begins its command (R264). -/
theorem State.Inv.accept_total {s : State} (h : s.Inv) (r : CmdRecord) :
    ∃ t, s.accept r = .next t := by
  cases hd : decode r with
  | ok i =>
    rw [accept_decoded hd]
    exact h.exec_total i
  | error e => exact ⟨_, accept_rejected hd⟩

/-! ### The agents of a tick (10_state.md R62, R63) -/

/-- The host offers a command where the oldest of its queue is due. -/
theorem hostOffers_iff {s : State} : s.hostOffers = true ↔
    ∃ c rest, s.cmds = c :: rest ∧ c.notBefore ≤ s.t := by
  unfold State.hostOffers
  cases s.cmds <;> simp

section

variable {p : State}

/-- A running receive engine has ticks to count, its line and the slot at `TAIL`. -/
theorem State.Inv.rxAdvance_total (h : p.Inv) (hr : p.rxSt ≠ .idle) : ∃ u, p.rxAdvance = .ok u := by
  obtain ⟨u, hu, -⟩ := rxAdvance_run (h.rxLive hr p.dly).ready hr (h.engineCounts (.inl hr))
  exact ⟨u, hu⟩

/-- A running transmit engine has ticks to count and its line. -/
theorem State.Inv.txAdvance_total (h : p.Inv) (ht : p.txSt ≠ .idle) : ∃ u, p.txAdvance = .ok u := by
  obtain ⟨u, hu, -⟩ := txAdvance_run (h.txLive ht p.dly).ready ht (h.engineCounts (.inr ht))
  exact ⟨u, hu⟩

/-- The active link's line can be checked at once (60_exceptions.md R266). -/
theorem State.Inv.dispatch_total (h : p.Inv) (ht : p.txSt = .idle) : ∃ u, p.dispatch = .ok u := by
  cases ha : p.active with
  | none => exact ⟨_, dispatch_none ha⟩
  | some l =>
    rw [dispatch_some ha]
    rcases Nat.eq_zero_or_pos p.cfg.latEntry with hk | hk
    · rw [hk, rxWait_zero]
      obtain ⟨u, hu, -⟩ := rxEntryExpire_run (h.enterInterrupt ht ha).ready
      exact ⟨u, hu⟩
    · exact ⟨_, rxWait_pos hk⟩

/-- A DELAY under way has ticks to count (40_timing_delay.md R137). -/
theorem State.Inv.countDelay_total (h : p.Inv) (hh : p.hostSt = .delay) :
    ∃ u, p.countDelay = .ok u := by
  obtain ⟨k, hk⟩ := Nat.exists_eq_succ_of_ne_zero (h.delayCounts hh).ne'
  rw [State.countDelay, hk]
  dsimp only
  split <;> exact ⟨_, rfl⟩

/-- A WRITEN between two frames has a byte due and an active link to send it on (44_transmit.md
R236). -/
theorem State.Inv.nextFrame_total (h : p.Inv) (ht : p.txSt = .idle) (hh : p.hostSt = .write) :
    ∃ u, p.nextFrame = .ok u := by
  obtain ⟨v, q, hq⟩ := List.exists_cons_of_ne_nil (h.frameDue hh ht)
  obtain ⟨hactive, -⟩ := h.writeActive hh
  obtain ⟨u, hu, -⟩ := startFrame_run (loadFrame_txReady (s := { p with wnQ := q }) h.cfgWF
    h.portCount (h.txpin (h.activeExists _ hactive)) v)
  exact ⟨u, by rw [State.nextFrame, hq]; exact hu⟩

theorem State.Inv.hostStep_total (h : p.Inv) (ht : p.txSt = .idle) : ∃ u, p.hostStep = .next u := by
  cases hh : p.hostSt with
  | delay =>
    rw [State.hostStep, hh]
    exact finish_total (h.countDelay_total hh)
  | write =>
    rw [State.hostStep, hh]
    exact finish_total (h.nextFrame_total ht hh)
  | free =>
    cases ho : p.hostOffers with
    | false => exact ⟨p, hostStep_idle hh ho⟩
    | true =>
      obtain ⟨c, rest, hc, hoffered⟩ := hostOffers_iff.1 ho
      rw [hostStep_offered hh hc hoffered]
      exact (h.inputs p.t p.resp rest p.env).accept_total c.record

/-- Whichever agent has the tick, it answers. -/
theorem State.Inv.phase2_total (h : p.Inv) : ∃ u, p.phase2 = .next u := by
  by_cases hr : p.rxSt = .idle
  · by_cases ht : p.txSt = .idle
    · cases hp : p.pend with
      | true =>
        rw [phase2_dispatch hr ht hp (h.idle_ie hr ht)]
        exact finish_total (h.dispatch_total ht)
      | false =>
        rw [phase2_host hr ht (.inl hp)]
        exact h.hostStep_total ht
    · rw [phase2_tx hr ht]
      exact finish_total (h.txAdvance_total ht)
  · rw [phase2_rx hr]
    exact finish_total (h.rxAdvance_total hr)

end

end Sys2Proof.Machine

namespace Sys2Proof.Claims

open Sys2Proof Sys2Proof.Machine

/-- Settles O56: phase 1 keeps the invariant, and from there every agent answers. -/
theorem noRunTimeFault : Obligations.NoRunTimeFault := by
  intro s h
  obtain ⟨u, hu⟩ := h.phase1.phase2_total
  exact ⟨u.endTick, step_next h.cfgWF hu⟩

end Sys2Proof.Claims
end

section
/-! PROOFS. Reset (70_reset_and_hazards.md R300, R301): the reset event and the model's own reset
state give every element the value the spec gives it, and from those values the invariant follows. -/

namespace Sys2Proof.Machine

/-! ### The register sets after reset (10_state.md R31, R42) -/

/-- Whatever pins it holds, a register set with the reset values does not exist and is untouched. -/
theorem untouched_of_reset (rx tx : PinId) :
    ({ LinkRegs.reset with rxpin := rx, txpin := tx } : LinkRegs).exists_ = false ∧
    ({ LinkRegs.reset with rxpin := rx, txpin := tx } : LinkRegs).Untouched :=
  ⟨rfl, rfl, ⟨rfl, rfl, rfl, rfl⟩, rfl⟩

/-- The reset event keeps a link's pins, which R301 leaves unspecified, and resets the rest. -/
theorem applyReset_link (s : State) (l : LinkId) :
    s.applyReset.link l =
      { LinkRegs.reset with rxpin := (s.link l).rxpin, txpin := (s.link l).txpin } := by
  simp only [State.applyReset, State.link, Vector.getElem_map]

/-- The reset event resets each port's latch, direction and mask (R42). -/
theorem applyReset_ports (s : State) :
    ∀ p ∈ s.applyReset.ports, p.out = 0 ∧ p.dir = 0 ∧ p.pcmsk = 0 := by
  intro p hp
  obtain ⟨q, -, rfl⟩ := List.mem_map.1 hp
  exact ⟨rfl, rfl, rfl⟩

/-! ### The states right after reset (R300, R301) -/

/-- The reset event gives every value of R301: of what a reset state must meet, only the form of the
RAM and the number of ports come from the state before. -/
theorem applyReset_isReset {s : State} (hports : s.ports.length = s.cfg.nPorts)
    (hram : s.rxbuf.wf = true) (hslots : ∀ c ∈ s.rxbuf, c.1 < s.cfg.rxBufSize) :
    s.applyReset.IsReset where
  t := rfl
  links l := by
    rw [applyReset_link]
    exact untouched_of_reset _ _
  active := rfl
  ie := rfl
  pend := rfl
  head := rfl
  tail := rfl
  portCount := (List.length_map _).trans hports
  ports := applyReset_ports s
  rxSt := rfl
  txSt := rfl
  rxI := rfl
  txI := rfl
  dly := rfl
  hdly := rfl
  hostSt := rfl
  wnQ := rfl
  wnSum := rfl
  ramWF := hram
  ramSlots := hslots

/-- The reset event leaves the model's reset state as it is: that state has its values already. -/
theorem applyReset_resetTo (c : Config) :
    (State.resetTo c).applyReset = State.resetTo c := by
  simp only [State.applyReset, State.resetTo, Vector.map_replicate, List.map_replicate]
  rfl

/-- The model's reset state is one under every configuration, its RAM empty. -/
theorem resetTo_isReset (c : Config) : (State.resetTo c).IsReset := by
  rw [← applyReset_resetTo]
  exact applyReset_isReset List.length_replicate rfl (List.forall_mem_nil _)

/-! ### The invariant (10_state.md R54) -/

/-- After reset no link exists, both engines are idle, the host is free and no link is active, so
each clause about one of these has nothing to say or is one of R301's values. -/
theorem State.IsReset.inv {s : State} (h : s.IsReset) (hcfg : s.cfg.WF) : s.Inv := by
  have hslot : 0 < s.cfg.rxBufSize := by
    obtain ⟨-, hsize, -⟩ := hcfg
    omega
  have hnoLink : ∀ l, (s.link l).exists_ ≠ true := fun l => Bool.eq_false_iff.1 (h.links l).1
  have hnoActive : ∀ l, s.active ≠ some l := fun l => by simp [h.active]
  have hnoWrite : s.hostSt ≠ .write := by simp [h.hostSt]
  have hnoDelay : s.hostSt ≠ .delay := by simp [h.hostSt]
  have hmasked : ∀ p ∈ s.ports, p.pcmsk = 0 := by
    intro p hp
    obtain ⟨-, -, hpcmsk⟩ := h.ports p hp
    exact hpcmsk
  exact {
    cfgWF := hcfg
    headLt := h.head ▸ hslot
    tailLt := h.tail ▸ hslot
    activeExists := fun l hl => absurd hl (hnoActive l)
    oneEngine := .inl h.rxSt
    ieIff := iff_of_true h.ie ⟨h.rxSt, h.txSt⟩
    txHost := fun ht => absurd h.txSt ht
    created := fun l hl => absurd hl (hnoLink l)
    untouched := fun l _ => (h.links l).2
    portCount := h.portCount
    rxServes := fun hr => absurd h.rxSt hr
    writeActive := fun hw => absurd hw hnoWrite
    engineCounts := fun hrun => (hrun.elim (· h.rxSt) (· h.txSt)).elim
    delayCounts := fun hd => absurd hd hnoDelay
    frameDue := fun hw => absurd hw hnoWrite
    writeCount := fun hw => absurd hw hnoWrite
    ramWF := h.ramWF
    ramSlots := h.ramSlots
    beforeActive := fun _ => ⟨h.head, h.tail, h.pend, hmasked⟩ }

end Sys2Proof.Machine

namespace Sys2Proof.Claims

open Sys2Proof Sys2Proof.Machine

/-- Settles O54: R301's values, under the configuration the state had. -/
theorem resetEventReachesReset : Obligations.ResetEventReachesReset :=
  fun _ hports hram hslots => ⟨applyReset_isReset hports hram hslots, rfl⟩

/-- Settles O53: R301's values give the invariant; `State.reset` is `State.resetTo` at T1. -/
theorem resetMeetsTheInvariant : Obligations.ResetMeetsTheInvariant :=
  ⟨fun _ hcfg hreset => hreset.inv hcfg, resetTo_isReset Config.t1, by decide⟩

end Sys2Proof.Claims
end
